-- ==== Sys2Proof/Word.lean ====
section
/-! DEFINITION. The raw words of the Flash interface: bytes, bus words, the 35-bit bus descriptor and the two
descriptor formats (spec 30_encoding.md, rules R110 and R116). -/

namespace Sys2Proof

/-- A byte of the array or of a command's data operand. -/
abbrev Byte := BitVec 8

/-- A 32-bit bus word: a register, WDATA, RDATA, an address, a `u32` operand (rule R7). -/
abbrev Word := BitVec 32

/-- The 35-bit bus descriptor `K = [W, SZ, ADDR]` (rule R110). -/
abbrev BusKey := BitVec 35

/-- The three access sizes of SZ (rule R111). The fourth code is reserved and has a row of its own. -/
inductive AccessSize where
  | byte
  | half
  | word
deriving DecidableEq, Repr

/-- One typed operand of a command descriptor: "Operands are typed values, not packed bits" (rule R116). -/
inductive Operand where
  | u32 (v : Word)
  | bytes (d : List Byte)
deriving DecidableEq, Repr

/-- What the host can issue, undecoded: a bus transaction `(K, WDATA)` (rule R110) or a command `(OP, operands)`
(rule R116). -/
inductive Descriptor where
  | bus (k : BusKey) (wdata : Word)
  | cmd (op : BitVec 8) (operands : List Operand)
deriving DecidableEq, Repr

end Sys2Proof
end

