-- ==== Sys2Proof/Config.lean ====
section
/-! DEFINITION. What an implementation fixes (the parameters of spec 00_scope.md rule R5) and the free values
(`draw T` of rule R8). -/

namespace Sys2Proof

/-- `LOCKED_CR_WRITE` (rule R5, decision D16): what a control-register write does while CR is locked. -/
inductive LockedCrWrite where
  | fieldsApplied
  | ignored
deriving DecidableEq, Repr

/-- `PCROP_WEAKEN` (rule R5, decision D30): the outcome of an option commit that weakens PCROP. -/
inductive PcropWeaken where
  | either
  | apply
deriving DecidableEq, Repr

/-- A sector map: the first byte and the size of each sector, in the order of the sector numbers (rule R46). -/
abbrev SectorMap := List (Nat × Nat)

/-- The parameters of rule R5 that a claim may vary. They are plain data carried in the state and no step writes
them (rule R321), so a statement about every state is a statement about every value of them.
The launch values `OB0` and `ARR0` are arguments of `Machine.State.launch`. Which values are admitted, and what the
rules mean at a value other than the default, is log entry 18. -/
structure Params where
  /-- `HCLK_HZ`, the core clock in Hz: OPEN. -/
  hclkHz : Nat
  /-- `VDD_RANGE`, lowest and highest supply voltage in millivolts. No rule reads it (rule R294). -/
  vddRange : Nat × Nat
  /-- `WS_STEP_MHZ`, the MHz per wait state of the calibrator's formula (rule R231). -/
  wsStepMhz : Nat
  /-- `N_SECTORS`, the number of indexable sectors (rules R46, R50, R151). -/
  nSectors : Nat
  /-- `SNB_WIDTH`, the bits of CR.SNB (rule R38). -/
  snbWidth : Nat
  /-- `PSIZE_WIDTH`, the bits of CR.PSIZE (rule R38). -/
  psizeWidth : Nat
  /-- `LATENCY_WIDTH`, the bits of ACR.LATENCY (rules R34, R231). -/
  latencyWidth : Nat
  /-- `WRP_WIDTH`, the bits of OPTCR.nWRP (rules R40, R243). -/
  wrpWidth : Nat
  /-- `KEY_WIDTH`, the bits of a key that are compared (rules R35, R36). -/
  keyWidth : Nat
  /-- `REG_BASE`, the first address of the register window (rules R33, R80). -/
  regBase : Word
  /-- `ARRAY_BASE`, the array's first byte (rules R46, R80). -/
  arrayBase : Nat
  /-- `ARRAY_LAST`, the array's last byte. -/
  arrayLast : Nat
  /-- `ERASED_BYTE`, what an erase leaves and a program needs (rules R201 to R203). -/
  erasedByte : BitVec 8
  /-- `END_ADDR`, READ's upper bound (rule R237). -/
  endAddr : Word
  /-- `SECTOR_MAP` (rule R46). -/
  sectorMap : SectorMap
  /-- `KEY1` (rules R144, R233). -/
  key1 : Word
  /-- `KEY2`. -/
  key2 : Word
  /-- `OPTKEY1` (rules R146, R235). -/
  optkey1 : Word
  /-- `OPTKEY2`. -/
  optkey2 : Word
  /-- `LOCKED_CR_WRITE`, default `FieldsApplied`. -/
  lockedCrWrite : LockedCrWrite
  /-- `PCROP_WEAKEN`, default `Either`. -/
  pcropWeaken : PcropWeaken
  /-- `ENGINE_FAIR`, default `true`. -/
  engineFair : Bool
  /-- `OPTCR_RSVD`, default 0x0F000000: what bits 30:24 and 4 of OPTCR read. -/
  optcrRsvd : Word
deriving DecidableEq, Repr

/-- The defaults of rule R5; `HCLK_HZ` has none there and takes the value of the test vectors, 16 MHz
(DESIGN CHOICE, log entry 3). -/
def Params.default : Params where
  hclkHz := 16000000
  vddRange := (2700, 3600)
  wsStepMhz := 30
  nSectors := 8
  snbWidth := 4
  psizeWidth := 2
  latencyWidth := 4
  wrpWidth := 8
  keyWidth := 32
  regBase := 0x40023C00
  arrayBase := 0x08000000
  arrayLast := 0x0807FFFF
  erasedByte := 0xFF
  endAddr := 0x0807FFFF
  sectorMap :=
    [(0x08000000, 0x4000), (0x08004000, 0x4000), (0x08008000, 0x4000), (0x0800C000, 0x4000),
     (0x08010000, 0x10000), (0x08020000, 0x20000), (0x08040000, 0x20000), (0x08060000, 0x20000)]
  key1 := 0x45670123
  key2 := 0xCDEF89AB
  optkey1 := 0x08192A3B
  optkey2 := 0x4C5D6E7F
  lockedCrWrite := .fieldsApplied
  pcropWeaken := .either
  engineFair := true
  optcrRsvd := 0x0F000000

/-- `draw Bool` (rule R8): the free value number `n`. No body: nothing can be proved of it (log entry 6). -/
opaque Config.drawBool : Nat → Bool

/-- `draw Byte` (rule R8): the free value number `n`. -/
opaque Config.drawByte : Nat → BitVec 8

/-- `draw (8n-bit value)` (rule R180): the free value number `n`, of which a reader keeps its low bits. -/
opaque Config.drawWord : Nat → BitVec 32

/-- The draw of rule R180's cache line: which of several candidates a read returns. -/
opaque Config.drawIndex : Nat → Nat

end Sys2Proof
end

