-- ==== Sys2Proof/Machine/Map.lean ====
section
/-! DEFINITION. The address map and the sectors (spec 10_state.md rules R33, R46, R47; 20_memory.md R80). The bases and
the sector map are parameters of rule R5; the offsets are the spec's, taken by it from the vendor's manual (decision
D2). -/

namespace Sys2Proof.Machine

/-! ## Registers -/

/-- `FLASH_ACR` (rules R33, R121). -/
def flashAcr (p : Params) : Word := p.regBase
/-- `FLASH_KEYR`. -/
def flashKeyr (p : Params) : Word := p.regBase + 0x04
/-- `FLASH_OPTKEYR`. -/
def flashOptkeyr (p : Params) : Word := p.regBase + 0x08
/-- `FLASH_SR`. -/
def flashSr (p : Params) : Word := p.regBase + 0x0C
/-- `FLASH_CR`. -/
def flashCr (p : Params) : Word := p.regBase + 0x10
/-- `FLASH_OPTCR`. -/
def flashOptcr (p : Params) : Word := p.regBase + 0x14

/-- The register space, the window `REG_BASE .. REG_BASE + 0x3FF` (rule R80). -/
def inRegisterWindow (p : Params) (a : Word) : Bool :=
  p.regBase.toNat ≤ a.toNat && a.toNat ≤ p.regBase.toNat + 0x3FF

/-- The six register addresses (rule R33). -/
def isRegister (p : Params) (a : Word) : Bool :=
  a = flashAcr p || a = flashKeyr p || a = flashOptkeyr p || a = flashSr p || a = flashCr p || a = flashOptcr p

/-! ## Sectors -/

/-- How many bytes the array has (rule R46): 512 KiB by default. -/
def arraySize (p : Params) : Nat := p.arrayLast + 1 - p.arrayBase

/-- `sector_range(i)` as first byte and size; size 0 (the empty set) for a number above the map's (rule R47). -/
def sectorRange (m : SectorMap) (i : Nat) : Nat × Nat := m.getD i (0, 0)

/-- `sector_of(a)` (rule R47): the index of the row of the map that holds `a`; none outside the array. -/
def sectorOf (m : SectorMap) (a : Nat) : Option Nat := m.findIdx? (fun r => r.1 ≤ a && a < r.1 + r.2)

/-- The sectors follow each other from `lo` up to `hi` in the order of their numbers, none of them empty. Rules R46 and
R47 say only that the sectors cover the array exactly: the order and that none is empty are the model's (DESIGN CHOICE,
log entry 18); the default map has both. -/
def sectorsCover : SectorMap → Nat → Nat → Bool
  | [], lo, hi => lo = hi
  | r :: m, lo, hi => r.1 = lo && 0 < r.2 && sectorsCover m (lo + r.2) hi

/-- The sector maps admitted: `N_SECTORS` sectors that "cover the array exactly" (rules R46, R47), in the order
`sectorsCover` asks for (log entry 18). -/
def sectorMapOk (p : Params) : Bool :=
  p.sectorMap.length = p.nSectors && sectorsCover p.sectorMap p.arrayBase (p.arrayLast + 1)

/-! ## Array addresses -/

/-- The array space, `ARRAY_BASE .. ARRAY_LAST` (rules R80, R114). -/
def inArray (p : Params) (a : Word) : Bool := p.arrayBase ≤ a.toNat && a.toNat ≤ p.arrayLast

/-- `nbytes(SZ)` (rule R111). -/
def nbytes : AccessSize → Nat
  | .byte => 1
  | .half => 2
  | .word => 4

/-- Natural alignment (rule R85). -/
def aligned : AccessSize → Word → Bool
  | .byte, _ => true
  | .half, a => a &&& 1 = 0
  | .word, a => a &&& 3 = 0

/-- An address that an array row admits: in the array and naturally aligned (rules R85, R113, R114). -/
def arrayAddressOk (p : Params) (sz : AccessSize) (a : Word) : Bool := inArray p a && aligned sz a

/-! ## Descriptors -/

/-- `K = [W, SZ, ADDR]` (rule R110). -/
def busKey (w : Bool) (sz : BitVec 2) (addr : Word) : BusKey := BitVec.ofBool w ++ sz ++ addr

end Sys2Proof.Machine
end

