-- ==== Sys2Proof/Syntax.lean ====
section
/-! DEFINITION. The instructions: one constructor for each row of spec/opcode_table.json, in the table's order
(spec 30_encoding.md rules R113 and R117). -/

namespace Sys2Proof

/-- A decoded bus transaction or command. Register rows take no operand but WDATA; array rows take the absolute
byte address and, for a write, the value's own width (rule R114). The rows that rule R115 refuses keep the fields
of the descriptor they decode from: `w` (W), `sz` (SZ), `addr` (ADDR) and WDATA, which is 0 for a read. -/
inductive Instr where
  /-- Row 1 SZ_RSVD: SZ = 0b11. -/
  | szRsvd (w : Bool) (addr wdata : Word)
  | acrRd
  | acrWr (v : Word)
  | keyrRd
  | keyrWr (v : Word)
  | optkeyrRd
  | optkeyrWr (v : Word)
  | srRd
  | srWr (v : Word)
  | crRd
  | crWr (v : Word)
  | optcrRd
  | optcrWr (v : Word)
  /-- Row 14 REG_OTHER: a register-space descriptor that is no word access to one of the six registers. -/
  | regOther (w : Bool) (sz : AccessSize) (addr wdata : Word)
  | arrRd8 (a : Word)
  | arrRd16 (a : Word)
  | arrRd32 (a : Word)
  | arrWr8 (a : Word) (v : BitVec 8)
  | arrWr16 (a : Word) (v : BitVec 16)
  | arrWr32 (a : Word) (v : Word)
  /-- Row 21 ARR_MISALIGNED: an array access that is not naturally aligned. -/
  | arrMisaligned (w : Bool) (sz : AccessSize) (addr wdata : Word)
  /-- Row 22 NOT_SELECTED: an address outside both spaces. -/
  | notSelected (w : Bool) (sz : AccessSize) (addr wdata : Word)
  | init (coreClockHz : Word)
  | unlock
  | lock
  | optUnlock
  | optLock
  | read (address length : Word)
  | write (address length : Word) (data : List Byte)
  | eraseSector (n : Word)
  | eraseAll
  | getProtection
  | setProtection (level sectorMask : Word)
  | waitUntilIdle
  | isStatusBitSet (pos : Word)
  /-- CMD_RESERVED, OP = 0x00. -/
  | cmdReserved00
  /-- CMD_RESERVED, OP = 0x0E or 0x0F: the row's mask is 0xFE and `low` is the bit it leaves. -/
  | cmdReserved0E (low : BitVec 1)
  /-- CMD_RESERVED, OP = 0x10 .. 0x1F. -/
  | cmdReserved10 (low : BitVec 4)
  /-- CMD_RESERVED, OP = 0x20 .. 0x3F. -/
  | cmdReserved20 (low : BitVec 5)
  /-- CMD_RESERVED, OP = 0x40 .. 0x7F. -/
  | cmdReserved40 (low : BitVec 6)
  /-- CMD_RESERVED, OP = 0x80 .. 0xFF. -/
  | cmdReserved80 (low : BitVec 7)
deriving DecidableEq, Repr

end Sys2Proof
end

