-- ==== Sys2Proof/WellFormed.lean ====
section
/-! DEFINITION. Which terms of `Instr` are decoded instructions (spec 30_encoding.md rules R113 to R117): the
addresses each row admits with the bases of the parameters, no data word on a read, and WRITE's data as long as its
`length`. The operand checks of rule R118 are no part of it: a command that fails them is a command, and its meaning
refuses it. -/

namespace Sys2Proof

/-- A read carries no data word ("ignored for reads", rule R110): the refused rows keep 0 there. -/
def readHasNoData (w : Bool) (wdata : Word) : Bool := w || wdata = 0

/-- What the decoder can give (rule R113), as a decidable check. -/
def WellFormed (p : Params) : Instr → Bool
  | .szRsvd w _ wdata => readHasNoData w wdata
  | .acrRd => true
  | .acrWr _ => true
  | .keyrRd => true
  | .keyrWr _ => true
  | .optkeyrRd => true
  | .optkeyrWr _ => true
  | .srRd => true
  | .srWr _ => true
  | .crRd => true
  | .crWr _ => true
  | .optcrRd => true
  | .optcrWr _ => true
  | .regOther w sz addr wdata =>
    Machine.inRegisterWindow p addr && !(sz = .word && Machine.isRegister p addr) && readHasNoData w wdata
  | .arrRd8 a => Machine.arrayAddressOk p .byte a
  | .arrRd16 a => Machine.arrayAddressOk p .half a
  | .arrRd32 a => Machine.arrayAddressOk p .word a
  | .arrWr8 a _ => Machine.arrayAddressOk p .byte a
  | .arrWr16 a _ => Machine.arrayAddressOk p .half a
  | .arrWr32 a _ => Machine.arrayAddressOk p .word a
  | .arrMisaligned w sz addr wdata =>
    Machine.inArray p addr && !Machine.aligned sz addr && readHasNoData w wdata
  | .notSelected w _ addr wdata =>
    !Machine.inArray p addr && !Machine.inRegisterWindow p addr && readHasNoData w wdata
  | .init _ => true
  | .unlock => true
  | .lock => true
  | .optUnlock => true
  | .optLock => true
  | .read _ _ => true
  | .write _ length data => data.length = length.toNat
  | .eraseSector _ => true
  | .eraseAll => true
  | .getProtection => true
  | .setProtection _ _ => true
  | .waitUntilIdle => true
  | .isStatusBitSet _ => true
  | .cmdReserved00 => true
  | .cmdReserved0E _ => true
  | .cmdReserved10 _ => true
  | .cmdReserved20 _ => true
  | .cmdReserved40 _ => true
  | .cmdReserved80 _ => true

end Sys2Proof
end

