-- ==== Sys2Proof/Decode.lean ====
section
/-! DEFINITION. The decoder of the two descriptor formats and the encoder (spec 30_encoding.md rules R110 to R118). -/

namespace Sys2Proof

/-- Why a descriptor is no instruction: a command whose operand list is not the one its row fixes (rule R116). A bus
descriptor always decodes ("the last row matches every K", rule R113). -/
inductive DecodeError where
  | operandList (op : BitVec 8)
deriving DecidableEq, Repr

/-! ## Format BUS -/

/-- W, bit 34 of the descriptor (rule R110). -/
def keyW (k : BusKey) : Bool := k.getLsbD 34
/-- SZ, bits 33:32. -/
def keySz (k : BusKey) : BitVec 2 := k.extractLsb' 32 2
/-- ADDR, bits 31:0. -/
def keyAddr (k : BusKey) : Word := k.extractLsb' 0 32

/-- SZ as a size (rule R111); 0b11 never comes here, row 1 of the table takes it. -/
def sizeOfBits (sz : BitVec 2) : AccessSize :=
  if sz = 0 then .byte else if sz = 1 then .half else .word

/-- SZ of a size (rule R111). -/
def bitsOfSize : AccessSize → BitVec 2
  | .byte => 0
  | .half => 1
  | .word => 2

/-- WDATA as a refused row keeps it: 0 for a read (rule R110). -/
def keptData (w : Bool) (wdata : Word) : Word := if w then wdata else 0

/-- One row of rule R113's table: its columns W, SZ and ADDR (none where the column says "any"), and the instruction
read from the descriptor and WDATA. -/
structure BusRow where
  w : Option Bool
  sz : Option (BitVec 2)
  addr : Word → Bool
  build : BusKey → Word → Instr

/-- A descriptor matches a row (rule R113). With the default bases the rows' tests are the table's `K & mask = match`
(Laws/Decode.lean, `rows_are_the_table`). -/
def rowAdmits (r : BusRow) (k : BusKey) : Bool :=
  r.w.all (fun w => w = keyW k) && r.sz.all (fun sz => sz = keySz k) && r.addr (keyAddr k)

/-- A word read of the register at `a` (rule R113). -/
def readRow (a : Word) (i : Instr) : BusRow := ⟨some false, some 2, fun x => x = a, fun _ _ => i⟩
/-- A word write of the register at `a`. -/
def writeRow (a : Word) (f : Word → Instr) : BusRow := ⟨some true, some 2, fun x => x = a, fun _ d => f d⟩

/-- Rows 1 to 13 of rule R113: the reserved size and the twelve register transactions. -/
def registerRows (p : Params) : List BusRow :=
  [⟨none, some 3, fun _ => true, fun k d => .szRsvd (keyW k) (keyAddr k) (keptData (keyW k) d)⟩,
   readRow (Machine.flashAcr p) .acrRd,
   writeRow (Machine.flashAcr p) .acrWr,
   readRow (Machine.flashKeyr p) .keyrRd,
   writeRow (Machine.flashKeyr p) .keyrWr,
   readRow (Machine.flashOptkeyr p) .optkeyrRd,
   writeRow (Machine.flashOptkeyr p) .optkeyrWr,
   readRow (Machine.flashSr p) .srRd,
   writeRow (Machine.flashSr p) .srWr,
   readRow (Machine.flashCr p) .crRd,
   writeRow (Machine.flashCr p) .crWr,
   readRow (Machine.flashOptcr p) .optcrRd,
   writeRow (Machine.flashOptcr p) .optcrWr]

/-- Rows 14 to 21 of rule R113: the rest of the register window and the array. A write keeps `WDATA[8n-1:0]`, its
value's own bits (rule R112). -/
def arrayRows (p : Params) : List BusRow :=
  [⟨none, none, Machine.inRegisterWindow p,
      fun k d => .regOther (keyW k) (sizeOfBits (keySz k)) (keyAddr k) (keptData (keyW k) d)⟩,
   ⟨some false, some 0, Machine.arrayAddressOk p .byte, fun k _ => .arrRd8 (keyAddr k)⟩,
   ⟨some false, some 1, Machine.arrayAddressOk p .half, fun k _ => .arrRd16 (keyAddr k)⟩,
   ⟨some false, some 2, Machine.arrayAddressOk p .word, fun k _ => .arrRd32 (keyAddr k)⟩,
   ⟨some true, some 0, Machine.arrayAddressOk p .byte, fun k d => .arrWr8 (keyAddr k) (d.setWidth 8)⟩,
   ⟨some true, some 1, Machine.arrayAddressOk p .half, fun k d => .arrWr16 (keyAddr k) (d.setWidth 16)⟩,
   ⟨some true, some 2, Machine.arrayAddressOk p .word, fun k d => .arrWr32 (keyAddr k) d⟩,
   ⟨none, none, Machine.inArray p,
      fun k d => .arrMisaligned (keyW k) (sizeOfBits (keySz k)) (keyAddr k) (keptData (keyW k) d)⟩]

/-- Row 22 of rule R113, NOT_SELECTED, which matches every descriptor. -/
def notSelectedRow (k : BusKey) (d : Word) : Instr :=
  .notSelected (keyW k) (sizeOfBits (keySz k)) (keyAddr k) (keptData (keyW k) d)

/-- The first row that matches, in order (rule R113); `other` after the last. -/
def firstRow (k : BusKey) (d : Word) (other : Instr) : List BusRow → Instr
  | [] => other
  | r :: rows => if rowAdmits r k then r.build k d else firstRow k d other rows

/-- `decode(K)` of rule R113: total. -/
def decodeBus (p : Params) (k : BusKey) (wdata : Word) : Instr :=
  firstRow k wdata (notSelectedRow k wdata) (registerRows p ++ arrayRows p)

/-! ## Format CMD -/

/-- The reserved rows of the opcode table, OP = 0x00 and 0x0E .. 0xFF (rule R118). No operand list is fixed for
them, so any is passed over (log entry 11). -/
def decodeReserved (op : BitVec 8) : Except DecodeError Instr :=
  if op = 0x00 then .ok .cmdReserved00
  else if op &&& 0xFE = 0x0E then .ok (.cmdReserved0E (op.setWidth 1))
  else if op &&& 0xF0 = 0x10 then .ok (.cmdReserved10 (op.setWidth 4))
  else if op &&& 0xE0 = 0x20 then .ok (.cmdReserved20 (op.setWidth 5))
  else if op &&& 0xC0 = 0x40 then .ok (.cmdReserved40 (op.setWidth 6))
  else if op &&& 0x80 = 0x80 then .ok (.cmdReserved80 (op.setWidth 7))
  else .error (.operandList op)

/-- A command row with no operand (rule R117). -/
def decodeNoOperand (op : BitVec 8) (i : Instr) : List Operand → Except DecodeError Instr
  | [] => .ok i
  | _ => .error (.operandList op)

/-- A command row with one `u32` operand. -/
def decodeOneOperand (op : BitVec 8) (f : Word → Instr) : List Operand → Except DecodeError Instr
  | [.u32 x] => .ok (f x)
  | _ => .error (.operandList op)

/-- A command row with two `u32` operands. -/
def decodeTwoOperands (op : BitVec 8) (f : Word → Word → Instr) : List Operand → Except DecodeError Instr
  | [.u32 x, .u32 y] => .ok (f x y)
  | _ => .error (.operandList op)

/-- WRITE's operands: address, length and `length` bytes of data (rules R117, R120). -/
def decodeWriteOperands (op : BitVec 8) : List Operand → Except DecodeError Instr
  | [.u32 a, .u32 n, .bytes d] => if d.length = n.toNat then .ok (.write a n d) else .error (.operandList op)
  | _ => .error (.operandList op)

/-- The command rows of rule R117. -/
def decodeCmd (op : BitVec 8) (xs : List Operand) : Except DecodeError Instr :=
  if op = 0x01 then decodeOneOperand op .init xs
  else if op = 0x02 then decodeNoOperand op .unlock xs
  else if op = 0x03 then decodeNoOperand op .lock xs
  else if op = 0x04 then decodeNoOperand op .optUnlock xs
  else if op = 0x05 then decodeNoOperand op .optLock xs
  else if op = 0x06 then decodeTwoOperands op .read xs
  else if op = 0x07 then decodeWriteOperands op xs
  else if op = 0x08 then decodeOneOperand op .eraseSector xs
  else if op = 0x09 then decodeNoOperand op .eraseAll xs
  else if op = 0x0A then decodeNoOperand op .getProtection xs
  else if op = 0x0B then decodeTwoOperands op .setProtection xs
  else if op = 0x0C then decodeNoOperand op .waitUntilIdle xs
  else if op = 0x0D then decodeOneOperand op .isStatusBitSet xs
  else decodeReserved op

/-- The decoder: total on every descriptor. The parameters give it the bases of the two address spaces. -/
def decode (p : Params) : Descriptor → Except DecodeError Instr
  | .bus k d => .ok (decodeBus p k d)
  | .cmd op xs => decodeCmd op xs

/-! ## The encoder -/

/-- `RD32 a` (rule R121). -/
def encodeRead (sz : AccessSize) (a : Word) : Descriptor := .bus (Machine.busKey false (bitsOfSize sz) a) 0
/-- `WR32 a, v` and the narrower writes (rule R121). -/
def encodeWrite (sz : AccessSize) (a v : Word) : Descriptor := .bus (Machine.busKey true (bitsOfSize sz) a) v

/-- The descriptor of an instruction (rules R113, R117, R121). -/
def encode (p : Params) : Instr → Descriptor
  | .szRsvd w addr wdata => .bus (Machine.busKey w 3 addr) wdata
  | .acrRd => encodeRead .word (Machine.flashAcr p)
  | .acrWr v => encodeWrite .word (Machine.flashAcr p) v
  | .keyrRd => encodeRead .word (Machine.flashKeyr p)
  | .keyrWr v => encodeWrite .word (Machine.flashKeyr p) v
  | .optkeyrRd => encodeRead .word (Machine.flashOptkeyr p)
  | .optkeyrWr v => encodeWrite .word (Machine.flashOptkeyr p) v
  | .srRd => encodeRead .word (Machine.flashSr p)
  | .srWr v => encodeWrite .word (Machine.flashSr p) v
  | .crRd => encodeRead .word (Machine.flashCr p)
  | .crWr v => encodeWrite .word (Machine.flashCr p) v
  | .optcrRd => encodeRead .word (Machine.flashOptcr p)
  | .optcrWr v => encodeWrite .word (Machine.flashOptcr p) v
  | .regOther w sz addr wdata => .bus (Machine.busKey w (bitsOfSize sz) addr) wdata
  | .arrRd8 a => encodeRead .byte a
  | .arrRd16 a => encodeRead .half a
  | .arrRd32 a => encodeRead .word a
  | .arrWr8 a v => encodeWrite .byte a (v.setWidth 32)
  | .arrWr16 a v => encodeWrite .half a (v.setWidth 32)
  | .arrWr32 a v => encodeWrite .word a v
  | .arrMisaligned w sz addr wdata => .bus (Machine.busKey w (bitsOfSize sz) addr) wdata
  | .notSelected w sz addr wdata => .bus (Machine.busKey w (bitsOfSize sz) addr) wdata
  | .init f => .cmd 0x01 [.u32 f]
  | .unlock => .cmd 0x02 []
  | .lock => .cmd 0x03 []
  | .optUnlock => .cmd 0x04 []
  | .optLock => .cmd 0x05 []
  | .read a n => .cmd 0x06 [.u32 a, .u32 n]
  | .write a n d => .cmd 0x07 [.u32 a, .u32 n, .bytes d]
  | .eraseSector n => .cmd 0x08 [.u32 n]
  | .eraseAll => .cmd 0x09 []
  | .getProtection => .cmd 0x0A []
  | .setProtection l m => .cmd 0x0B [.u32 l, .u32 m]
  | .waitUntilIdle => .cmd 0x0C []
  | .isStatusBitSet p => .cmd 0x0D [.u32 p]
  | .cmdReserved00 => .cmd 0x00 []
  | .cmdReserved0E low => .cmd (0x0E ||| low.setWidth 8) []
  | .cmdReserved10 low => .cmd (0x10 ||| low.setWidth 8) []
  | .cmdReserved20 low => .cmd (0x20 ||| low.setWidth 8) []
  | .cmdReserved40 low => .cmd (0x40 ||| low.setWidth 8) []
  | .cmdReserved80 low => .cmd (0x80 ||| low.setWidth 8) []

/-! ## The opcode table's own numbering -/

/-- The operands of a command row, each zero (`data` of zero bytes): what the table gives no bits for. -/
def zeroOperands (op : BitVec 8) : List Operand :=
  if op = 0x01 then [.u32 0]
  else if op = 0x06 then [.u32 0, .u32 0]
  else if op = 0x07 then [.u32 0, .u32 0, .bytes []]
  else if op = 0x08 then [.u32 0]
  else if op = 0x0B then [.u32 0, .u32 0]
  else if op = 0x0D then [.u32 0]
  else []

/-- The descriptor whose bits are `w` as spec/opcode_table.json numbers them: a CMD row has 8 bits, its OP; a BUS
row has the 35 bits of `K`, in whole bytes, and WDATA after them. -/
def ofTableWord (nbits w : Nat) : Descriptor :=
  if nbits = 8 then .cmd (BitVec.ofNat 8 w) (zeroOperands (BitVec.ofNat 8 w))
  else .bus (BitVec.ofNat 35 w) (BitVec.ofNat 32 (w / 2 ^ 40))

/-- What the decoder reads from the bits `w` of a table row of `nbits` bits, with the bases that the table has: the
default ones. -/
def decodeTableWord (nbits w : Nat) : Option Instr :=
  match decode Params.default (ofTableWord nbits w) with
  | .ok i => some i
  | .error _ => none

end Sys2Proof
end

