-- ==== Sys2Proof/Machine/State.lean ====
section
/-! DEFINITION. The state of the Flash interface (spec 10_state.md rule R30), the host's position (rules R51, R54),
the inputs still to come, and the reasons a step can stop. Everything is plain data. -/

namespace Sys2Proof.Machine

/-! ## The block's own state -/

/-- The stored fields of ACR (rule R34). LATENCY lies in the low `LATENCY_WIDTH` bits of the room 7:0. -/
structure AcrFields where
  latency : BitVec 8
  prften : Bool
  icen : Bool
  dcen : Bool
  icrst : Bool
  dcrst : Bool
deriving DecidableEq, Repr

/-- The stored flags of SR (rule R37). BSY is not stored: it is a function of `pend` (rule R45). -/
structure SrFlags where
  eop : Bool
  operr : Bool
  wrperr : Bool
  pgaerr : Bool
  pgperr : Bool
  pgserr : Bool
  rderr : Bool
deriving DecidableEq, Repr

/-- The stored fields of CR (rule R38). LOCK and STRT are functions of `ks` and `pend`. SNB lies in the
low `SNB_WIDTH` bits of the room 7:3, PSIZE in the low `PSIZE_WIDTH` bits of the room 15:8. -/
structure CrFields where
  pg : Bool
  ser : Bool
  mer : Bool
  snb : BitVec 5
  psize : BitVec 8
  eopie : Bool
  errie : Bool
deriving DecidableEq, Repr

/-- The option fields: the stored fields of OPTCR (rule R40), the option bytes `OB` (rule R44) and the values an
option commit carries (rule R45). nWRP lies in the low `WRP_WIDTH` bits of the room 23:16. -/
structure OptFields where
  nwrp : BitVec 8
  sprmod : Bool
  rdp : BitVec 8
  borLev : BitVec 2
  wdgSw : Bool
  nrstStop : Bool
  nrstStdby : Bool
deriving DecidableEq, Repr

/-- A key-sequence state machine, `KS` or `OKS` (rules R42, R43). -/
inductive KeyState where
  | wait1
  | wait2
  | opened
  | lockout
deriving DecidableEq, Repr

/-- The pending operation (rule R45). -/
inductive Pending where
  | none
  | program (a : Word) (sz : AccessSize) (v : Word)
  | sectorErase (s : BitVec 5)
  | massErase
  | optCommit (f : OptFields)
deriving DecidableEq, Repr

/-- A protection level (rules R49, R119). -/
inductive Level where
  | none
  | write
  | readWrite
deriving DecidableEq, Repr

/-- The array's bytes, sparse: the addresses whose byte is not the erased value, strictly rising (log entry 1). -/
abbrev Memory := List Host.Cell

/-- One completed program or erase as `Stale` remembers it (rules R53, R206): the bytes `base .. base+size-1` held
`old` before it (log entry 8). -/
structure StaleRange where
  base : Nat
  size : Nat
  old : Memory
deriving DecidableEq, Repr

/-! ## The host -/

/-- What a completed command returned (rule R117). -/
inductive CmdResult where
  /-- The row's result is "none"; also the value before any command has completed. -/
  | nothing
  /-- READ: `Ok(bytes)`. -/
  | ok (bytes : List Byte)
  /-- READ: `OutOfRange`. -/
  | outOfRange
  /-- GET_PROTECTION: the levels of the sectors in order, in the codes of rule R119. -/
  | levels (codes : List Word)
  /-- IS_STATUS_BIT_SET. -/
  | flag (b : Bool)
deriving DecidableEq, Repr

/-- The host's position inside a command (rule R54): the command with its operands, the index of its next bus
transaction, and its local values (the word last read, READ's buffer). -/
structure Position where
  cmd : Instr
  idx : Nat
  t : Word
  buf : List Byte
deriving DecidableEq, Repr

/-- The six registers by name (rule R33). -/
inductive FlashReg where
  | acr
  | keyr
  | optkeyr
  | sr
  | cr
  | optcr
deriving DecidableEq, Repr

/-- One bus transaction of a command's expansion, the pseudo-instructions of rule R122 taken apart. -/
inductive Micro where
  /-- `t <- RD32 r` -/
  | rd (r : FlashReg)
  /-- `WR32 r, v` -/
  | wr (r : FlashReg) (v : Word)
  /-- `WR32 r, (t & ~clear) | set`: the second half of SET32, CLR32 and MOD32. -/
  | wrMod (r : FlashReg) (clear set : Word)
  /-- `L: t <- RD32 r; if (t & m) != 0 goto L` -/
  | poll (r : FlashReg) (m : Word)
  /-- `buf[j] <- (RD8 a)[7:0]` -/
  | rdByte (a : Word)
  /-- `WR32 a, [d3, d2, d1, d0]`: a word of WRITE, its bytes the first four of `data`; a byte past their end is
  drawn (rule R239). -/
  | wrData (a : Word) (data : List Byte)
deriving DecidableEq, Repr

/-- Whose step it is: the three agents of rule R4. -/
inductive Turn where
  | host
  | engine
  | reset
deriving DecidableEq, Repr

/-! ## The whole state -/

/-- The machine: the parameters (rule R5), the tuple of rule R30, and the host. -/
structure State where
  /-- The parameters of rule R5. No step writes them (rule R321). -/
  params : Params
  /-- ACR's stored fields (rule R34). -/
  acr : AcrFields
  /-- SR's stored flags (rule R37). -/
  sr : SrFlags
  /-- CR's stored fields (rule R38). -/
  cr : CrFields
  /-- OPTCR's stored fields (rule R40). -/
  optcr : OptFields
  /-- `KS` (rule R42). -/
  ks : KeyState
  /-- `OKS` (rule R43). -/
  oks : KeyState
  /-- `pend` (rule R45). -/
  pend : Pending
  /-- `OB` (rule R44): non-volatile. -/
  ob : OptFields
  /-- `Arr` (rule R52): non-volatile. -/
  arr : Memory
  /-- `Stale` (rule R53). -/
  stale : List StaleRange
  /-- The fault mark: the descriptor of the transaction that raised BusError (rule R51). -/
  fault : Option BusKey
  /-- The refusal mark (rule R51). -/
  refused : Bool
  /-- The host's command position (rule R54); none between requests. -/
  run : Option Position
  /-- The host's transaction in issue holds (rule R8, log entry 9). -/
  held : Bool
  /-- RDATA of the last read that completed (rule R110, log entry 9). -/
  rdata : Word
  /-- The result of the last command that completed (rule R117, log entry 9). -/
  result : CmdResult
  /-- The requests the host has still to issue, the one in issue first (rules R92, R230). Input (log
  entry 4). -/
  program : List Descriptor
  /-- Whose steps come next (rule R92: "in any order the schedule chooses"). Input (log entry 5). -/
  sched : List Turn
  /-- How many free values have been drawn (rule R8). The model's own (log entry 6). -/
  draws : Nat
deriving DecidableEq, Repr

/-- Why a step can stop for good. -/
inductive Fault where
  /-- Raised by `hostTurn`, never by a meaning: it is the host's turn and an earlier transaction of the run raised
  BusError with descriptor `k`; "The host takes no further step after a faulting transaction" (rule R287). Safe. -/
  | busError (k : BusKey)
deriving DecidableEq, Repr

/-- Why a step can be refused. -/
inductive Refusal where
  /-- An instruction with no meaning yet: no arm of `exec` answers it in this model. Safe. -/
  | notModelled (mnemonic : String)
  /-- Raised by `hostTurn`, never by a meaning: it is the host's turn and the refusal mark is set (rule R230: the
  host takes no further step). Safe. -/
  | runRefused
  /-- Raised by `hostTurn`: the host's next request is no descriptor, its operand list is not the one its opcode's
  row fixes (rule R116). Safe. -/
  | malformedCommand (op : BitVec 8)
deriving DecidableEq, Repr

/-! ## Launch and reset -/

/-- The factory option bytes (rule R44). -/
def OptFields.factory : OptFields where
  nwrp := 0xFF
  sprmod := false
  rdp := 0xAA
  borLev := 3
  wdgSw := true
  nrstStop := true
  nrstStdby := true

/-- ACR after reset (rule R320). -/
def AcrFields.reset : AcrFields := ⟨0, false, false, false, false, false⟩
/-- SR after reset (rule R320). -/
def SrFlags.reset : SrFlags := ⟨false, false, false, false, false, false, false⟩
/-- CR after reset (rule R320). -/
def CrFields.reset : CrFields := ⟨false, false, false, 0, 0, false, false⟩

/-- The launch state of rule R323 for the parameters `p`, option bytes `OB0` and array contents `ARR0`: the state
after rule R320 with the marks clear and no command in progress. The host has nothing to issue yet. -/
def State.launch (p : Params) (ob0 : OptFields) (arr0 : Memory) : State where
  params := p
  acr := AcrFields.reset
  sr := SrFlags.reset
  cr := CrFields.reset
  optcr := ob0
  ks := .wait1
  oks := .wait1
  pend := .none
  ob := ob0
  arr := arr0
  stale := []
  fault := none
  refused := false
  run := none
  held := false
  rdata := 0
  result := .nothing
  program := []
  sched := []
  draws := 0

/-- The machine right after reset: the launch state with the default parameters, the factory option bytes and an
array with nothing listed, so every byte reads as erased (log entries 1 to 3). -/
def State.reset : State := State.launch Params.default OptFields.factory []

/-! ## Updates, one for each field -/

def State.withAcr (s : State) (x : AcrFields) : State := { s with acr := x }
def State.withSr (s : State) (x : SrFlags) : State := { s with sr := x }
def State.withCr (s : State) (x : CrFields) : State := { s with cr := x }
def State.withOptcr (s : State) (x : OptFields) : State := { s with optcr := x }
def State.withKs (s : State) (x : KeyState) : State := { s with ks := x }
def State.withOks (s : State) (x : KeyState) : State := { s with oks := x }
def State.withPend (s : State) (x : Pending) : State := { s with pend := x }
def State.withOb (s : State) (x : OptFields) : State := { s with ob := x }
def State.withArr (s : State) (x : Memory) : State := { s with arr := x }
def State.withStale (s : State) (x : List StaleRange) : State := { s with stale := x }
def State.withFault (s : State) (x : Option BusKey) : State := { s with fault := x }
def State.withRefused (s : State) (x : Bool) : State := { s with refused := x }
def State.withRun (s : State) (x : Option Position) : State := { s with run := x }
def State.withHeld (s : State) (x : Bool) : State := { s with held := x }
def State.withRdata (s : State) (x : Word) : State := { s with rdata := x }
def State.withResult (s : State) (x : CmdResult) : State := { s with result := x }
def State.withProgram (s : State) (x : List Descriptor) : State := { s with program := x }
def State.withSched (s : State) (x : List Turn) : State := { s with sched := x }
def State.withDraws (s : State) (x : Nat) : State := { s with draws := x }

end Sys2Proof.Machine
end

