-- ==== Sys2Proof/Machine/Flags.lean ====
section
/-! DEFINITION. The SR flags: how each is set, what they block and how they clear, and the interrupt output (spec
60_exceptions.md rules R282 to R284, 40_register_access.md R148, 42_operation_engine.md R205). -/

namespace Sys2Proof.Machine

/-- `sticky()` (rule R282): EOP, OPERR and RDERR are not among them. -/
def sticky (f : SrFlags) : Bool := f.wrperr || f.pgaerr || f.pgperr || f.pgserr

/-- The error set `E` of a rejected request (rule R283). -/
structure Errors where
  wrp : Bool
  pgp : Bool
  pgs : Bool
deriving DecidableEq, Repr

/-- `E ≠ ∅`. -/
def Errors.any (e : Errors) : Bool := e.wrp || e.pgp || e.pgs

/-- The flags after `reject(E)` (rule R283): every flag of `E`, and OPERR while CR.ERRIE = 1. -/
def rejectFlags (f : SrFlags) (errie : Bool) (e : Errors) : SrFlags :=
  { f with
    wrperr := f.wrperr || e.wrp
    pgperr := f.pgperr || e.pgp
    pgserr := f.pgserr || e.pgs
    operr := f.operr || errie }

/-- `reject(E)` (rule R283): no operation starts, no bus error. -/
def reject (e : Errors) (s : State) : State := s.withSr (rejectFlags s.sr s.cr.errie e)

/-- The flags after `eop()` (rule R205). -/
def eopFlags (f : SrFlags) (eopie : Bool) : SrFlags := { f with eop := f.eop || eopie }

/-- The flags after a write of `v` to SR (rule R148): a 1 clears. -/
def clearFlags (f : SrFlags) (v : Word) : SrFlags where
  eop := f.eop && !v.getLsbD 0
  operr := f.operr && !v.getLsbD 1
  wrperr := f.wrperr && !v.getLsbD 4
  pgaerr := f.pgaerr && !v.getLsbD 5
  pgperr := f.pgperr && !v.getLsbD 6
  pgserr := f.pgserr && !v.getLsbD 7
  rderr := f.rderr && !v.getLsbD 8

/-- RDERR set by a protected read (rule R189). -/
def setRderr (f : SrFlags) : SrFlags := { f with rderr := true }

/-- `IRQ` (rule R284): a level, evaluated in every state; no rule reads it. -/
def irq (s : State) : Bool :=
  (s.sr.eop && s.cr.eopie) || (s.cr.errie && (s.sr.operr || s.sr.rderr))

end Sys2Proof.Machine
end

