-- ==== Sys2Proof/Machine/Memory.lean ====
section
/-! DEFINITION. The array `Arr` (spec 10_state.md rule R52) and the stale-cache candidates `Stale` (rule R53) as
plain data, and the operations over them. -/

namespace Sys2Proof.Machine

/-- What an address that is not listed reads as: the default of `ERASED_BYTE` (log entry 1). -/
def unlistedByte : Byte := 0xFF

/-- `Arr[a]` (rule R8). -/
def readByte : Memory → Nat → Byte
  | [], _ => unlistedByte
  | (k, b) :: m, a => if k = a then b else readByte m a

/-- The canonical form: addresses strictly rising, every listed address in the array of the parameters, no entry that
an unlisted address would read the same. -/
abbrev Memory.wf (m : Memory) (p : Params) : Prop :=
  m.Pairwise (fun x y => x.1 < y.1) ∧ ∀ c ∈ m, c.2 ≠ unlistedByte ∧ p.arrayBase ≤ c.1 ∧ c.1 ≤ p.arrayLast

/-- The cells of the addresses `lo .. lo+n-1`. -/
def restrict (m : Memory) (lo n : Nat) : Memory := m.filter (fun c => lo ≤ c.1 && c.1 < lo + n)

/-- Every byte of `lo .. lo+n-1` set to what an unlisted address reads as. -/
def eraseRange (m : Memory) (lo n : Nat) : Memory := m.filter (fun c => c.1 < lo || lo + n ≤ c.1)

/-- The cells that hold `f 0 .. f (n-1)` from address `lo` on, those an unlisted address reads left out. -/
def cellsOf (lo n : Nat) (f : Nat → Byte) : Memory :=
  ((List.range n).map (fun j => (lo + j, f j))).filter (fun c => c.2 ≠ unlistedByte)

/-- The bytes `lo .. lo+n-1` set to `f 0 .. f (n-1)`. -/
def setRange (m : Memory) (lo n : Nat) (f : Nat → Byte) : Memory :=
  m.filter (fun c => c.1 < lo) ++ cellsOf lo n f ++ m.filter (fun c => lo + n ≤ c.1)

/-- Every byte of `lo .. lo+n-1` set to `b`. -/
def fillRange (m : Memory) (lo n : Nat) (b : Byte) : Memory :=
  if b = unlistedByte then eraseRange m lo n else setRange m lo n (fun _ => b)

/-- `ArrGet` as bytes, lowest address first (rule R8). -/
def readBytes (m : Memory) (a n : Nat) : List Byte := (List.range n).map (fun j => readByte m (a + j))

/-- `Stale[a]`: the values `a` held before the completions remembered (rule R53). -/
def staleAt (st : List StaleRange) (a : Nat) : List Byte :=
  st.filterMap (fun r => if r.base ≤ a && a < r.base + r.size then some (readByte r.old a) else none)

/-- `stale_update(S, old)` for `S = lo .. lo+n-1` and `old` the array before the operation (rule R206); nothing for
an empty `S`. -/
def staleUpdate (st : List StaleRange) (m : Memory) (lo n : Nat) : List StaleRange :=
  if n = 0 then st else ⟨lo, n, restrict m lo n⟩ :: st

end Sys2Proof.Machine
end

