-- ==== Sys2Proof/Machine/Operands.lean ====
section
/-! DEFINITION. The fields of the bus words: what a register write stores, what a register read returns, the bytes
of an array value, and the operands of the commands (spec 10_state.md rules R34 to R41, R48, R56; 30_encoding.md
R111, R112; 43_sequencer_commands.md R231, R237 to R245). -/

namespace Sys2Proof.Machine

/-! ## Derived bits -/

/-- SR.BSY: an operation is pending (rule R45). -/
def busy (s : State) : Bool :=
  match s.pend with
  | .none => false
  | _ => true

/-- CR.STRT: an erase is pending (rule R45). -/
def strtBit (s : State) : Bool :=
  match s.pend with
  | .sectorErase _ => true
  | .massErase => true
  | _ => false

/-- OPTCR.OPTSTRT: an option commit is pending (rule R45). -/
def optstrtBit (s : State) : Bool :=
  match s.pend with
  | .optCommit _ => true
  | _ => false

/-- A key-sequence machine is locked: LOCK and OPTLOCK read 1 (rules R42, R43). -/
def isLocked (k : KeyState) : Bool := k ≠ .opened

/-! ## What a register reads (rule R56) -/

/-- One bit as a word part. -/
def bit (b : Bool) : BitVec 1 := BitVec.ofBool b

/-- `regval(ACR)`. -/
def regvalAcr (s : State) : Word :=
  0#19 ++ bit s.acr.dcrst ++ bit s.acr.icrst ++ bit s.acr.dcen ++ bit s.acr.icen ++ bit s.acr.prften ++
    s.acr.latency

/-- `regval(SR)`. -/
def regvalSr (s : State) : Word :=
  0#15 ++ bit (busy s) ++ 0#7 ++ bit s.sr.rderr ++ bit s.sr.pgserr ++ bit s.sr.pgperr ++ bit s.sr.pgaerr ++
    bit s.sr.wrperr ++ 0#2 ++ bit s.sr.operr ++ bit s.sr.eop

/-- `regval(CR)`. -/
def regvalCr (s : State) : Word :=
  bit (isLocked s.ks) ++ 0#5 ++ bit s.cr.errie ++ bit s.cr.eopie ++ 0#7 ++ bit (strtBit s) ++ s.cr.psize ++
    s.cr.snb ++ bit s.cr.mer ++ bit s.cr.ser ++ bit s.cr.pg

/-- `regval(OPTCR)`: the reserved bits read the parameter `OPTCR_RSVD` (rule R41). -/
def regvalOptcr (s : State) : Word :=
  bit s.optcr.sprmod ++ s.params.optcrRsvd.extractLsb' 24 7 ++ s.optcr.nwrp ++ s.optcr.rdp ++ bit s.optcr.nrstStdby ++
    bit s.optcr.nrstStop ++ bit s.optcr.wdgSw ++ s.params.optcrRsvd.extractLsb' 4 1 ++ s.optcr.borLev ++
    bit (optstrtBit s) ++ bit (isLocked s.oks)

/-! ## What a register write stores -/

/-- The ACR fields of a written word (rule R142). A field keeps the bits of its width (rule R5), and a write to the
rest of its room, reserved bits, has no effect (rule R41). -/
def acrOfWord (p : Params) (v : Word) : AcrFields where
  latency := (v.extractLsb' 0 p.latencyWidth).setWidth 8
  prften := v.getLsbD 8
  icen := v.getLsbD 9
  dcen := v.getLsbD 10
  icrst := v.getLsbD 11
  dcrst := v.getLsbD 12

/-- `store_fields(v)` of rule R150. -/
def crOfWord (p : Params) (v : Word) : CrFields where
  pg := v.getLsbD 0
  ser := v.getLsbD 1
  mer := v.getLsbD 2
  snb := (v.extractLsb' 3 p.snbWidth).setWidth 5
  psize := (v.extractLsb' 8 p.psizeWidth).setWidth 8
  eopie := v.getLsbD 24
  errie := v.getLsbD 25

/-- The OPTCR fields of a written word (rule R153). -/
def optOfWord (p : Params) (v : Word) : OptFields where
  nwrp := (v.extractLsb' 16 p.wrpWidth).setWidth 8
  sprmod := v.getLsbD 31
  rdp := v.extractLsb' 8 8
  borLev := v.extractLsb' 2 2
  wdgSw := v.getLsbD 5
  nrstStop := v.getLsbD 6
  nrstStdby := v.getLsbD 7

/-! ## Modes, sizes and array values -/

/-- `mode(CR)` (rule R48). -/
inductive Mode where
  | idle
  | program
  | sectorErase
  | massErase
  | invalid
deriving DecidableEq, Repr

/-- `mode(CR)` read off (PG, SER, MER) (rule R48). -/
def crMode (c : CrFields) : Mode :=
  match c.pg, c.ser, c.mer with
  | false, false, false => .idle
  | true, false, false => .program
  | false, true, false => .sectorErase
  | false, false, true => .massErase
  | _, _, _ => .invalid

/-- `psize_bytes(p)` (rule R39). -/
def psizeBytes (p : BitVec 8) : Nat := 2 ^ p.toNat

/-- Byte `j` of a value, byte 0 the least significant (rule R83). -/
def byteOf (v : Word) (j : Nat) : Byte := v.extractLsb' (8 * j) 8

/-- The little-endian word of some bytes, the first the least significant (rules R83, R84). -/
def leWord : List Byte → Word
  | [] => 0
  | b :: bs => b.setWidth 32 ||| (leWord bs <<< 8)

/-- The low `8n` bits of a word, zero-extended (rule R112). -/
def lowBytes : AccessSize → Word → Word
  | .byte, v => (v.setWidth 8).setWidth 32
  | .half, v => (v.setWidth 16).setWidth 32
  | .word, v => v

/-! ## Command operands -/

/-- The code of a level (rule R119). -/
def levelCode : Level → Word
  | .none => 0
  | .write => 1
  | .readWrite => 2

/-- The level of a code (rule R119); none for a value that encodes no level. -/
def levelOfCode (c : Word) : Option Level :=
  if c = 0 then some .none else if c = 1 then some .write else if c = 2 then some .readWrite else none

/-- `ws_calc(f)` with the step `WS_STEP_MHZ`, masked to the field of `LATENCY_WIDTH` bits (rule R231). -/
def wsCalc (p : Params) (f : Nat) : Nat :=
  let mhz := f / 1000000
  let raw := if mhz = 0 then 0 else (mhz - 1) / p.wsStepMhz
  raw % 2 ^ p.latencyWidth

/-- `read_ok(address, length)` on unbounded naturals, with the bound `END_ADDR` (rule R237). -/
def readOk (p : Params) (address length : Word) : Bool :=
  p.arrayBase ≤ address.toNat && address.toNat ≤ p.endAddr.toNat && address.toNat + length.toNat ≤ p.endAddr.toNat

/-- How many words WRITE issues (rule R239). -/
def writeWords (length : Word) : Nat := (length.toNat + 3) / 4

/-- WRITE's operand check (rules R118, R239); its data has `length` bytes (rule R120, log entry 13). -/
def writeOk (p : Params) (address length : Word) (data : List Byte) : Bool :=
  address.toNat % 4 = 0 && data.length = length.toNat &&
    (length = 0 || (p.arrayBase ≤ address.toNat && address.toNat + 4 * writeWords length - 1 ≤ p.arrayLast))

/-- ERASE_SECTOR's operand check (rule R240): a number that SNB holds, at most 15 by default. -/
def eraseSectorOk (p : Params) (n : Word) : Bool := n.toNat < 2 ^ p.snbWidth

/-- SET_PROTECTION's operand check (rule R243): a level, and a mask that nWRP holds, at most 0xFF by default. -/
def setProtectionOk (p : Params) (level mask : Word) : Bool :=
  (levelOfCode level).isSome && mask.toNat < 2 ^ p.wrpWidth

/-- IS_STATUS_BIT_SET's operand check (rule R245). -/
def statusBitOk (pos : Word) : Bool := pos.toNat ≤ 31

end Sys2Proof.Machine
end

