-- ==== Sys2Proof/Machine/Ops.lean ====
section
/-! DEFINITION. The shared operations: outcomes of a transaction, BusError, the marks, protection, timing, array
values, and the requests that start an operation (spec 60_exceptions.md rules R280 to R283, R287; 10_state.md R49 to
R51; 41_array_access.md R180, R184, R188 to R190; 40_register_access.md R144, R146, R151, R154). -/

namespace Sys2Proof.Machine

/-! ## Outcomes of a transaction -/

/-- A bus transaction as an operation on the state: none when it holds, that is, has no step here (rules R8, R280). -/
abbrev Txn := State → Option State

/-- A transaction issued by the host: it completes, or it holds and nothing but the host's `held` note changes
(rules R140, R280). -/
def issue (t : Txn) (s : State) : Host.Outcome State Fault Refusal :=
  match t s with
  | some s' => .next (s'.withHeld false)
  | none => .next (s.withHeld true)

/-- `hold` while an operation is pending (rules R150, R153, R181 to R187), else go on. -/
def unlessBusy (f : State → State) : Txn := fun s => if busy s then none else some (f s)

/-! ## Exceptions and marks -/

/-- `raise BusError(K)`, the block's one exception (rules R281, R287): it is delivered to the host as the response
of its transaction and recorded as the fault mark. There is no vector, nothing is saved, and there is no return from
it (rule R288); the key machine's `Lockout` is written by the rule that raises it. -/
def raiseBusError (k : BusKey) (s : State) : State := s.withFault (some k)

/-- `refuse(_)` (rule R51): the refusal mark, and no other state. -/
def refuse (s : State) : State := s.withRefused true

/-- One of the host's marks is set: the host takes no further step (rules R51, R230, R287). -/
def marked (s : State) : Bool := s.fault.isSome || s.refused

/-! ## Key sequences -/

/-- A candidate is a key: the `KEY_WIDTH` bits of a key are equal (rules R35, R36). -/
def sameKey (width : Nat) (v k : Word) : Bool := v.setWidth width = k.setWidth width

/-- The key machine's transition on candidate key `v` (rule R144): none when the write is no expected key. -/
def keyNext (width : Nat) (k1 k2 v : Word) : KeyState → Option KeyState
  | .wait1 => if sameKey width v k1 then some .wait2 else none
  | .wait2 => if sameKey width v k2 then some .opened else none
  | .opened => none
  | .lockout => none

/-- The descriptor of `WR32 FLASH_KEYR` (rule R281, cause 1). -/
def keyrKey (p : Params) : BusKey := busKey true 2 (flashKeyr p)
/-- The descriptor of `WR32 FLASH_OPTKEYR` (rule R281, cause 2). -/
def optkeyrKey (p : Params) : BusKey := busKey true 2 (flashOptkeyr p)

/-- A KEYR write (rule R144). -/
def presentKey (v : Word) (s : State) : State :=
  match keyNext s.params.keyWidth s.params.key1 s.params.key2 v s.ks with
  | some k => s.withKs k
  | none => raiseBusError (keyrKey s.params) (s.withKs .lockout)

/-- An OPTKEYR write (rule R146). -/
def presentOptKey (v : Word) (s : State) : State :=
  match keyNext s.params.keyWidth s.params.optkey1 s.params.optkey2 v s.oks with
  | some k => s.withOks k
  | none => raiseBusError (optkeyrKey s.params) (s.withOks .lockout)

/-! ## Protection and timing -/

/-- `level(m, b, i)` (rule R49). -/
def level (m : Bool) (b : BitVec 8) (i : Nat) : Level :=
  if m && b.getLsbD i then .readWrite
  else if !m && !b.getLsbD i then .write
  else .none

/-- `eff(i)` (rule R50). -/
def eff (ob : OptFields) (i : Nat) : Level := level ob.sprmod ob.nwrp i

/-- `wprot(i)` (rule R50). -/
def wprot (ob : OptFields) (i : Nat) : Bool := eff ob i ≠ .none

/-- `rprot(i)` (rule R50). -/
def rprot (ob : OptFields) (i : Nat) : Bool := eff ob i = .readWrite

/-- `wprot(sector_of(a))`. -/
def wprotAt (m : SectorMap) (ob : OptFields) (a : Nat) : Bool := (sectorOf m a).any (wprot ob)

/-- `rprot(sector_of(a))`. -/
def rprotAt (m : SectorMap) (ob : OptFields) (a : Nat) : Bool := (sectorOf m a).any (rprot ob)

/-- Some sector is protected against writes (rule R151, whose "0..7" is the numbers below `N_SECTORS`, log entry 18). -/
def anyWprot (p : Params) (ob : OptFields) : Bool := (List.range p.nSectors).any (wprot ob)

/-- `required_ws(f)` for `f <= 180_000_000` (rule R188). -/
def requiredWs (f : Nat) : Nat := (f - 1) / 30000000

/-- `timing_ok()` (rule R188). -/
def timingOk (s : State) : Bool :=
  s.params.hclkHz ≤ 180000000 && requiredWs s.params.hclkHz ≤ s.acr.latency.toNat

/-! ## Array reads -/

/-- A byte read through the data cache (rule R190): the stored byte or any stale candidate, as draw `d` chooses. -/
def cachedByte (s : State) (a d : Nat) : Byte :=
  match staleAt s.stale a with
  | [] => readByte s.arr a
  | x :: xs => (readByte s.arr a :: x :: xs).getD (Config.drawIndex d % (xs.length + 2)) (readByte s.arr a)

/-- The bytes an unprotected, well-timed read returns (rules R180, R190). -/
def readValue (n a : Nat) (s : State) : Word :=
  if s.acr.dcen then leWord ((List.range n).map (fun j => cachedByte s (a + j) (s.draws + j)))
  else leWord (readBytes s.arr a n)

/-- The read returns a drawn `8n`-bit value. -/
def drawnRead (sz : AccessSize) (s : State) : State :=
  (s.withRdata (lowBytes sz (Config.drawWord s.draws))).withDraws (s.draws + 1)

/-- `arr_value(a, n)` into RDATA, with its side effect (rule R180): timing first, then read protection, then the
cache. -/
def arrayValue (sz : AccessSize) (a : Word) (s : State) : State :=
  if !timingOk s then drawnRead sz s
  else if (List.range (nbytes sz)).any (fun j => rprotAt s.params.sectorMap s.ob (a.toNat + j)) then
    drawnRead sz (s.withSr (setRderr s.sr))
  else if s.acr.dcen then
    (s.withRdata (readValue (nbytes sz) a.toNat s)).withDraws (s.draws + nbytes sz)
  else s.withRdata (readValue (nbytes sz) a.toNat s)

/-! ## Requests -/

/-- `sticky() and (draw Bool)` (rules R151, R184): a request made while a sticky flag is set may be dropped. -/
def dropped (s : State) : Bool := sticky s.sr && Config.drawBool s.draws

/-- The state after the drop draw, which is made only while a sticky flag is set. -/
def afterDrop (s : State) : State := if sticky s.sr then s.withDraws (s.draws + 1) else s

/-- The errors of `program_request` (rule R184): every check that applies. -/
def programErrors (sz : AccessSize) (a : Word) (s : State) : Errors where
  wrp := wprotAt s.params.sectorMap s.ob a.toNat
  pgp := nbytes sz ≠ psizeBytes s.cr.psize
  pgs := isLocked s.ks || crMode s.cr ≠ .program

/-- `program_request(a, n, v)` past its hold (rule R184). -/
def programRequest (sz : AccessSize) (a v : Word) (s : State) : State :=
  if dropped s then afterDrop s
  else if (programErrors sz a s).any then reject (programErrors sz a s) (afterDrop s)
  else (afterDrop s).withPend (.program a sz v)

/-- The start check past its drop draw (rule R151). Its sector numbers 0 to 7 are those below `N_SECTORS` (log entry
18). -/
def startErase (s : State) : State :=
  match crMode s.cr with
  | .sectorErase =>
    if s.cr.snb.toNat < s.params.nSectors && wprot s.ob s.cr.snb.toNat then reject ⟨true, false, false⟩ s
    else s.withPend (.sectorErase s.cr.snb)
  | .massErase =>
    if anyWprot s.params s.ob then reject ⟨true, false, false⟩ s else s.withPend .massErase
  | _ => reject ⟨false, false, true⟩ s

/-- `erase_request()` (rule R151). -/
def eraseRequest (s : State) : State :=
  if dropped s then afterDrop s else startErase (afterDrop s)

/-- `option_commit_request()` (rule R154). -/
def optionCommitRequest (s : State) : State := s.withPend (.optCommit s.optcr)

end Sys2Proof.Machine
end

