-- ==== Sys2Proof/Machine/Array.lean ====
section
/-! DEFINITION. The six array transactions (spec 41_array_access.md rules R180 to R187). A term whose address the row
cannot hold (no decoder gives one) is what its descriptor is by rule R115: refused (log
entry 13). -/

namespace Sys2Proof.Machine

/-- An array read (rules R181 to R183): holds while busy. -/
def arrRead (sz : AccessSize) (a : Word) : Txn := fun s =>
  if arrayAddressOk s.params sz a then unlessBusy (arrayValue sz a) s else some (refuse s)

/-- An array write (rules R184 to R187): a program request; holds while busy. -/
def arrWrite (sz : AccessSize) (a v : Word) : Txn := fun s =>
  if arrayAddressOk s.params sz a then unlessBusy (programRequest sz a v) s else some (refuse s)

/-- ARR_RD8 (rule R181). -/
def execArrRd8 (a : Word) (s : State) : Host.Outcome State Fault Refusal := issue (arrRead .byte a) s
/-- ARR_RD16 (rule R182). -/
def execArrRd16 (a : Word) (s : State) : Host.Outcome State Fault Refusal := issue (arrRead .half a) s
/-- ARR_RD32 (rule R183). -/
def execArrRd32 (a : Word) (s : State) : Host.Outcome State Fault Refusal := issue (arrRead .word a) s
/-- ARR_WR8 (rule R185). -/
def execArrWr8 (a : Word) (v : BitVec 8) (s : State) : Host.Outcome State Fault Refusal :=
  issue (arrWrite .byte a (v.setWidth 32)) s
/-- ARR_WR16 (rule R186). -/
def execArrWr16 (a : Word) (v : BitVec 16) (s : State) : Host.Outcome State Fault Refusal :=
  issue (arrWrite .half a (v.setWidth 32)) s
/-- ARR_WR32 (rule R187). -/
def execArrWr32 (a v : Word) (s : State) : Host.Outcome State Fault Refusal := issue (arrWrite .word a v) s

end Sys2Proof.Machine
end

