-- ==== Sys2Proof/Machine/Registers.lean ====
section
/-! DEFINITION. The twelve register transactions (spec 40_register_access.md rules R140 to R154): each as an operation
that may hold, and the meaning of its row. -/

namespace Sys2Proof.Machine

/-! ## The transactions -/

/-- ACR_RD (rule R141). -/
def acrRead : Txn := fun s => some (s.withRdata (regvalAcr s))

/-- DCRST = 1 written with DCEN = 0 resets the data cache (rules R97, R142). -/
def resetsDataCache (v : Word) : Bool := v.getLsbD 12 && !v.getLsbD 10

/-- ACR_WR (rule R142): never holds. -/
def acrWrite (v : Word) : Txn := fun s =>
  some (if resetsDataCache v then (s.withAcr (acrOfWord s.params v)).withStale [] else s.withAcr (acrOfWord s.params v))

/-- KEYR_RD (rule R143): reads 0. -/
def keyrRead : Txn := fun s => some (s.withRdata 0)

/-- KEYR_WR (rule R144): never holds. -/
def keyrWrite (v : Word) : Txn := fun s => some (presentKey v s)

/-- OPTKEYR_RD (rule R145): reads 0. -/
def optkeyrRead : Txn := fun s => some (s.withRdata 0)

/-- OPTKEYR_WR (rule R146): never holds. -/
def optkeyrWrite (v : Word) : Txn := fun s => some (presentOptKey v s)

/-- SR_RD (rule R147): reading clears nothing. -/
def srRead : Txn := fun s => some (s.withRdata (regvalSr s))

/-- SR_WR (rule R148): never holds. -/
def srWrite (v : Word) : Txn := fun s => some (s.withSr (clearFlags s.sr v))

/-- CR_RD (rule R149). -/
def crRead : Txn := fun s => some (s.withRdata (regvalCr s))

/-- A CR write while CR is locked (rule R150): the fields are stored or not as `LOCKED_CR_WRITE` says; STRT and LOCK
have no effect. -/
def crWriteLocked (v : Word) (s : State) : State :=
  match s.params.lockedCrWrite with
  | .fieldsApplied => s.withCr (crOfWord s.params v)
  | .ignored => s

/-- A CR write while CR is open (rule R150): store the fields, then the start, then the lock. -/
def crWriteOpen (v : Word) (s : State) : State :=
  let stored := s.withCr (crOfWord s.params v)
  let started := if v.getLsbD 16 then eraseRequest stored else stored
  if v.getLsbD 31 then started.withKs .wait1 else started

/-- CR_WR (rule R150): holds while busy. -/
def crWrite (v : Word) : Txn :=
  unlessBusy (fun s => if isLocked s.ks then crWriteLocked v s else crWriteOpen v s)

/-- OPTCR_RD (rule R152). -/
def optcrRead : Txn := fun s => some (s.withRdata (regvalOptcr s))

/-- An OPTCR write while OPTCR is open (rule R153): store the fields, then the commit, then the option lock. -/
def optcrWriteOpen (v : Word) (s : State) : State :=
  let stored := s.withOptcr (optOfWord s.params v)
  let started := if v.getLsbD 1 then optionCommitRequest stored else stored
  if v.getLsbD 0 then started.withOks .wait1 else started

/-- OPTCR_WR (rule R153): holds while busy, ignored while option-locked. -/
def optcrWrite (v : Word) : Txn :=
  unlessBusy (fun s => if isLocked s.oks then s else optcrWriteOpen v s)

/-! ## By register name, for the commands -/

/-- `RD32` of a register. -/
def readReg : FlashReg → Txn
  | .acr => acrRead
  | .keyr => keyrRead
  | .optkeyr => optkeyrRead
  | .sr => srRead
  | .cr => crRead
  | .optcr => optcrRead

/-- `WR32` of a register. -/
def writeReg (r : FlashReg) (v : Word) : Txn :=
  match r with
  | .acr => acrWrite v
  | .keyr => keyrWrite v
  | .optkeyr => optkeyrWrite v
  | .sr => srWrite v
  | .cr => crWrite v
  | .optcr => optcrWrite v

/-- The address of a register (rule R33). -/
def regAddr (p : Params) : FlashReg → Word
  | .acr => flashAcr p
  | .keyr => flashKeyr p
  | .optkeyr => flashOptkeyr p
  | .sr => flashSr p
  | .cr => flashCr p
  | .optcr => flashOptcr p

/-! ## The meanings of the rows -/

/-- ACR_RD (rule R141). -/
def execAcrRd (s : State) : Host.Outcome State Fault Refusal := issue acrRead s
/-- ACR_WR (rule R142). -/
def execAcrWr (v : Word) (s : State) : Host.Outcome State Fault Refusal := issue (acrWrite v) s
/-- KEYR_RD (rule R143). -/
def execKeyrRd (s : State) : Host.Outcome State Fault Refusal := issue keyrRead s
/-- KEYR_WR (rule R144). -/
def execKeyrWr (v : Word) (s : State) : Host.Outcome State Fault Refusal := issue (keyrWrite v) s
/-- OPTKEYR_RD (rule R145). -/
def execOptkeyrRd (s : State) : Host.Outcome State Fault Refusal := issue optkeyrRead s
/-- OPTKEYR_WR (rule R146). -/
def execOptkeyrWr (v : Word) (s : State) : Host.Outcome State Fault Refusal := issue (optkeyrWrite v) s
/-- SR_RD (rule R147). -/
def execSrRd (s : State) : Host.Outcome State Fault Refusal := issue srRead s
/-- SR_WR (rule R148). -/
def execSrWr (v : Word) (s : State) : Host.Outcome State Fault Refusal := issue (srWrite v) s
/-- CR_RD (rule R149). -/
def execCrRd (s : State) : Host.Outcome State Fault Refusal := issue crRead s
/-- CR_WR (rule R150). -/
def execCrWr (v : Word) (s : State) : Host.Outcome State Fault Refusal := issue (crWrite v) s
/-- OPTCR_RD (rule R152). -/
def execOptcrRd (s : State) : Host.Outcome State Fault Refusal := issue optcrRead s
/-- OPTCR_WR (rule R153). -/
def execOptcrWr (v : Word) (s : State) : Host.Outcome State Fault Refusal := issue (optcrWrite v) s

end Sys2Proof.Machine
end

