-- ==== Sys2Proof/Machine/Commands.lean ====
section
/-! DEFINITION. The thirteen sequencer commands (spec 43_sequencer_commands.md rules R230 to R245). A command is a
program of bus transactions; one `exec` of it performs its next one, and the host's position (rule R54) is kept in
`run` between them, where engine steps and resets may fall (rule R92). -/

namespace Sys2Proof.Machine

/-! ## Running a command -/

/-- The word WRITE issues for some bytes: a byte past their end is drawn (rule R239, decision D43). -/
def paddedWord (data : List Byte) (d : Nat) : Word :=
  leWord ((List.range 4).map (fun i => data.getD i (Config.drawByte (d + (i - data.length)))))

/-- The bus transaction a step of an expansion issues at position `p` (rule R122). -/
def microTxn (u : Micro) (p : Position) : Txn :=
  match u with
  | .rd r => readReg r
  | .wr r v => writeReg r v
  | .wrMod r clear set => writeReg r (p.t &&& ~~~clear ||| set)
  | .poll r _ => readReg r
  | .rdByte a => arrRead .byte a
  | .wrData a data => fun s => arrWrite .word a (paddedWord data s.draws) s

/-- The descriptor of that transaction (rules R121, R122), in state `s`. -/
def microDescriptor (u : Micro) (p : Position) (s : State) : Descriptor :=
  match u with
  | .rd r => encodeRead .word (regAddr s.params r)
  | .wr r v => encodeWrite .word (regAddr s.params r) v
  | .wrMod r clear set => encodeWrite .word (regAddr s.params r) (p.t &&& ~~~clear ||| set)
  | .poll r _ => encodeRead .word (regAddr s.params r)
  | .rdByte a => encodeRead .byte a
  | .wrData a data => encodeWrite .word a (paddedWord data s.draws)

/-- The host's position after a transaction that read `rdata` (rules R54, R122): `t` and the buffer take what was
read, and the index moves on, except where POLL0 reads again. -/
def advance (u : Micro) (rdata : Word) (p : Position) : Position :=
  match u with
  | .rd _ => { p with t := rdata, idx := p.idx + 1 }
  | .wr _ _ => { p with idx := p.idx + 1 }
  | .wrMod _ _ _ => { p with idx := p.idx + 1 }
  | .poll _ m => if rdata &&& m = 0 then { p with t := rdata, idx := p.idx + 1 } else { p with t := rdata }
  | .rdByte _ => { p with buf := p.buf ++ [rdata.setWidth 8], idx := p.idx + 1 }
  | .wrData _ _ => { p with idx := p.idx + 1 }

/-- How many padding bytes a transaction's word drew. -/
def padDraws : Micro → Nat
  | .wrData _ data => 4 - data.length
  | _ => 0

/-- A command's expansion (its transaction at each index) and its result at the end. -/
structure Expansion where
  txnAt : Nat → Option Micro
  result : Position → CmdResult

/-- The host stands at position `p`: the command is complete when no transaction is left there (rule R54). -/
def standAt (e : Expansion) (p : Position) (s : State) : State :=
  match e.txnAt p.idx with
  | none => (s.withRun none).withResult (e.result p)
  | some _ => s.withRun (some p)

/-- After a transaction `u` that left state `s`: a transaction that raised BusError or was refused stops the command
where it is (rule R230). -/
def afterTxn (e : Expansion) (u : Micro) (p : Position) (s : State) : State :=
  if marked s then s.withRun (some p)
  else standAt e (advance u s.rdata p) (s.withDraws (s.draws + padDraws u))

/-- The next transaction of the command at position `p`; a held one holds the command (rule R230). -/
def continueAt (e : Expansion) (p : Position) (s : State) : State :=
  match e.txnAt p.idx with
  | none => (standAt e p s).withHeld false
  | some u =>
    match microTxn u p s with
    | none => (s.withRun (some p)).withHeld true
    | some s' => (afterTxn e u p s').withHeld false

/-- One step of command `i`: its next transaction, or its first if the host runs none. Refused before its first
transaction when its operands fail their check (rule R118), and when another command is incomplete (rule R292, log
entry 12). -/
def runCommand (i : Instr) (ok : Bool) (e : Expansion) (s : State) : State :=
  match s.run with
  | none => if ok then continueAt e ⟨i, 0, 0, []⟩ s else (refuse s).withHeld false
  | some p => if p.cmd = i then continueAt e p s else (refuse s).withHeld false

/-! ## Expansions -/

/-- An expansion of fixed transactions with no result. -/
def Expansion.ofList (us : List Micro) : Expansion := ⟨fun j => us[j]?, fun _ => .nothing⟩

/-- `MOD32 r, c, s` (rule R122). -/
def mod32 (r : FlashReg) (clear set : Word) : List Micro := [.rd r, .wrMod r clear set]
/-- `SET32 r, m`. -/
def set32 (r : FlashReg) (m : Word) : List Micro := mod32 r 0 m
/-- `CLR32 r, m`. -/
def clr32 (r : FlashReg) (m : Word) : List Micro := mod32 r m 0
/-- The mask of the field of `n` bits from bit `lo` on (rules R122, R230): the bits a field write names. -/
def fieldMask (lo n : Nat) : Word := (BitVec.allOnes n).setWidth 32 <<< lo
/-- `POLL0 FLASH_SR, 1<<16`: wait until idle (rule R244). -/
def pollIdle : List Micro := [.poll .sr 0x00010000]

/-- INIT (rule R232). The masks are 0x0000000F and 0x00000300 with the default widths. -/
def initTxns (p : Params) (f : Word) : List Micro :=
  mod32 .acr (fieldMask 0 p.latencyWidth) (BitVec.ofNat 32 (wsCalc p f.toNat)) ++
    mod32 .cr (fieldMask 8 p.psizeWidth) 0x00000200

/-- UNLOCK (rule R233). -/
def unlockTxns (p : Params) : List Micro := [.wr .keyr p.key1, .wr .keyr p.key2] ++ pollIdle

/-- LOCK (rule R234). -/
def lockTxns : List Micro := set32 .cr 0x80000000

/-- OPT_UNLOCK (rule R235). -/
def optUnlockTxns (p : Params) : List Micro := [.wr .optkeyr p.optkey1, .wr .optkeyr p.optkey2] ++ pollIdle

/-- OPT_LOCK (rule R236). -/
def optLockTxns : List Micro := set32 .optcr 0x00000001

/-- READ (rule R238): one byte read for each byte of the range, none when it fails `read_ok`. -/
def readExpansion (p : Params) (address length : Word) : Expansion where
  txnAt j :=
    if readOk p address length && j < length.toNat then some (.rdByte (address + BitVec.ofNat 32 j)) else none
  result q := if readOk p address length then .ok q.buf else .outOfRange

/-- What WRITE issues before its words (rule R239). -/
def writeHead (p : Params) : List Micro := unlockTxns p ++ mod32 .cr 0x00000007 0x00000001

/-- What WRITE issues after its words (rule R239). -/
def writeTail : List Micro := pollIdle ++ clr32 .cr 0x00000001 ++ lockTxns

/-- Word `k` of WRITE's data: its bytes, fewer than four at the end (rule R239). -/
def wordBytes (data : List Byte) (k : Nat) : List Byte := (data.drop (4 * k)).take 4

/-- WRITE (rule R239): the five transactions of its head, its words, its tail. -/
def writeExpansion (p : Params) (address length : Word) (data : List Byte) : Expansion where
  txnAt j :=
    if j < 5 then (writeHead p)[j]?
    else if j < 5 + writeWords length then
      some (.wrData (address + BitVec.ofNat 32 (4 * (j - 5))) (wordBytes data (j - 5)))
    else writeTail[j - 5 - writeWords length]?
  result _ := .nothing

/-- ERASE_SECTOR (rule R240). The mask of SNB is 0x00000078 with the default width. -/
def eraseSectorTxns (p : Params) (n : Word) : List Micro :=
  unlockTxns p ++ clr32 .cr 0x00000007 ++ mod32 .cr (fieldMask 3 p.snbWidth) (0x00000002 ||| n <<< 3) ++
    set32 .cr 0x00010000 ++ pollIdle ++ lockTxns

/-- ERASE_ALL (rule R241). -/
def eraseAllTxns (p : Params) : List Micro :=
  unlockTxns p ++ clr32 .cr 0x00000007 ++ set32 .cr 0x00000004 ++ set32 .cr 0x00010000 ++ pollIdle ++ lockTxns

/-- The levels GET_PROTECTION returns for the OPTCR word `t` (rule R242), in their codes (rule R119): one for each of
the `N_SECTORS` sectors (log entry 18). -/
def levelsOf (p : Params) (t : Word) : List Word :=
  (List.range p.nSectors).map (fun i => levelCode (level (t.getLsbD 31) (t.extractLsb' 16 8) i))

/-- GET_PROTECTION (rule R242). -/
def getProtectionExpansion (p : Params) : Expansion :=
  ⟨fun j => [Micro.rd .optcr][j]?, fun q => .levels (levelsOf p q.t)⟩

/-- The three branches of SET_PROTECTION (rule R243): `m` is the mask shifted to the bitmap, `all` the whole bitmap,
0x00FF0000 with the default width. -/
def protectionBranch (all m : Word) : Level → List Micro
  | .readWrite => set32 .optcr 0x80000000 ++ clr32 .optcr all ++ set32 .optcr m
  | .write => clr32 .optcr 0x80000000 ++ set32 .optcr all ++ clr32 .optcr m
  | .none => clr32 .optcr 0x80000000 ++ set32 .optcr m

/-- SET_PROTECTION (rule R243), its level in the code of rule R119. -/
def setProtectionTxns (p : Params) (lev mask : Word) : List Micro :=
  optUnlockTxns p ++ ((levelOfCode lev).map (protectionBranch (fieldMask 16 p.wrpWidth) (mask <<< 16))).getD [] ++
    set32 .optcr 0x00000002 ++ pollIdle ++ optLockTxns

/-- IS_STATUS_BIT_SET (rule R245). -/
def statusBitExpansion (pos : Word) : Expansion :=
  ⟨fun j => [Micro.rd .sr][j]?, fun p => .flag (p.t.getLsbD pos.toNat)⟩

/-! ## The meanings of the rows -/

/-- INIT (rule R232). -/
def execInit (f : Word) (s : State) : Host.Outcome State Fault Refusal :=
  .next (runCommand (.init f) true (Expansion.ofList (initTxns s.params f)) s)
/-- UNLOCK (rule R233). -/
def execUnlock (s : State) : Host.Outcome State Fault Refusal :=
  .next (runCommand .unlock true (Expansion.ofList (unlockTxns s.params)) s)
/-- LOCK (rule R234). -/
def execLock (s : State) : Host.Outcome State Fault Refusal :=
  .next (runCommand .lock true (Expansion.ofList lockTxns) s)
/-- OPT_UNLOCK (rule R235). -/
def execOptUnlock (s : State) : Host.Outcome State Fault Refusal :=
  .next (runCommand .optUnlock true (Expansion.ofList (optUnlockTxns s.params)) s)
/-- OPT_LOCK (rule R236). -/
def execOptLock (s : State) : Host.Outcome State Fault Refusal :=
  .next (runCommand .optLock true (Expansion.ofList optLockTxns) s)
/-- READ (rule R238). -/
def execRead (address length : Word) (s : State) : Host.Outcome State Fault Refusal :=
  .next (runCommand (.read address length) true (readExpansion s.params address length) s)
/-- WRITE (rule R239). -/
def execWrite (address length : Word) (data : List Byte) (s : State) : Host.Outcome State Fault Refusal :=
  .next (runCommand (.write address length data) (writeOk s.params address length data)
    (writeExpansion s.params address length data) s)
/-- ERASE_SECTOR (rule R240). -/
def execEraseSector (n : Word) (s : State) : Host.Outcome State Fault Refusal :=
  .next (runCommand (.eraseSector n) (eraseSectorOk s.params n) (Expansion.ofList (eraseSectorTxns s.params n)) s)
/-- ERASE_ALL (rule R241). -/
def execEraseAll (s : State) : Host.Outcome State Fault Refusal :=
  .next (runCommand .eraseAll true (Expansion.ofList (eraseAllTxns s.params)) s)
/-- GET_PROTECTION (rule R242). -/
def execGetProtection (s : State) : Host.Outcome State Fault Refusal :=
  .next (runCommand .getProtection true (getProtectionExpansion s.params) s)
/-- SET_PROTECTION (rule R243). -/
def execSetProtection (lev mask : Word) (s : State) : Host.Outcome State Fault Refusal :=
  .next (runCommand (.setProtection lev mask) (setProtectionOk s.params lev mask)
    (Expansion.ofList (setProtectionTxns s.params lev mask)) s)
/-- WAIT_UNTIL_IDLE (rule R244). -/
def execWaitUntilIdle (s : State) : Host.Outcome State Fault Refusal :=
  .next (runCommand .waitUntilIdle true (Expansion.ofList pollIdle) s)
/-- IS_STATUS_BIT_SET (rule R245). -/
def execIsStatusBitSet (pos : Word) (s : State) : Host.Outcome State Fault Refusal :=
  .next (runCommand (.isStatusBitSet pos) (statusBitOk pos) (statusBitExpansion pos) s)

end Sys2Proof.Machine
end

