-- ==== Sys2Proof/Machine/Refusals.lean ====
section
/-! DEFINITION. The rows the spec gives no transaction to: the four refused bus rows (spec 30_encoding.md rule R115)
and the reserved command opcodes (rule R118). Their whole effect is `refuse(row)`: the refusal mark, "and changes no
other state"; the host then takes no further step. -/

namespace Sys2Proof.Machine

/-- `refuse(row)` as a transaction: it never holds. -/
def refusal : Txn := fun s => some (refuse s)

/-- SZ_RSVD (rule R115). -/
def execSzRsvd (_w : Bool) (_addr _wdata : Word) (s : State) : Host.Outcome State Fault Refusal := issue refusal s
/-- REG_OTHER (rule R115). -/
def execRegOther (_w : Bool) (_sz : AccessSize) (_addr _wdata : Word) (s : State) :
    Host.Outcome State Fault Refusal := issue refusal s
/-- ARR_MISALIGNED (rule R115). -/
def execArrMisaligned (_w : Bool) (_sz : AccessSize) (_addr _wdata : Word) (s : State) :
    Host.Outcome State Fault Refusal := issue refusal s
/-- NOT_SELECTED (rules R80, R115). -/
def execNotSelected (_w : Bool) (_sz : AccessSize) (_addr _wdata : Word) (s : State) :
    Host.Outcome State Fault Refusal := issue refusal s
/-- CMD_RESERVED, OP 0x00 (rule R118). -/
def execCmdReserved00 (s : State) : Host.Outcome State Fault Refusal := issue refusal s
/-- CMD_RESERVED, OP 0x0E and 0x0F (rule R118). -/
def execCmdReserved0E (_low : BitVec 1) (s : State) : Host.Outcome State Fault Refusal := issue refusal s
/-- CMD_RESERVED, OP 0x10 to 0x1F (rule R118). -/
def execCmdReserved10 (_low : BitVec 4) (s : State) : Host.Outcome State Fault Refusal := issue refusal s
/-- CMD_RESERVED, OP 0x20 to 0x3F (rule R118). -/
def execCmdReserved20 (_low : BitVec 5) (s : State) : Host.Outcome State Fault Refusal := issue refusal s
/-- CMD_RESERVED, OP 0x40 to 0x7F (rule R118). -/
def execCmdReserved40 (_low : BitVec 6) (s : State) : Host.Outcome State Fault Refusal := issue refusal s
/-- CMD_RESERVED, OP 0x80 to 0xFF (rule R118). -/
def execCmdReserved80 (_low : BitVec 7) (s : State) : Host.Outcome State Fault Refusal := issue refusal s

end Sys2Proof.Machine
end

