-- ==== Sys2Proof/Machine/Dispatch.lean ====
section
/-! DEFINITION. One arm for each instruction: a direct call of its meaning. -/

namespace Sys2Proof.Machine

/-- The meaning of an instruction. -/
def exec (i : Instr) (s : State) : Host.Outcome State Fault Refusal :=
  match i with
  | .szRsvd w addr wdata => Sys2Proof.Machine.execSzRsvd w addr wdata s
  | .acrRd => Sys2Proof.Machine.execAcrRd s
  | .acrWr v => Sys2Proof.Machine.execAcrWr v s
  | .keyrRd => Sys2Proof.Machine.execKeyrRd s
  | .keyrWr v => Sys2Proof.Machine.execKeyrWr v s
  | .optkeyrRd => Sys2Proof.Machine.execOptkeyrRd s
  | .optkeyrWr v => Sys2Proof.Machine.execOptkeyrWr v s
  | .srRd => Sys2Proof.Machine.execSrRd s
  | .srWr v => Sys2Proof.Machine.execSrWr v s
  | .crRd => Sys2Proof.Machine.execCrRd s
  | .crWr v => Sys2Proof.Machine.execCrWr v s
  | .optcrRd => Sys2Proof.Machine.execOptcrRd s
  | .optcrWr v => Sys2Proof.Machine.execOptcrWr v s
  | .regOther w sz addr wdata => Sys2Proof.Machine.execRegOther w sz addr wdata s
  | .arrRd8 a => Sys2Proof.Machine.execArrRd8 a s
  | .arrRd16 a => Sys2Proof.Machine.execArrRd16 a s
  | .arrRd32 a => Sys2Proof.Machine.execArrRd32 a s
  | .arrWr8 a v => Sys2Proof.Machine.execArrWr8 a v s
  | .arrWr16 a v => Sys2Proof.Machine.execArrWr16 a v s
  | .arrWr32 a v => Sys2Proof.Machine.execArrWr32 a v s
  | .arrMisaligned w sz addr wdata => Sys2Proof.Machine.execArrMisaligned w sz addr wdata s
  | .notSelected w sz addr wdata => Sys2Proof.Machine.execNotSelected w sz addr wdata s
  | .init f => Sys2Proof.Machine.execInit f s
  | .unlock => Sys2Proof.Machine.execUnlock s
  | .lock => Sys2Proof.Machine.execLock s
  | .optUnlock => Sys2Proof.Machine.execOptUnlock s
  | .optLock => Sys2Proof.Machine.execOptLock s
  | .read address length => Sys2Proof.Machine.execRead address length s
  | .write address length data => Sys2Proof.Machine.execWrite address length data s
  | .eraseSector n => Sys2Proof.Machine.execEraseSector n s
  | .eraseAll => Sys2Proof.Machine.execEraseAll s
  | .getProtection => Sys2Proof.Machine.execGetProtection s
  | .setProtection lev mask => Sys2Proof.Machine.execSetProtection lev mask s
  | .waitUntilIdle => Sys2Proof.Machine.execWaitUntilIdle s
  | .isStatusBitSet pos => Sys2Proof.Machine.execIsStatusBitSet pos s
  | .cmdReserved00 => Sys2Proof.Machine.execCmdReserved00 s
  | .cmdReserved0E low => Sys2Proof.Machine.execCmdReserved0E low s
  | .cmdReserved10 low => Sys2Proof.Machine.execCmdReserved10 low s
  | .cmdReserved20 low => Sys2Proof.Machine.execCmdReserved20 low s
  | .cmdReserved40 low => Sys2Proof.Machine.execCmdReserved40 low s
  | .cmdReserved80 low => Sys2Proof.Machine.execCmdReserved80 low s

end Sys2Proof.Machine
end

