-- ==== Sys2Proof/Machine/Engine.lean ====
section
/-! DEFINITION. The operation engine: the completion of the pending operation (spec 42_operation_engine.md rules R200
to R207). -/

namespace Sys2Proof.Machine

/-- The bytes drawn from draw number `d` on. -/
def drawnBytes (d : Nat) : Nat → Byte := fun j => Config.drawByte (d + j)

/-- `eop()` (rule R205). -/
def signalEop (s : State) : State := s.withSr (eopFlags s.sr s.cr.eopie)

/-- `stale_update` for the bytes `lo .. lo+n-1` of the array as it is now (rule R206). -/
def rememberStale (lo n : Nat) (s : State) : State := s.withStale (staleUpdate s.stale s.arr lo n)

/-- The bytes `lo .. lo+n-1` of the array become drawn (rules R201 to R203, R322). -/
def drawRange (lo n : Nat) (s : State) : State :=
  (s.withArr (setRange s.arr lo n (drawnBytes s.draws))).withDraws (s.draws + n)

/-- The bytes `lo .. lo+n-1` of the array become `ERASED_BYTE` (rules R202, R203). -/
def eraseBytes (lo n : Nat) (s : State) : State := s.withArr (fillRange s.arr lo n s.params.erasedByte)

/-- Every byte of the unit is erased, so it can be programmed (rule R201). -/
def unitErased (m : Memory) (erased : Byte) (a n : Nat) : Bool :=
  (List.range n).all (fun j => readByte m (a + j) = erased)

/-- What a program leaves in its unit (rule R201): its bytes if the unit was erased, else drawn bytes in all of it. -/
def programUnit (a n : Nat) (v : Word) (s : State) : State :=
  if unitErased s.arr s.params.erasedByte a n then s.withArr (setRange s.arr a n (byteOf v)) else drawRange a n s

/-- What an erase leaves in its range (rules R202, R203): erased bytes, or drawn ones with PSIZE = x64. A code above 3,
which only a wider PSIZE field holds, is given no size by rule R39: the bytes are drawn too (log entry 18). -/
def eraseTarget (lo n : Nat) (s : State) : State :=
  if 3 ≤ s.cr.psize.toNat then drawRange lo n s else eraseBytes lo n s

/-- `pend <- None`, then `eop()` (rules R201 to R203). -/
def finishFlashOp (s : State) : State := signalEop (s.withPend .none)

/-- COMPLETE_PROGRAM (rule R201). -/
def completeProgram (a : Word) (sz : AccessSize) (v : Word) (s : State) : State :=
  finishFlashOp (programUnit a.toNat (nbytes sz) v (rememberStale a.toNat (nbytes sz) s))

/-- An erase of the bytes `lo .. lo+n-1` completes (rules R202, R203). -/
def eraseAndFinish (lo n : Nat) (s : State) : State := finishFlashOp (eraseTarget lo n (rememberStale lo n s))

/-- COMPLETE_SECTOR_ERASE (rule R202). -/
def completeSectorErase (n : BitVec 5) (s : State) : State :=
  eraseAndFinish (sectorRange s.params.sectorMap n.toNat).1 (sectorRange s.params.sectorMap n.toNat).2 s

/-- COMPLETE_MASS_ERASE (rule R203). -/
def completeMassErase (s : State) : State :=
  eraseAndFinish s.params.arrayBase (arraySize s.params) s

/-- The commit of `f` over `ob` weakens PCROP (rule R204). The rule's "exists i < 8" over the bits of nWRP is read as
the bits of the `N_SECTORS` sectors (DESIGN CHOICE, log entry 18: where a claim names another value, the 8 could as well
be `WRP_WIDTH`). -/
def weakensPcrop (p : Params) (ob f : OptFields) : Bool :=
  ob.sprmod && (!f.sprmod || (List.range p.nSectors).any (fun i => ob.nwrp.getLsbD i && !f.nwrp.getLsbD i))

/-- COMPLETE_OPTION_COMMIT (rule R204): EOP is not written. -/
def completeOptionCommit (f : OptFields) (s : State) : State :=
  if s.params.pcropWeaken = .either && weakensPcrop s.params s.ob f then
    ((s.withOb (if Config.drawBool s.draws then f else s.ob)).withDraws (s.draws + 1)).withPend .none
  else (s.withOb f).withPend .none

/-- The engine's one step, enabled iff an operation is pending (rule R200); with none it changes nothing. -/
def engineStep (s : State) : State :=
  match s.pend with
  | .none => s
  | .program a sz v => completeProgram a sz v s
  | .sectorErase n => completeSectorErase n s
  | .massErase => completeMassErase s
  | .optCommit f => completeOptionCommit f s

end Sys2Proof.Machine
end

