-- ==== Sys2Proof/Machine/ResetEvent.lean ====
section
/-! DEFINITION. The reset event, enabled in every state (spec 70_reset_and_hazards.md rules R320 to R322). The launch
state is `State.launch` (rule R323). -/

namespace Sys2Proof.Machine

/-- `draw (every field of OB, independently)` (rule R322): each field from its own bits of one drawn word (log entry
6). -/
def drawnOptFields (p : Params) (d : Nat) : OptFields where
  nwrp := ((Config.drawWord d).extractLsb' 0 p.wrpWidth).setWidth 8
  rdp := (Config.drawWord d).extractLsb' 8 8
  borLev := (Config.drawWord d).extractLsb' 16 2
  sprmod := (Config.drawWord d).getLsbD 18
  wdgSw := (Config.drawWord d).getLsbD 19
  nrstStop := (Config.drawWord d).getLsbD 20
  nrstStdby := (Config.drawWord d).getLsbD 21

/-- The interrupted target of rule R322. -/
def interruptTarget (s : State) : State :=
  match s.pend with
  | .none => s
  | .program a sz _ => drawRange a.toNat (nbytes sz) s
  | .sectorErase n =>
    drawRange (sectorRange s.params.sectorMap n.toNat).1 (sectorRange s.params.sectorMap n.toNat).2 s
  | .massErase => drawRange s.params.arrayBase (arraySize s.params) s
  | .optCommit _ => (s.withOb (drawnOptFields s.params s.draws)).withDraws (s.draws + 1)

/-- The volatile state of rule R320; OPTCR's fields are loaded from `OB`. -/
def resetVolatile (s : State) : State :=
  { s with
    acr := AcrFields.reset
    sr := SrFlags.reset
    cr := CrFields.reset
    optcr := s.ob
    ks := .wait1
    oks := .wait1
    pend := .none
    stale := [] }

/-- The host at a reset (rule R321): a command in progress is discarded with its request, so the host's next step is
the first transaction of a new one. A held transaction outside a command stays to be issued (rule R8). DEDUCED,
log entry 10. -/
def abandonCommand (s : State) : State :=
  if s.run.isSome then ((s.withProgram s.program.tail).withRun none).withHeld false else s.withHeld false

/-- The reset agent's one step (rules R320 to R322). The marks, `Arr` and `OB` outside the interrupted target, the
parameters and what the host read stay. -/
def resetEvent (s : State) : State := abandonCommand (resetVolatile (interruptTarget s))

end Sys2Proof.Machine
end

