-- ==== Sys2Proof/Machine/Turns.lean ====
section
/-! DEFINITION. The steps of the three agents (spec 00_scope.md rule R4, 20_memory.md R92, 42_operation_engine.md R200)
and how the host takes its requests (43_sequencer_commands.md R230). -/

namespace Sys2Proof.Machine

/-- The host goes on to its next request once the one in issue is complete: not held, and not a command with
transactions left (rules R54, R140). -/
def retire (s : State) : State :=
  if s.held || s.run.isSome then s else s.withProgram s.program.tail

/-- The request in issue, decoded, performs its next transaction. -/
def issueRequest (d : Descriptor) (s : State) : Host.Outcome State Fault Refusal :=
  match decode s.params d with
  | .error (.operandList op) => .refused (.malformedCommand op)
  | .ok i =>
    match exec i s with
    | .next s' => .next (retire s')
    | .fault f => .fault f
    | .refused r => .refused r

/-- The host's turn (rules R92, R230, R287): in a marked run it has no step left (log entry 7); with
nothing to issue it idles. -/
def hostTurn (s : State) : Host.Outcome State Fault Refusal :=
  match s.fault with
  | some k => .fault (.busError k)
  | none =>
    if s.refused then .refused .runRefused
    else match s.program with
      | [] => .next s
      | d :: _ => issueRequest d s

/-- The step of the agent whose turn it is. -/
def takeTurn (t : Turn) (s : State) : Host.Outcome State Fault Refusal :=
  match t with
  | .host => hostTurn s
  | .engine => .next (engineStep s)
  | .reset => .next (resetEvent s)

/-- Whose turn it is when the schedule says nothing more: the engine's while an operation is pending and
`ENGINE_FAIR = true` (rule R200: it always completes), else the host's (log entry 5). -/
def defaultTurn (s : State) : Turn := if s.params.engineFair && busy s then .engine else .host

end Sys2Proof.Machine
end

