-- ==== Sys2Proof/Machine/Step.lean ====
section
/-! DEFINITION. The step: the next agent of the schedule takes its turn (spec 20_memory.md rule R92). -/

namespace Sys2Proof.Machine

/-- One indivisible step (rules R88, R92). -/
def step (s : State) : Host.Outcome State Fault Refusal :=
  match s.sched with
  | [] => takeTurn (defaultTurn s) s
  | t :: rest => takeTurn t (s.withSched rest)

/-- `s` with the instruction whose opcode-table bits are `w` as the host's next request, and all that its issue at the
very next step takes: the host's turn comes first, no command or held transaction is in progress, and the run is not
marked (log entry 4). -/
def State.withFetchWord (s : State) (nbits w : Nat) : State :=
  { s with
    program := ofTableWord nbits w :: s.program
    sched := .host :: s.sched
    run := none
    held := false
    fault := none
    refused := false }

end Sys2Proof.Machine
end

