-- ==== Sys2Proof/Safety.lean ====
section
/-! DEFINITION. The terms in which claims speak of runs: repeated execution of one command, with and without the engine
between its transactions, the machine's invariant, and the premises that name a mode of the block (spec 10_state.md
rules R45, R51, R52; 41_array_access.md R188; 42_operation_engine.md R200). -/

namespace Sys2Proof.Machine

/-! ## Runs of one command -/

/-- `n` times `exec i`: the next `n` transactions of command `i` with no other agent between them. -/
def execTimes : Nat → Instr → State → Host.Outcome State Fault Refusal
  | 0, _, s => .next s
  | n + 1, i, s =>
    match exec i s with
    | .next s' => execTimes n i s'
    | .fault f => .fault f
    | .refused r => .refused r

/-- `n` times `exec i`, each followed by the engine's step: the schedule in which the engine completes every operation
at once (rule R200; with nothing pending the engine's step changes nothing). -/
def cycles : Nat → Instr → State → Host.Outcome State Fault Refusal
  | 0, _, s => .next s
  | n + 1, i, s =>
    match exec i s with
    | .next s' => cycles n i (engineStep s')
    | .fault f => .fault f
    | .refused r => .refused r

/-! ## The invariant -/

/-- What a pending operation carries: a program's target lies in the array and is naturally aligned (rules R45, R114,
R184), a sector number and a committed bitmap fit their fields (rule R5). -/
def pendingOk (p : Params) : Pending → Prop
  | .program a sz _ => arrayAddressOk p sz a = true
  | .sectorErase n => n.toNat < 2 ^ p.snbWidth
  | .optCommit f => f.nwrp.toNat < 2 ^ p.wrpWidth
  | _ => True

/-- A remembered range lies in the array and its old bytes are canonical (rules R53, R206). -/
def staleRangeOk (p : Params) (r : StaleRange) : Prop :=
  r.old.wf p ∧ p.arrayBase ≤ r.base ∧ r.base + r.size ≤ p.arrayLast + 1

/-- The parameters are ones the rules admit (log entry 18). -/
structure paramsOk (p : Params) : Prop where
  /-- The sectors cover the array exactly (rules R46, R47), in the order of their numbers and none empty. -/
  sectors : sectorMapOk p = true
  /-- Each sector has a bit of the bitmap and a number that SNB holds (rules R38, R40). -/
  sectors_bitmap : p.nSectors ≤ p.wrpWidth
  sectors_snb : p.nSectors ≤ 2 ^ p.snbWidth
  /-- The calibrator's step is a divisor (rule R231). -/
  ws_step : 0 < p.wsStepMhz
  /-- The array is a range of whole words of the 32-bit address space (rules R80, R85). -/
  array_order : p.arrayBase ≤ p.arrayLast
  array_last : p.arrayLast < 2 ^ 32
  array_base_word : p.arrayBase % 4 = 0
  array_end_word : (p.arrayLast + 1) % 4 = 0
  /-- The register window lies in the address space, apart from the array, at a word address (rules R33, R80). -/
  window_last : p.regBase.toNat + 0x3FF < 2 ^ 32
  window_word : p.regBase.toNat % 4 = 0
  disjoint : p.regBase.toNat + 0x3FF < p.arrayBase ∨ p.arrayLast < p.regBase.toNat
  /-- The fields fit the room that the tables of rules R34, R35, R38 and R40 leave them, and PSIZE holds the four codes
  of rule R39. -/
  latency_room : p.latencyWidth ≤ 8
  snb_room : p.snbWidth ≤ 5
  psize_codes : 2 ≤ p.psizeWidth
  psize_room : p.psizeWidth ≤ 8
  wrp_room : p.wrpWidth ≤ 8
  key_room : p.keyWidth ≤ 32

/-- The machine's invariant: the parameters are ones the rules admit, the array and every remembered range are
canonical and inside the array, what a pending operation carries is in range, and every stored field of variable width
fits its width, so the rest of its room reads as reserved (rules R5, R41). -/
structure Invariant (s : State) : Prop where
  params_ok : paramsOk s.params
  arr_wf : s.arr.wf s.params
  stale_ok : ∀ r ∈ s.stale, staleRangeOk s.params r
  pend_ok : pendingOk s.params s.pend
  latency_fits : s.acr.latency.toNat < 2 ^ s.params.latencyWidth
  snb_fits : s.cr.snb.toNat < 2 ^ s.params.snbWidth
  psize_fits : s.cr.psize.toNat < 2 ^ s.params.psizeWidth
  nwrp_fits : s.optcr.nwrp.toNat < 2 ^ s.params.wrpWidth
  ob_fits : s.ob.nwrp.toNat < 2 ^ s.params.wrpWidth

/-! ## Premises -/

/-- The host can begin a command: the run is not marked and no command is incomplete (rules R51, R230). -/
def Ready (s : State) : Prop := s.fault = none ∧ s.refused = false ∧ s.run = none

/-- `timing_ok()` (rule R188). -/
def WellTimed (s : State) : Prop :=
  s.params.hclkHz ≤ 180000000 ∧ (s.params.hclkHz - 1) / 30000000 ≤ s.acr.latency.toNat

/-- Byte `b` is one of `sector_range(n)` (rule R47). -/
def InSector (s : State) (n b : Nat) : Prop :=
  (sectorRange s.params.sectorMap n).1 ≤ b ∧
    b < (sectorRange s.params.sectorMap n).1 + (sectorRange s.params.sectorMap n).2

/-- Byte `a` lies in a sector protected against programs and erases (rule R50). -/
def WriteProtectedByte (s : State) (a : Nat) : Prop := ∃ i, sectorOf s.params.sectorMap a = some i ∧ wprot s.ob i = true

/-- Byte `a` lies in a sector protected against reads (rule R50). -/
def ReadProtectedByte (s : State) (a : Nat) : Prop := ∃ i, sectorOf s.params.sectorMap a = some i ∧ rprot s.ob i = true

/-- The expansion of a command (rules R232 to R245); none for the other rows. -/
def expansionOf (p : Params) : Instr → Option Expansion
  | .init f => some (Expansion.ofList (initTxns p f))
  | .unlock => some (Expansion.ofList (unlockTxns p))
  | .lock => some (Expansion.ofList lockTxns)
  | .optUnlock => some (Expansion.ofList (optUnlockTxns p))
  | .optLock => some (Expansion.ofList optLockTxns)
  | .read a n => some (readExpansion p a n)
  | .write a n data => some (writeExpansion p a n data)
  | .eraseSector n => some (Expansion.ofList (eraseSectorTxns p n))
  | .eraseAll => some (Expansion.ofList (eraseAllTxns p))
  | .getProtection => some (getProtectionExpansion p)
  | .setProtection l m => some (Expansion.ofList (setProtectionTxns p l m))
  | .waitUntilIdle => some (Expansion.ofList pollIdle)
  | .isStatusBitSet pos => some (statusBitExpansion pos)
  | .szRsvd _ _ _ | .regOther _ _ _ _ | .arrMisaligned _ _ _ _ | .notSelected _ _ _ _ => none
  | .acrRd | .keyrRd | .optkeyrRd | .srRd | .crRd | .optcrRd => none
  | .acrWr _ | .keyrWr _ | .optkeyrWr _ | .srWr _ | .crWr _ | .optcrWr _ => none
  | .arrRd8 _ | .arrRd16 _ | .arrRd32 _ | .arrWr8 _ _ | .arrWr16 _ _ | .arrWr32 _ _ => none
  | .cmdReserved00 | .cmdReserved0E _ | .cmdReserved10 _ | .cmdReserved20 _ | .cmdReserved40 _ => none
  | .cmdReserved80 _ => none

/-- A command's transaction is one that holds while an operation is pending: a CR or OPTCR write, an array read or an
array write (rules R140, R325). -/
def HoldsWhileBusy (p : Params) (u : Micro) : Prop :=
  (∃ v, u = .wr .cr v ∨ u = .wr .optcr v) ∨ (∃ c x, u = .wrMod .cr c x ∨ u = .wrMod .optcr c x) ∨
    (∃ a, u = .rdByte a ∧ inArray p a = true) ∨ ∃ a d, u = .wrData a d ∧ arrayAddressOk p .word a = true

/-- `i` is the array read of size `sz` at `a` (rules R181 to R183). -/
def IsArrayRead (i : Instr) (sz : AccessSize) (a : Word) : Prop :=
  (i = .arrRd8 a ∧ sz = .byte) ∨ (i = .arrRd16 a ∧ sz = .half) ∨ (i = .arrRd32 a ∧ sz = .word)

/-- `i` is the array write of size `sz` at `a` with value `v`, zero-extended (rules R185 to R187). -/
def IsArrayWrite (i : Instr) (sz : AccessSize) (a v : Word) : Prop :=
  (∃ x : BitVec 8, i = .arrWr8 a x ∧ sz = .byte ∧ v = x.setWidth 32) ∨
    (∃ x : BitVec 16, i = .arrWr16 a x ∧ sz = .half ∧ v = x.setWidth 32) ∨ (i = .arrWr32 a v ∧ sz = .word)

end Sys2Proof.Machine
end

