-- ==== Sys2Proof/Certificates/Slice0/Obligations.lean ====
section
/-! DEFINITION. The statements for the provers, each from the numbered rules of spec/. A statement that rests on a
choice of the model, not on the spec, says so and names the log entry. -/

open Sys2Proof Sys2Proof.Machine

/-! ## Encoding -/

/-- Rules R110 to R118, R120: the encoding of a well-formed instruction decodes to that instruction, every operand at
every value, for all admitted values of the bases (log entry 18). -/
def Obligations.DecodeOfEncodeIsTheInstruction : Prop :=
  ∀ (p : Params) (i : Instr), paramsOk p → WellFormed p i = true → decode p (encode p i) = .ok i

/-- Rules R113 to R115, R120: whatever the decoder gives is a well-formed instruction, and every bus descriptor
decodes. -/
def Obligations.DecodedInstructionsAreWellFormed : Prop :=
  (∀ (p : Params) (d : Descriptor) (i : Instr), decode p d = .ok i → WellFormed p i = true) ∧
    ∀ (p : Params) (k : BusKey) (x : Word), ∃ i, decode p (.bus k x) = .ok i

/-- Rules R110, R112, R116: no bit of a descriptor is lost. The instruction read from a bus descriptor encodes to the
same descriptor, with the data word cut to the value written; the one read from a command encodes to the same opcode
and, in the thirteen rows of rule R117, the same operands. -/
def Obligations.DecodingKeepsTheDescriptor : Prop :=
  (∀ (p : Params) (k : BusKey) (x : Word) (i : Instr), decode p (.bus k x) = .ok i →
    ∃ y : Word, encode p i = .bus k y ∧ (k.getLsbD 34 = false → y = 0) ∧
      (k.getLsbD 34 = true → y = x ∨ (k.extractLsb' 32 2 = 0 ∧ y = x &&& 0xFF) ∨
        (k.extractLsb' 32 2 = 1 ∧ y = x &&& 0xFFFF))) ∧
  ∀ (p : Params) (op : BitVec 8) (xs : List Operand) (i : Instr), decode p (.cmd op xs) = .ok i →
    ∃ ys, encode p i = .cmd op ys ∧ (1 ≤ op.toNat → op.toNat ≤ 13 → ys = xs)

/-- Rule R124, its six worked encodings, with the default bases. -/
def Obligations.WorkedEncodingsDecode : Prop :=
  decode Params.default (.bus 0x640023C04 0x45670123) = .ok (.keyrWr 0x45670123) ∧
  decode Params.default (.bus 0x240023C0C 0) = .ok .srRd ∧
  decode Params.default (.bus 0x608008000 0x12345678) = .ok (.arrWr32 0x08008000 0x12345678) ∧
  decode Params.default (.bus 0x00807FFFF 0) = .ok (.arrRd8 0x0807FFFF) ∧
  decode Params.default (.bus 0x108000001 0) = .ok (.arrMisaligned false .half 0x08000001 0) ∧
  decode Params.default (.bus 0x540023C10 1) = .ok (.regOther true .half 0x40023C10 1)

/-- Rule R115: the descriptors of rows SZ_RSVD, REG_OTHER, ARR_MISALIGNED and NOT_SELECTED set the refusal mark and
change no other state (`held` is the model's note that the transaction does not hold, log entry 9). The bases are the
parameters, with the spec's addresses as their defaults; that the rows at other bases are the same address ranges is
the model's reading (log entry 18). -/
def Obligations.RefusedDescriptorsSetOnlyTheRefusalMark : Prop :=
  (Params.default.regBase = 0x40023C00 ∧ Params.default.arrayBase = 0x08000000 ∧
    Params.default.arrayLast = 0x0807FFFF) ∧
  (∀ (s : State) (w : Bool) (a x : Word),
    exec (.szRsvd w a x) s = .next { s with refused := true, held := false }) ∧
  (∀ (s : State) (w : Bool) (sz : AccessSize) (a x : Word),
    exec (.regOther w sz a x) s = .next { s with refused := true, held := false } ∧
    exec (.arrMisaligned w sz a x) s = .next { s with refused := true, held := false } ∧
    exec (.notSelected w sz a x) s = .next { s with refused := true, held := false }) ∧
  ∀ (k : BusKey) (x : Word) (s : State), paramsOk s.params → ∀ sz a base : Nat, base = s.params.regBase.toNat →
    sz = (k.toNat / 2 ^ 32) % 4 → a = k.toNat % 2 ^ 32 →
    sz = 3 ∨
    (base ≤ a ∧ a ≤ base + 0x3FF ∧ ¬(sz = 2 ∧ a % 4 = 0 ∧ a ≤ base + 0x14)) ∨
    (s.params.arrayBase ≤ a ∧ a ≤ s.params.arrayLast ∧ a % 2 ^ sz ≠ 0) ∨
    (¬(base ≤ a ∧ a ≤ base + 0x3FF) ∧ ¬(s.params.arrayBase ≤ a ∧ a ≤ s.params.arrayLast)) →
    ∃ i, decode s.params (.bus k x) = .ok i ∧ exec i s = .next { s with refused := true, held := false }

/-- Rule R118: a reserved opcode is refused (said for the six rows CMD_RESERVED too), and a command whose operands fail
its row's check is refused before its first transaction. The widths of SNB and nWRP and the array's bounds are the
parameters, with the rule's numbers as their defaults; that the checks follow them is the model's reading (log entry
18). -/
def Obligations.IllFormedCommandsAreRefused : Prop :=
  (2 ^ Params.default.snbWidth - 1 = 15 ∧ 2 ^ Params.default.wrpWidth - 1 = 0xFF ∧
    Params.default.arrayBase = 0x08000000 ∧ Params.default.arrayLast = 0x0807FFFF) ∧
  (∀ (op : BitVec 8) (xs : List Operand) (s : State), op.toNat = 0 ∨ 0x0E ≤ op.toNat →
    ∃ i, decode s.params (.cmd op xs) = .ok i ∧ exec i s = .next { s with refused := true, held := false }) ∧
  (∀ (i : Instr) (s : State),
    (i = .cmdReserved00 ∨ (∃ x, i = .cmdReserved0E x) ∨ (∃ x, i = .cmdReserved10 x) ∨ (∃ x, i = .cmdReserved20 x) ∨
      (∃ x, i = .cmdReserved40 x) ∨ ∃ x, i = .cmdReserved80 x) →
    exec i s = .next { s with refused := true, held := false }) ∧
  ∀ s : State, s.run = none →
    (∀ n : Word, 2 ^ s.params.snbWidth - 1 < n.toNat →
      exec (.eraseSector n) s = .next { s with refused := true, held := false }) ∧
    (∀ l m : Word, 2 < l.toNat ∨ 2 ^ s.params.wrpWidth - 1 < m.toNat →
      exec (.setProtection l m) s = .next { s with refused := true, held := false }) ∧
    (∀ p : Word, 31 < p.toNat → exec (.isStatusBitSet p) s = .next { s with refused := true, held := false }) ∧
    ∀ (a n : Word) (d : List Byte), d.length = n.toNat →
      (a.toNat % 4 ≠ 0 ∨
        (0 < n.toNat ∧
          (a.toNat < s.params.arrayBase ∨ s.params.arrayLast < a.toNat + 4 * ((n.toNat + 3) / 4) - 1))) →
      exec (.write a n d) s = .next { s with refused := true, held := false }

/-! ## Steps -/

/-- Rules R88, R92, R230: on the host's turn in an unmarked run, step is `exec` of the instruction its request decodes
to; the request leaves the queue when it neither holds nor has transactions left. The queue of requests and the
schedule are the model's inputs (log entries 4 and 5). -/
def Obligations.StepRunsTheDecodedRequest : Prop :=
  ∀ (s u : State) (d : Descriptor) (rest : List Descriptor) (q : List Turn) (i : Instr),
    s.fault = none → s.refused = false → s.program = d :: rest → decode s.params d = .ok i →
    (s.sched = .host :: q ∧ exec i (s.withSched q) = .next u) ∨
      (s.sched = [] ∧ (s.params.engineFair = false ∨ s.pend = .none) ∧ exec i s = .next u) →
    step s = .next (if u.held = true ∨ u.run ≠ none then u else u.withProgram rest)

/-- Rules R92, R200, R287, R321: an engine turn is the engine's step and a reset turn the reset event, marked run or
not; both end with nothing pending and keep the marks. With nothing scheduled, a fair engine takes the turn while an
operation is pending (log entry 5). On the host's turn a marked run stops (rules R230, R287), as the fault `busError`
with the descriptor recorded or as the refusal `runRefused` (log entry 7); with no request left the host idles (log
entry 4); and a request that is no descriptor is refused by name (rule R116, log entry 11). -/
def Obligations.EachTurnStepsItsAgentOrStopsTheHost : Prop :=
  ∀ (s u : State) (q : List Turn),
    (s.sched = .engine :: q → u = engineStep (s.withSched q) →
      step s = .next u ∧ u.pend = .none ∧ u.sched = q ∧ u.fault = s.fault ∧ u.refused = s.refused) ∧
    (s.sched = .reset :: q → u = resetEvent (s.withSched q) →
      step s = .next u ∧ u.ks = .wait1 ∧ u.oks = .wait1 ∧ u.pend = .none ∧ u.sched = q ∧ u.fault = s.fault ∧
        u.refused = s.refused) ∧
    (s.sched = [] → s.params.engineFair = true → s.pend ≠ .none → step s = .next (engineStep s)) ∧
    ((s.sched = .host :: q ∧ u = s.withSched q) ∨
        (s.sched = [] ∧ (s.params.engineFair = false ∨ s.pend = .none) ∧ u = s) →
      (∀ k, s.fault = some k → step s = .fault (.busError k)) ∧
      (s.fault = none → s.refused = true → step s = .refused .runRefused) ∧
      (s.fault = none → s.refused = false → s.program = [] → step s = .next u) ∧
      ∀ d rest op, s.fault = none → s.refused = false → s.program = d :: rest →
        decode s.params d = .error (.operandList op) → step s = .refused (.malformedCommand op))

/-- Rules R200, R244, R295, with the default turn of log entry 5: with nothing scheduled, a fair engine completes the
pending operation and WAIT_UNTIL_IDLE returns; an unfair one leaves the wait in progress for ever. -/
def Obligations.WaitHangsOnlyWithAnUnfairEngine : Prop :=
  ∀ (s : State) (rest : List Descriptor), Ready s → s.pend ≠ .none → s.sched = [] →
    s.program = .cmd 0x0C [] :: rest →
    (s.params.engineFair = true → ∃ t, core.run 2 s = .next t ∧ t.pend = .none ∧ t.run = none ∧ t.program = rest) ∧
    (s.params.engineFair = false → ∀ k, ∃ t, core.run (k + 1) s = .next t ∧ t.pend = s.pend ∧ t.run ≠ none ∧
      t.program = s.program)

/-! ## Invariants -/

/-- Rule R323 with log entry 1: the launch state has the invariant when the parameters are ones the rules admit and the
array and the option bytes given fit them (log entry 18); so has the reset state. -/
def Obligations.InvariantHoldsAtLaunch : Prop :=
  Invariant State.reset ∧
    ∀ (p : Params) (ob : OptFields) (m : Memory), paramsOk p → m.wf p → ob.nwrp.toNat < 2 ^ p.wrpWidth →
      Invariant (State.launch p ob m)

/-- Rules R5, R41, R45, R52, R53: every step keeps the invariant: canonical memory (log entry 1), operations in range,
and every field within its width (log entry 18). -/
def Obligations.StepKeepsTheInvariant : Prop :=
  ∀ s t : State, Invariant s → step s = .next t → Invariant t

/-- Rules R44, R52, R82: the array and the option bytes change only in a step that ends a pending operation (an engine
step, or a reset that interrupts it): the array for a program or an erase, the option bytes for a commit. No
instruction changes either. -/
def Obligations.ArrayAndOptionBytesChangeOnlyByEngineOrReset : Prop :=
  (∀ (i : Instr) (s t : State), exec i s = .next t → t.arr = s.arr ∧ t.ob = s.ob) ∧
  ∀ s t : State, step s = .next t →
    (t.arr ≠ s.arr → t.pend = .none ∧
      ((∃ a sz v, s.pend = .program a sz v) ∨ (∃ n, s.pend = .sectorErase n) ∨ s.pend = .massErase)) ∧
    (t.ob ≠ s.ob → t.pend = .none ∧ ∃ f, s.pend = .optCommit f)

/-- Rules R51, R321: no step clears a mark or changes a parameter. -/
def Obligations.MarksAndParametersSurviveEveryStep : Prop :=
  ∀ s t : State, step s = .next t →
    t.params = s.params ∧ (s.fault ≠ none → t.fault = s.fault) ∧ (s.refused = true → t.refused = true)

/-- Rules R42, R43, R326: a lock opens only from the state that has seen its first key, that state follows only the
initial one, and the lockout ends only at a reset. -/
def Obligations.LocksOpenOnlyThroughTheirKeySequence : Prop :=
  ∀ s t : State, step s = .next t →
    (t.ks = .opened → s.ks = .opened ∨ s.ks = .wait2) ∧
    (t.ks = .wait2 → s.ks = .wait2 ∨ s.ks = .wait1) ∧
    (s.ks = .lockout → t.ks = .lockout ∨ (t.ks = .wait1 ∧ ∃ q, s.sched = .reset :: q)) ∧
    (t.oks = .opened → s.oks = .opened ∨ s.oks = .wait2) ∧
    (t.oks = .wait2 → s.oks = .wait2 ∨ s.oks = .wait1) ∧
    (s.oks = .lockout → t.oks = .lockout ∨ (t.oks = .wait1 ∧ ∃ q, s.sched = .reset :: q))

/-- Rule R43: neither key machine reads or writes the other. -/
def Obligations.KeyMachinesAreIndependent : Prop :=
  ∀ (v : Word) (x : KeyState) (s t : State),
    (exec (.keyrWr v) s = .next t → t.oks = s.oks ∧ exec (.keyrWr v) (s.withOks x) = .next (t.withOks x)) ∧
    (exec (.crWr v) s = .next t → t.oks = s.oks ∧ exec (.crWr v) (s.withOks x) = .next (t.withOks x)) ∧
    (exec (.optkeyrWr v) s = .next t → t.ks = s.ks ∧ exec (.optkeyrWr v) (s.withKs x) = .next (t.withKs x)) ∧
    (exec (.optcrWr v) s = .next t → t.ks = s.ks ∧ exec (.optcrWr v) (s.withKs x) = .next (t.withKs x))

/-- Rules R207, R325, R327, R150, R153, R184: while an operation is pending no instruction changes it, CR's fields,
OPTCR's fields, the option bytes or the array. With none pending, an instruction starts a program or an erase only while
CR is open and a commit only while OPTCR is open. -/
def Obligations.OperationsStartUnlockedAndRunUndisturbed : Prop :=
  ∀ (i : Instr) (s t : State), exec i s = .next t →
    (s.pend ≠ .none → t.pend = s.pend ∧ t.cr = s.cr ∧ t.optcr = s.optcr ∧ t.ob = s.ob ∧ t.arr = s.arr) ∧
    (s.pend = .none →
      ((∃ a sz v, t.pend = .program a sz v) ∨ (∃ n, t.pend = .sectorErase n) ∨ t.pend = .massErase →
        s.ks = .opened) ∧
      ((∃ f, t.pend = .optCommit f) → s.oks = .opened))

/-! ## Key registers -/

/-- Rule R144: the next expected key moves the sequence on; every other key write locks CR out and raises BusError with
the descriptor of KEYR_WR. The keys, their width and the register's address are parameters, with the rule's values as
their defaults; with the default width a candidate is a key exactly when the words are equal, and that a narrower key is
compared on its own bits is the model's reading (log entry 18). -/
def Obligations.KeyrWriteFollowsTheKeySequence : Prop :=
  (Params.default.key1 = 0x45670123 ∧ Params.default.key2 = 0xCDEF89AB ∧ keyrKey Params.default = 0x640023C04 ∧
    ∀ v k : Word, sameKey Params.default.keyWidth v k = true ↔ v = k) ∧
  ∀ (v : Word) (s : State) (isKey : Word → Prop), (∀ k, isKey k ↔ sameKey s.params.keyWidth v k = true) →
    (s.ks = .wait1 → isKey s.params.key1 → exec (.keyrWr v) s = .next { s with ks := .wait2, held := false }) ∧
    (s.ks = .wait2 → isKey s.params.key2 → exec (.keyrWr v) s = .next { s with ks := .opened, held := false }) ∧
    (¬(s.ks = .wait1 ∧ isKey s.params.key1) → ¬(s.ks = .wait2 ∧ isKey s.params.key2) →
      exec (.keyrWr v) s = .next { s with ks := .lockout, fault := some (keyrKey s.params), held := false })

/-- Rule R146: the same for OPTKEYR and its keys, the parameters OPTKEY1 and OPTKEY2 (their width: log entry 18). -/
def Obligations.OptkeyrWriteFollowsTheKeySequence : Prop :=
  (Params.default.optkey1 = 0x08192A3B ∧ Params.default.optkey2 = 0x4C5D6E7F ∧
    optkeyrKey Params.default = 0x640023C08 ∧ ∀ v k : Word, sameKey Params.default.keyWidth v k = true ↔ v = k) ∧
  ∀ (v : Word) (s : State) (isKey : Word → Prop), (∀ k, isKey k ↔ sameKey s.params.keyWidth v k = true) →
    (s.oks = .wait1 → isKey s.params.optkey1 →
      exec (.optkeyrWr v) s = .next { s with oks := .wait2, held := false }) ∧
    (s.oks = .wait2 → isKey s.params.optkey2 →
      exec (.optkeyrWr v) s = .next { s with oks := .opened, held := false }) ∧
    (¬(s.oks = .wait1 ∧ isKey s.params.optkey1) → ¬(s.oks = .wait2 ∧ isKey s.params.optkey2) →
      exec (.optkeyrWr v) s = .next { s with oks := .lockout, fault := some (optkeyrKey s.params), held := false })

/-! ## Register reads -/

/-- Rules R141, R143, R145: ACR reads its fields at their positions, reserved bits 0 (those between LATENCY, four bits
by default, and bit 8 in every state with the invariant: log entry 18); the key registers read 0. -/
def Obligations.AcrAndKeyReadsReturnTheirFields : Prop :=
  Params.default.latencyWidth = 4 ∧ ∀ s : State,
    exec .keyrRd s = .next { s with rdata := 0, held := false } ∧
    exec .optkeyrRd s = .next { s with rdata := 0, held := false } ∧
    ∃ v : Word, exec .acrRd s = .next { s with rdata := v, held := false } ∧
      v.extractLsb' 0 8 = s.acr.latency ∧
      (Invariant s → ∀ i, s.params.latencyWidth ≤ i → i < 8 → v.getLsbD i = false) ∧ v.getLsbD 8 = s.acr.prften ∧
      v.getLsbD 9 = s.acr.icen ∧ v.getLsbD 10 = s.acr.dcen ∧ v.getLsbD 11 = s.acr.icrst ∧
      v.getLsbD 12 = s.acr.dcrst ∧ v.extractLsb' 13 19 = 0

/-- Rules R147, R37: SR reads its flags at their positions, BSY while an operation is pending, reserved bits 0. -/
def Obligations.SrReadReturnsFlagsAndBusy : Prop :=
  ∀ s : State, ∃ v : Word, exec .srRd s = .next { s with rdata := v, held := false } ∧
    v.getLsbD 0 = s.sr.eop ∧ v.getLsbD 1 = s.sr.operr ∧ v.extractLsb' 2 2 = 0 ∧ v.getLsbD 4 = s.sr.wrperr ∧
    v.getLsbD 5 = s.sr.pgaerr ∧ v.getLsbD 6 = s.sr.pgperr ∧ v.getLsbD 7 = s.sr.pgserr ∧ v.getLsbD 8 = s.sr.rderr ∧
    v.extractLsb' 9 7 = 0 ∧ (v.getLsbD 16 = true ↔ s.pend ≠ .none) ∧ v.extractLsb' 17 15 = 0

/-- Rules R149, R38: CR reads its fields at their positions, LOCK unless the key machine is open, STRT while an erase
is pending, reserved bits 0 (those above SNB and PSIZE, four and two bits by default, in every state with the
invariant: log entry 18). -/
def Obligations.CrReadReturnsFieldsLockAndStart : Prop :=
  (Params.default.snbWidth = 4 ∧ Params.default.psizeWidth = 2) ∧
  ∀ s : State, ∃ v : Word, exec .crRd s = .next { s with rdata := v, held := false } ∧
    v.getLsbD 0 = s.cr.pg ∧ v.getLsbD 1 = s.cr.ser ∧ v.getLsbD 2 = s.cr.mer ∧ v.extractLsb' 3 5 = s.cr.snb ∧
    v.extractLsb' 8 8 = s.cr.psize ∧
    (Invariant s → ∀ i, (s.params.snbWidth ≤ i → i < 5 → v.getLsbD (3 + i) = false) ∧
      (s.params.psizeWidth ≤ i → i < 8 → v.getLsbD (8 + i) = false)) ∧
    (v.getLsbD 16 = true ↔ (∃ n, s.pend = .sectorErase n) ∨ s.pend = .massErase) ∧ v.extractLsb' 17 7 = 0 ∧
    v.getLsbD 24 = s.cr.eopie ∧ v.getLsbD 25 = s.cr.errie ∧ v.extractLsb' 26 5 = 0 ∧
    (v.getLsbD 31 = true ↔ s.ks ≠ .opened)

/-- Rules R152, R40, R41: OPTCR reads its fields at their positions, OPTLOCK unless its key machine is open, OPTSTRT
while a commit is pending, and `OPTCR_RSVD` in the reserved bits. nWRP reads in bits 23:16; where WRP_WIDTH is below its
default 8, the rest of them read 0 in every state with the invariant (log entry 18). -/
def Obligations.OptcrReadReturnsFieldsLockAndStart : Prop :=
  Params.default.wrpWidth = 8 ∧ ∀ s : State, ∃ v : Word, exec .optcrRd s = .next { s with rdata := v, held := false } ∧
    (v.getLsbD 0 = true ↔ s.oks ≠ .opened) ∧ (v.getLsbD 1 = true ↔ ∃ f, s.pend = .optCommit f) ∧
    v.extractLsb' 2 2 = s.optcr.borLev ∧ v.getLsbD 4 = s.params.optcrRsvd.getLsbD 4 ∧ v.getLsbD 5 = s.optcr.wdgSw ∧
    v.getLsbD 6 = s.optcr.nrstStop ∧ v.getLsbD 7 = s.optcr.nrstStdby ∧ v.extractLsb' 8 8 = s.optcr.rdp ∧
    v.extractLsb' 16 8 = s.optcr.nwrp ∧
    (Invariant s → ∀ i, s.params.wrpWidth ≤ i → i < 8 → v.getLsbD (16 + i) = false) ∧
    v.extractLsb' 24 7 = s.params.optcrRsvd.extractLsb' 24 7 ∧
    v.getLsbD 31 = s.optcr.sprmod

/-! ## Register writes -/

/-- Rule R142: ACR stores its fields in every state, LATENCY in its width (four bits by default), and a write with
DCRST = 1 and DCEN = 0 empties `Stale`; the word reads back with its reserved bits 0 (for another width as log
entry 18 says). -/
def Obligations.AcrWriteStoresFieldsAndResetsTheCache : Prop :=
  Params.default.latencyWidth = 4 ∧ ∀ (v : Word) (s : State), ∃ t u : State, exec (.acrWr v) s = .next t ∧
    t = { s with
      acr := ⟨(v.extractLsb' 0 s.params.latencyWidth).setWidth 8, v.getLsbD 8, v.getLsbD 9, v.getLsbD 10,
        v.getLsbD 11, v.getLsbD 12⟩,
      stale := if v.getLsbD 12 = true ∧ v.getLsbD 10 = false then [] else s.stale,
      held := false } ∧
    exec .acrRd t = .next u ∧
    (s.params.latencyWidth ≤ 8 → u.rdata = v &&& BitVec.ofNat 32 (0x1F00 + (2 ^ s.params.latencyWidth - 1)))

/-- Rule R148: each flag whose bit is written 1 clears, every other flag stays, and nothing else changes; the register
then reads what it read before with those bits clear. -/
def Obligations.SrWriteClearsTheFlagsWrittenOne : Prop :=
  ∀ (v : Word) (s : State), ∃ t u w : State, exec (.srWr v) s = .next t ∧
    t = { s with
      sr := ⟨s.sr.eop && !v.getLsbD 0, s.sr.operr && !v.getLsbD 1, s.sr.wrperr && !v.getLsbD 4,
        s.sr.pgaerr && !v.getLsbD 5, s.sr.pgperr && !v.getLsbD 6, s.sr.pgserr && !v.getLsbD 7,
        s.sr.rderr && !v.getLsbD 8⟩,
      held := false } ∧
    exec .srRd s = .next u ∧ exec .srRd t = .next w ∧ w.rdata = u.rdata &&& ~~~(v &&& 0x000001F3)

/-- Rule R150, no start: while CR is locked the fields are stored or not as `LOCKED_CR_WRITE` says, and STRT and LOCK
have no effect; while it is open and STRT is written 0 the fields are stored and LOCK written 1 locks. SNB and PSIZE
are stored in their widths (log entry 18). -/
def Obligations.CrWriteWithoutStartStoresTheFields : Prop :=
  ∀ (v : Word) (s : State) (c : CrFields), s.pend = .none →
    c = ⟨v.getLsbD 0, v.getLsbD 1, v.getLsbD 2, (v.extractLsb' 3 s.params.snbWidth).setWidth 5,
      (v.extractLsb' 8 s.params.psizeWidth).setWidth 8, v.getLsbD 24, v.getLsbD 25⟩ →
    (s.ks ≠ .opened → exec (.crWr v) s = .next { s with
      cr := if s.params.lockedCrWrite = .fieldsApplied then c else s.cr,
      held := false }) ∧
    (s.ks = .opened → v.getLsbD 16 = false → exec (.crWr v) s = .next { s with
      cr := c,
      ks := if v.getLsbD 31 = true then .wait1 else .opened,
      held := false })

/-- Rules R150, R151, R282, R283, CR open and STRT written 1: the fields `c` are stored, then the start is checked with
them, then LOCK written 1 locks. The request is dropped only while a sticky flag is set, as a draw. That SNB and PSIZE
are stored in SNB_WIDTH and PSIZE_WIDTH bits from bits 3 and 8 on, for every width, and that the sectors checked are
those below N_SECTORS, is the model's choice (log entry 18). -/
def Obligations.CrWriteWithStartIsCheckedOrDropped : Prop :=
  ∀ (v : Word) (s b : State) (c : CrFields), s.pend = .none → s.ks = .opened → v.getLsbD 16 = true →
    c = ⟨v.getLsbD 0, v.getLsbD 1, v.getLsbD 2, (v.extractLsb' 3 s.params.snbWidth).setWidth 5,
      (v.extractLsb' 8 s.params.psizeWidth).setWidth 8, v.getLsbD 24, v.getLsbD 25⟩ →
    b = { s with
      cr := c,
      ks := if v.getLsbD 31 = true then .wait1 else .opened,
      draws := if sticky s.sr = true then s.draws + 1 else s.draws,
      held := false } →
    (sticky s.sr = true ∧ exec (.crWr v) s = .next b) ∨
    ((c.pg = false ∧ c.ser = true ∧ c.mer = false → c.snb.toNat < s.params.nSectors ∧ wprot s.ob c.snb.toNat = true →
        exec (.crWr v) s =
          .next { b with sr := { s.sr with wrperr := true, operr := s.sr.operr || c.errie } }) ∧
     (c.pg = false ∧ c.ser = true ∧ c.mer = false → ¬(c.snb.toNat < s.params.nSectors ∧ wprot s.ob c.snb.toNat = true) →
        exec (.crWr v) s = .next { b with pend := .sectorErase c.snb }) ∧
     (c.pg = false ∧ c.ser = false ∧ c.mer = true → (∃ i, i < s.params.nSectors ∧ wprot s.ob i = true) →
        exec (.crWr v) s =
          .next { b with sr := { s.sr with wrperr := true, operr := s.sr.operr || c.errie } }) ∧
     (c.pg = false ∧ c.ser = false ∧ c.mer = true → (∀ i, i < s.params.nSectors → wprot s.ob i = false) →
        exec (.crWr v) s = .next { b with pend := .massErase }) ∧
     (¬(c.pg = false ∧ c.ser = true ∧ c.mer = false) → ¬(c.pg = false ∧ c.ser = false ∧ c.mer = true) →
        exec (.crWr v) s =
          .next { b with sr := { s.sr with pgserr := true, operr := s.sr.operr || c.errie } }))

/-- Rules R153, R154: an OPTCR write holds while an operation is pending and is ignored while option-locked; else it
stores its fields (nWRP in its width: log entry 18), OPTSTRT written 1 starts the commit of the fields just stored, and
OPTLOCK written 1 then locks. That a hold is a next state which notes it is the model's choice (log entry 9). -/
def Obligations.OptcrWriteStoresCommitsAndLocks : Prop :=
  ∀ (v : Word) (s : State) (f : OptFields),
    f = ⟨(v.extractLsb' 16 s.params.wrpWidth).setWidth 8, v.getLsbD 31, v.extractLsb' 8 8, v.extractLsb' 2 2,
      v.getLsbD 5, v.getLsbD 6, v.getLsbD 7⟩ →
    (s.pend ≠ .none → exec (.optcrWr v) s = .next { s with held := true }) ∧
    (s.pend = .none → s.oks ≠ .opened → exec (.optcrWr v) s = .next { s with held := false }) ∧
    (s.pend = .none → s.oks = .opened → exec (.optcrWr v) s = .next { s with
      optcr := f,
      pend := if v.getLsbD 1 = true then .optCommit f else .none,
      oks := if v.getLsbD 0 = true then .wait1 else .opened,
      held := false })

/-- Rules R140, R150, R153, R181 to R187, R230, R325: while an operation is pending, writes to CR, OPTCR and the array
and reads of the array hold, and so does a command, at every position, whose next transaction is one of them (the
position stays), and a READ at its first byte. That a hold is a next state which notes it is the model's choice (log
entry 9). -/
def Obligations.BusyTransactionsHold : Prop :=
  ∀ s : State, s.pend ≠ .none →
    (∀ v, exec (.crWr v) s = .next { s with held := true } ∧ exec (.optcrWr v) s = .next { s with held := true }) ∧
    (∀ i sz a, IsArrayRead i sz a → WellFormed s.params i = true → exec i s = .next { s with held := true }) ∧
    (∀ i sz a v, IsArrayWrite i sz a v → WellFormed s.params i = true → exec i s = .next { s with held := true }) ∧
    (∀ i p e u, expansionOf s.params i = some e → s.run = some p → p.cmd = i → e.txnAt p.idx = some u →
      HoldsWhileBusy s.params u ∨ microTxn u p s = none → exec i s = .next { s with held := true }) ∧
    (∀ a n : Word, s.run = none → s.params.arrayBase ≤ a.toNat → a.toNat ≤ s.params.arrayLast →
      a.toNat + n.toNat ≤ s.params.endAddr.toNat → 0 < n.toNat →
      exec (.read a n) s = .next { s with run := some ⟨.read a n, 0, 0, []⟩, held := true })

/-! ## Protection -/

/-- Rules R49, R50: the truth table of the protection levels, and what is write- and read-protected by the option
bytes. -/
def Obligations.ProtectionFollowsTheTruthTable : Prop :=
  (∀ (b : BitVec 8) (i : Nat), i < 8 →
    (b.getLsbD i = false → level false b i = .write) ∧ (b.getLsbD i = true → level false b i = .none) ∧
    (b.getLsbD i = false → level true b i = .none) ∧ (b.getLsbD i = true → level true b i = .readWrite)) ∧
  ∀ (ob : OptFields) (i : Nat), i < 8 →
    (wprot ob i = true ↔ ob.nwrp.getLsbD i = ob.sprmod) ∧
    (rprot ob i = true ↔ ob.sprmod = true ∧ ob.nwrp.getLsbD i = true)

/-- Rules R46, R47: the array's bounds and the sector map, and that for every admitted value of the parameters (log
entry 18) every array byte lies in exactly one sector and no other address lies in one. -/
def Obligations.SectorsCoverTheArrayExactly : Prop :=
  (∀ p, p = Params.default → sectorMapOk p = true ∧ p.arrayBase = 0x08000000 ∧ p.arrayLast = 0x0807FFFF ∧
    p.nSectors = 8 ∧ p.sectorMap =
      [(0x08000000, 0x4000), (0x08004000, 0x4000), (0x08008000, 0x4000), (0x0800C000, 0x4000), (0x08010000, 0x10000),
        (0x08020000, 0x20000), (0x08040000, 0x20000), (0x08060000, 0x20000)]) ∧
  ∀ (p : Params) (m : SectorMap), sectorMapOk p = true → m = p.sectorMap →
    (∀ i, p.nSectors ≤ i → (sectorRange m i).2 = 0) ∧
    ∀ a : Nat,
      (p.arrayBase ≤ a ∧ a ≤ p.arrayLast ↔ ∃ i, sectorOf m a = some i) ∧
      ∀ i, sectorOf m a = some i ↔
        i < p.nSectors ∧ (sectorRange m i).1 ≤ a ∧ a < (sectorRange m i).1 + (sectorRange m i).2

/-! ## Array reads -/

/-- Rules R180 to R183, R190: a well-timed read with no byte in a read-protected sector returns the stored bytes,
little-endian and zero-extended, when DCEN = 0 or no stale byte is remembered for them. The address range of a
well-formed read is the array's; `draws` is the model's count of free values (log entry 6). -/
def Obligations.ArrayReadReturnsTheStoredBytes : Prop :=
  ∀ (i : Instr) (sz : AccessSize) (a : Word) (s : State), IsArrayRead i sz a → WellFormed s.params i = true →
    s.pend = .none → WellTimed s → (∀ j, j < nbytes sz → ¬ReadProtectedByte s (a.toNat + j)) →
    (s.acr.dcen = false ∨ ∀ j, j < nbytes sz → staleAt s.stale (a.toNat + j) = []) →
    ∃ (v : Word) (d : Nat), exec i s = .next { s with rdata := v, draws := d, held := false } ∧
      v.toNat < 2 ^ (8 * nbytes sz) ∧
      ∀ j, j < nbytes sz → v.extractLsb' (8 * j) 8 = readByte s.arr (a.toNat + j)

/-- Rule R190: with DCEN = 1 each byte returned is the stored byte or one of the stale candidates of its address, for
every value of the free draw. -/
def Obligations.CachedReadReturnsStoredOrStaleBytes : Prop :=
  ∀ (i : Instr) (sz : AccessSize) (a : Word) (s : State), IsArrayRead i sz a → WellFormed s.params i = true →
    s.pend = .none → WellTimed s → (∀ j, j < nbytes sz → ¬ReadProtectedByte s (a.toNat + j)) → s.acr.dcen = true →
    ∃ (v : Word) (d : Nat), exec i s = .next { s with rdata := v, draws := d, held := false } ∧
      v.toNat < 2 ^ (8 * nbytes sz) ∧
      ∀ j, j < nbytes sz →
        v.extractLsb' (8 * j) 8 ∈ readByte s.arr (a.toNat + j) :: staleAt s.stale (a.toNat + j)

/-- Rules R180, R188, R189, R286 (b): a well-timed read with a byte in a read-protected sector sets RDERR; a read that
fails the timing condition sets no flag, protected or not. Either returns a free value, the same whatever the array
holds, so the stored bytes are not revealed. -/
def Obligations.ProtectedOrUnderclockedReadHidesTheBytes : Prop :=
  ∀ (i : Instr) (sz : AccessSize) (a : Word) (s : State) (f : SrFlags), IsArrayRead i sz a →
    WellFormed s.params i = true →
    s.pend = .none →
    (WellTimed s ∧ (∃ j, j < nbytes sz ∧ ReadProtectedByte s (a.toNat + j)) ∧ f = { s.sr with rderr := true }) ∨
      (¬WellTimed s ∧ f = s.sr) →
    ∃ (v : Word) (d : Nat), v.toNat < 2 ^ (8 * nbytes sz) ∧
      ∀ m : Memory, exec i (s.withArr m) =
        .next { s with arr := m, sr := f, rdata := v, draws := d, held := false }

/-! ## Array writes -/

/-- Rules R184 to R187, R283: with no sticky flag set, a program request sets every error flag that applies (and OPERR
while ERRIE = 1), or starts the program if none applies. `w`, `p` and `g` say which of the three errors applies. That a
PSIZE code above 3, to which rule R39 gives no size, sets PGPERR is the model's choice (log entry 18). -/
def Obligations.ProgramRequestStartsOrFlagsEveryError : Prop :=
  ∀ (i : Instr) (sz : AccessSize) (a v : Word) (s : State) (w p g : Bool), IsArrayWrite i sz a v →
    WellFormed s.params i = true → s.pend = .none → sticky s.sr = false →
    (w = true ↔ WriteProtectedByte s a.toNat) →
    (p = true ↔ nbytes sz ≠ 2 ^ s.cr.psize.toNat) →
    (g = true ↔ s.ks ≠ .opened ∨ ¬(s.cr.pg = true ∧ s.cr.ser = false ∧ s.cr.mer = false)) →
    exec i s = .next (if (w || p || g) = true then
      { s with
        sr := { s.sr with
          wrperr := s.sr.wrperr || w, pgperr := s.sr.pgperr || p, pgserr := s.sr.pgserr || g,
          operr := s.sr.operr || s.cr.errie },
        held := false }
      else { s with pend := .program a sz v, held := false })

/-- Rules R184, R282: with a sticky flag set, a program request is dropped with no flag changed, or checked as usual, as
a free draw (counted in `draws`, log entry 6). That a PSIZE code above 3, to which rule R39 gives no size, then sets
PGPERR is the model's choice (log entry 18). -/
def Obligations.StickyProgramRequestIsDroppedOrChecked : Prop :=
  ∀ (i : Instr) (sz : AccessSize) (a v : Word) (s b : State) (w p g : Bool), IsArrayWrite i sz a v →
    WellFormed s.params i = true → s.pend = .none → sticky s.sr = true →
    b = { s with draws := s.draws + 1, held := false } →
    (w = true ↔ WriteProtectedByte s a.toNat) →
    (p = true ↔ nbytes sz ≠ 2 ^ s.cr.psize.toNat) →
    (g = true ↔ s.ks ≠ .opened ∨ ¬(s.cr.pg = true ∧ s.cr.ser = false ∧ s.cr.mer = false)) →
    exec i s = .next b ∨
    exec i s = .next (if (w || p || g) = true then
      { b with
        sr := { s.sr with
          wrperr := s.sr.wrperr || w, pgperr := s.sr.pgperr || p, pgserr := s.sr.pgserr || g,
          operr := s.sr.operr || s.cr.errie } }
      else { b with pend := .program a sz v })

/-! ## The engine -/

/-- Rules R201, R205, R206: a completed program leaves its bytes in its unit if every byte of it was erased (the
parameter ERASED_BYTE, 0xFF by default); else the unit's bytes are free. Outside the unit nothing changes, the old
bytes join `Stale` (a list of remembered ranges in the model, log entry 8), and EOP is set while EOPIE = 1. -/
def Obligations.ProgramCompletionWritesOnlyItsUnit : Prop :=
  Params.default.erasedByte = 0xFF ∧ ∀ (s : State) (a : Word) (sz : AccessSize) (v : Word), s.pend = .program a sz v →
    ∃ (m : Memory) (st : List StaleRange) (d : Nat),
      engineStep s = { s with
        arr := m, stale := st, draws := d, pend := .none, sr := { s.sr with eop := s.sr.eop || s.cr.eopie } } ∧
      ((∀ j, j < nbytes sz → readByte s.arr (a.toNat + j) = s.params.erasedByte) →
        d = s.draws ∧ ∀ j, j < nbytes sz → readByte m (a.toNat + j) = v.extractLsb' (8 * j) 8) ∧
      (∀ b, ¬(a.toNat ≤ b ∧ b < a.toNat + nbytes sz) →
        readByte m b = readByte s.arr b ∧ staleAt st b = staleAt s.stale b) ∧
      ∀ b, a.toNat ≤ b ∧ b < a.toNat + nbytes sz → staleAt st b = readByte s.arr b :: staleAt s.stale b

/-- Rules R202, R205, R206: a completed sector erase leaves ERASED_BYTE (0xFF by default) in every byte of its sector,
unless PSIZE is x64, when they are free, and the old bytes join `Stale` (a list of remembered ranges in the model, log
entry 8); outside the sector (for sector numbers from N_SECTORS = 8 up everywhere; other values: log entry
18) nothing changes. -/
def Obligations.SectorEraseCompletionErasesOnlyItsSector : Prop :=
  (Params.default.erasedByte = 0xFF ∧ Params.default.nSectors = 8 ∧
    ∀ (s : State) (n b : Nat), sectorMapOk s.params = true → s.params.nSectors ≤ n → ¬InSector s n b) ∧
  ∀ (s : State) (n : BitVec 5), s.pend = .sectorErase n →
    ∃ (m : Memory) (st : List StaleRange) (d : Nat),
      engineStep s = { s with
        arr := m, stale := st, draws := d, pend := .none, sr := { s.sr with eop := s.sr.eop || s.cr.eopie } } ∧
      (∀ b, InSector s n.toNat b → staleAt st b = readByte s.arr b :: staleAt s.stale b ∧
        (s.cr.psize.toNat < 3 → readByte m b = s.params.erasedByte)) ∧
      ∀ b, ¬InSector s n.toNat b → readByte m b = readByte s.arr b ∧ staleAt st b = staleAt s.stale b

/-- Rules R203, R205, R206: a completed mass erase leaves ERASED_BYTE (0xFF by default) in every byte of the array (free
ones with PSIZE x64), and the old bytes join `Stale` (a list of remembered ranges in the model, log entry 8); the option
bytes stay. -/
def Obligations.MassEraseCompletionErasesTheArray : Prop :=
  (Params.default.erasedByte = 0xFF ∧ Params.default.arrayBase = 0x08000000 ∧ Params.default.arrayLast = 0x0807FFFF) ∧
  ∀ s : State, s.pend = .massErase →
    ∃ (m : Memory) (st : List StaleRange) (d : Nat),
      engineStep s = { s with
        arr := m, stale := st, draws := d, pend := .none, sr := { s.sr with eop := s.sr.eop || s.cr.eopie } } ∧
      ∀ b, s.params.arrayBase ≤ b → b ≤ s.params.arrayLast →
        staleAt st b = readByte s.arr b :: staleAt s.stale b ∧
          (s.cr.psize.toNat < 3 → readByte m b = s.params.erasedByte)

/-- Rule R204: a completed commit makes the option bytes the committed fields; only while `PCROP_WEAKEN = Either`, and
only for a commit that weakens PCROP, may they be the old ones, whole. Nothing else changes but the model's count of
draws (log entry 6); EOP is not written. That the rule's "exists i < 8" over nWRP is i < N_SECTORS, for every value of
the parameters, is the model's choice (log entry 18). -/
def Obligations.OptionCommitTakesTheNewFieldsOrKeepsTheOld : Prop :=
  ∀ (s : State) (f : OptFields), s.pend = .optCommit f →
    ∃ (ob : OptFields) (d : Nat), engineStep s = { s with ob := ob, draws := d, pend := .none } ∧
      (ob = f ∨ (ob = s.ob ∧ s.params.pcropWeaken = .either ∧ s.ob.sprmod = true ∧
        (f.sprmod = false ∨ ∃ i, i < s.params.nSectors ∧ s.ob.nwrp.getLsbD i = true ∧ f.nwrp.getLsbD i = false)))

/-- Rules R200, R207: with nothing pending the engine has no step, which the model says as an engine turn that changes
nothing (its choice, log entry 5); its step writes only `Arr`, `OB`, `Stale`, `pend` and SR.EOP (and the model's count
of draws); and what it writes depends only on those, CR.PSIZE, CR.EOPIE and the parameters, so not on the key
machines, ACR, OPTCR, the error flags, CR's mode and SNB, or the host. -/
def Obligations.EngineReadsAndWritesOnlyItsOwnState : Prop :=
  (∀ s : State, s.pend = .none → engineStep s = s) ∧
  ∀ s t : State, t.pend = s.pend → t.arr = s.arr → t.ob = s.ob → t.stale = s.stale → t.draws = s.draws →
    t.params = s.params → t.sr.eop = s.sr.eop → t.cr.psize = s.cr.psize → t.cr.eopie = s.cr.eopie →
    engineStep t = { t with
      arr := (engineStep s).arr, ob := (engineStep s).ob, stale := (engineStep s).stale,
      draws := (engineStep s).draws, pend := .none, sr := { t.sr with eop := (engineStep s).sr.eop } }

/-! ## Reset -/

/-- Rules R320 to R322: reset puts every volatile field at its reset value, loads OPTCR from the option bytes,
discards the command in progress (with its request in the model's queue, log entry 10), and keeps the marks, the
parameters, the array and the option bytes but for the target of an interrupted operation. -/
def Obligations.ResetEventClearsVolatileStateOnly : Prop :=
  ∀ s : State, ∃ (m : Memory) (ob : OptFields) (d : Nat),
    resetEvent s = { s with
      acr := ⟨0, false, false, false, false, false⟩,
      sr := ⟨false, false, false, false, false, false, false⟩,
      cr := ⟨false, false, false, 0, 0, false, false⟩,
      optcr := ob, ks := .wait1, oks := .wait1, pend := .none, ob := ob, arr := m, stale := [], run := none,
      held := false, draws := d,
      program := if s.run = none then s.program else s.program.tail } ∧
    (s.pend = .none → m = s.arr ∧ ob = s.ob) ∧
    (∀ a sz v, s.pend = .program a sz v → ob = s.ob ∧
      ∀ b, ¬(a.toNat ≤ b ∧ b < a.toNat + nbytes sz) → readByte m b = readByte s.arr b) ∧
    (∀ n, s.pend = .sectorErase n → ob = s.ob ∧
      ∀ b, ¬InSector s n.toNat b → readByte m b = readByte s.arr b) ∧
    (s.pend = .massErase → ob = s.ob ∧
      ∀ b, ¬(s.params.arrayBase ≤ b ∧ b ≤ s.params.arrayLast) → readByte m b = readByte s.arr b) ∧
    ∀ f, s.pend = .optCommit f → m = s.arr

/-- Rules R33, R44, R323: the registers of the launch state, with the factory option bytes, read their reset values for
every array and every other parameter; no operation is pending and no mark is set. -/
def Obligations.LaunchRegistersReadTheirResetValues : Prop :=
  ∀ (p : Params) (m : Memory) (s : State), s = State.launch p OptFields.factory m →
    p.optcrRsvd = 0x0F000000 →
    s.pend = .none ∧ s.fault = none ∧ s.refused = false ∧ s.run = none ∧ s.arr = m ∧
    exec .acrRd s = .next { s with rdata := 0x00000000 } ∧ exec .keyrRd s = .next { s with rdata := 0x00000000 } ∧
    exec .optkeyrRd s = .next { s with rdata := 0x00000000 } ∧ exec .srRd s = .next { s with rdata := 0x00000000 } ∧
    exec .crRd s = .next { s with rdata := 0x80000000 } ∧ exec .optcrRd s = .next { s with rdata := 0x0FFFAAED }

/-- Rule R284: the interrupt output, from the words the status and control registers read. -/
def Obligations.InterruptOutputIsItsEquationOverTheRegisters : Prop :=
  ∀ s : State, ∃ u w : State, exec .srRd s = .next u ∧ exec .crRd s = .next w ∧
    irq s = ((u.rdata.getLsbD 0 && w.rdata.getLsbD 24) ||
      (w.rdata.getLsbD 25 && (u.rdata.getLsbD 1 || u.rdata.getLsbD 8)))

/-! ## Commands -/

/-- Rules R121, R122, R230: a transaction of a command's expansion is the bus instruction its descriptor decodes to: it
completes with the same state, or holds, as `exec` of that instruction does. The addresses of WRITE's array
transactions are the array's (rule R239), and the parameters are admitted ones. That a hold is a next state which notes
it is the model's choice (log entry 9). -/
def Obligations.CommandTransactionsAreBusInstructions : Prop :=
  ∀ (u : Micro) (p : Position) (s : State),
    paramsOk s.params → (∀ a d, u = .wrData a d → arrayAddressOk s.params .word a = true) →
    ∃ i, decode s.params (microDescriptor u p s) = .ok i ∧
      (microTxn u p s = none → exec i s = .next { s with held := true }) ∧
      ∀ t, microTxn u p s = some t → exec i s = .next { t with held := false }

/-- Rule R292: a command that begins while another is incomplete is refused (as the model reads it: log entry 12). -/
def Obligations.InterleavedCommandIsRefused : Prop :=
  ∀ (i : Instr) (p : Position) (s : State) (op : BitVec 8) (xs : List Operand), s.run = some p → p.cmd ≠ i →
    decode s.params (.cmd op xs) = .ok i → 1 ≤ op.toNat → op.toNat ≤ 13 →
    exec i s = .next { s with refused := true, held := false }

/-- Rules R230, R232 to R236, R239 to R241, R243: the first transaction of the nine commands that go on after it (INIT,
the two locks, the two unlocks, WRITE, the two erases, SET_PROTECTION) is the bus instruction its expansion begins with,
and the command then stands at its next one; after a BusError it stops where it is. The operand checks follow SNB_WIDTH
and WRP_WIDTH (log entry 18). -/
def Obligations.CommandsBeginWithTheirFirstTransaction : Prop :=
  ∀ s : State, Ready s →
    (∃ u, exec .acrRd s = .next u ∧
      ∀ f, exec (.init f) s = .next { u with run := some ⟨.init f, 1, u.rdata, []⟩ }) ∧
    (∃ u, exec .crRd s = .next u ∧ exec .lock s = .next { u with run := some ⟨.lock, 1, u.rdata, []⟩ }) ∧
    (∃ u, exec .optcrRd s = .next u ∧ exec .optLock s = .next { u with run := some ⟨.optLock, 1, u.rdata, []⟩ }) ∧
    (∃ u, exec (.keyrWr s.params.key1) s = .next u ∧
      ∀ i, (i = .unlock ∨ i = .eraseAll ∨ (∃ n : Word, n.toNat < 2 ^ s.params.snbWidth ∧ i = .eraseSector n) ∨
        ∃ (a n : Word) (d : List Byte), i = .write a n d ∧ a.toNat % 4 = 0 ∧ d.length = n.toNat ∧
          (n.toNat = 0 ∨ (s.params.arrayBase ≤ a.toNat ∧
            a.toNat + 4 * ((n.toNat + 3) / 4) - 1 ≤ s.params.arrayLast))) →
      exec i s = .next { u with run := some ⟨i, if u.fault = none then 1 else 0, 0, []⟩ }) ∧
    ∃ u, exec (.optkeyrWr s.params.optkey1) s = .next u ∧
      ∀ i, (i = .optUnlock ∨ ∃ l m : Word, l.toNat ≤ 2 ∧ m.toNat < 2 ^ s.params.wrpWidth ∧ i = .setProtection l m) →
      exec i s = .next { u with run := some ⟨i, if u.fault = none then 1 else 0, 0, []⟩ }

/-- Rules R231, R232: INIT writes the calibrator's wait states (WS_STEP_MHZ is 30 and LATENCY has four bits by default)
and PSIZE = x32, both as read-modify-writes; the PSIZE write lands unless CR is locked and `LOCKED_CR_WRITE = Ignored`.
Written back with DCRST = 1 and DCEN = 0, ACR resets the data cache again (rule R142). That the count is cut to
LATENCY_WIDTH, for every width, is the model's reading (log entry 18). -/
def Obligations.InitWritesWaitStatesAndParallelism : Prop :=
  (Params.default.wsStepMhz = 30 ∧ Params.default.latencyWidth = 4) ∧
  ∀ (f : Word) (s : State), Ready s → Invariant s → s.pend = .none →
    ∃ v : Word, execTimes 4 (.init f) s = .next { s with
      acr := { s.acr with
        latency := BitVec.ofNat 8 (if f.toNat / 1000000 = 0 then 0
          else ((f.toNat / 1000000 - 1) / s.params.wsStepMhz) % 2 ^ s.params.latencyWidth) },
      stale := if s.acr.dcrst = true ∧ s.acr.dcen = false then [] else s.stale,
      cr := if s.ks ≠ .opened ∧ s.params.lockedCrWrite = .ignored then s.cr else { s.cr with psize := 2 },
      rdata := v, result := .nothing, held := false }

/-- Rule R233: UNLOCK opens a locked CR and returns when idle; with an operation pending it keeps polling; from any
state but the initial one its first write faults and locks CR out, unless KEY1 is the key that state expects (only in
the state after KEY1, with KEY2 equal to KEY1, which the spec's own keys are not; equal in KEY_WIDTH bits: log entry
18). -/
def Obligations.UnlockOpensTheControlRegister : Prop :=
  ∀ s : State, Ready s →
    (s.ks = .wait1 → s.pend = .none → ∃ v : Word, execTimes 3 .unlock s =
      .next { s with ks := .opened, rdata := v, result := .nothing, held := false }) ∧
    (s.ks = .wait1 → s.pend ≠ .none → ∀ k, ∃ t, execTimes (k + 2) .unlock s = .next t ∧ t.ks = .opened ∧
      t.pend = s.pend ∧ t.run ≠ none) ∧
    (s.ks ≠ .wait1 → ¬(s.ks = .wait2 ∧ sameKey s.params.keyWidth s.params.key1 s.params.key2 = true) →
      exec .unlock s = .next { s with
      ks := .lockout, fault := some (keyrKey s.params), run := some ⟨.unlock, 0, 0, []⟩, held := false })

/-- Rules R235, R236: OPT_UNLOCK opens a locked OPTCR, OPT_LOCK locks an open one and changes no field; neither touches
CR's lock. From any state but the initial one OPT_UNLOCK faults, unless OPTKEY1 is the key that state expects (only with
OPTKEY2 equal to OPTKEY1, in KEY_WIDTH bits: log entry 18). -/
def Obligations.OptionLockOpensAndCloses : Prop :=
  ∀ s : State, Ready s → Invariant s → s.pend = .none →
    (s.oks = .wait1 → ∃ v : Word, execTimes 3 .optUnlock s =
      .next { s with oks := .opened, rdata := v, result := .nothing, held := false }) ∧
    (s.oks ≠ .wait1 → ¬(s.oks = .wait2 ∧ sameKey s.params.keyWidth s.params.optkey1 s.params.optkey2 = true) →
      exec .optUnlock s = .next { s with
      oks := .lockout, fault := some (optkeyrKey s.params), run := some ⟨.optUnlock, 0, 0, []⟩, held := false }) ∧
    ∃ v : Word, execTimes 2 .optLock s = .next { s with
      oks := if s.oks = .opened then .wait1 else s.oks, rdata := v, result := .nothing, held := false }

/-- Rules R234, R249: LOCK locks an open CR and changes no other field; UNLOCK followed by LOCK leaves every field of CR
as it was, with LOCK 0 in between. -/
def Obligations.UnlockThenLockLeavesTheControlRegister : Prop :=
  ∀ s : State, Ready s → Invariant s → s.pend = .none →
    (∃ v : Word, execTimes 2 .lock s = .next { s with
      ks := if s.ks = .opened then .wait1 else s.ks, rdata := v, result := .nothing, held := false }) ∧
    (s.ks = .wait1 → ∃ (t : State) (v : Word), execTimes 3 .unlock s = .next t ∧ t.ks = .opened ∧ t.cr = s.cr ∧
      execTimes 2 .lock t = .next { s with rdata := v, result := .nothing, held := false })

/-- Rule R330: a LOCK whose read falls while an erase, of a sector or of the array, is pending holds, and when the
engine has completed it starts the same erase again, then locks. The hold between is a next state that notes it (the
model's choice, log entry 9). The sectors are those below N_SECTORS, 8 by default (log entry 18). -/
def Obligations.LockAcrossBusyRestartsTheErase : Prop :=
  ∀ (s : State) (o : Pending), Ready s → Invariant s → s.ks = .opened → s.pend = o → s.cr.pg = false →
    sticky s.sr = false →
    (∃ n, o = .sectorErase n ∧ s.cr.ser = true ∧ s.cr.mer = false ∧ s.cr.snb = n ∧
        ¬(n.toNat < s.params.nSectors ∧ wprot s.ob n.toNat = true)) ∨
      (o = .massErase ∧ s.cr.ser = false ∧ s.cr.mer = true ∧ ∀ i, i < s.params.nSectors → wprot s.ob i = false) →
    ∃ t u : State, execTimes 2 .lock s = .next t ∧ t.held = true ∧ t.pend = o ∧
      exec .lock (engineStep t) = .next u ∧ u.pend = o ∧ u.ks = .wait1 ∧ u.run = none ∧ u.held = false

/-- Rules R237, R238, with the bound the parameter END_ADDR, the array's last byte by default: READ of a range that
fails `read_ok` returns OutOfRange, and an empty READ in range returns no bytes; neither issues a transaction,
whatever is pending. That it completes in one `exec` is the model's reading (log entry 14). -/
def Obligations.ReadOutOfRangeIssuesNothing : Prop :=
  (Params.default.endAddr = 0x0807FFFF ∧ Params.default.arrayBase = 0x08000000) ∧
  ∀ (a n : Word) (s : State) (e : Nat), s.run = none → e = s.params.endAddr.toNat →
    (¬(s.params.arrayBase ≤ a.toNat ∧ a.toNat ≤ e ∧ a.toNat + n.toNat ≤ e) →
      exec (.read a n) s = .next { s with result := .outOfRange, held := false }) ∧
    (s.params.arrayBase ≤ a.toNat → a.toNat ≤ e → n.toNat = 0 →
      exec (.read a n) s = .next { s with result := .ok [], held := false })

/-- Rule R238: READ of a range in bounds, well timed, not read-protected, with nothing pending and no stale byte to
return, takes one transaction a byte and returns the stored bytes. -/
def Obligations.ReadReturnsTheStoredRange : Prop :=
  ∀ (a n : Word) (s : State), Ready s → s.pend = .none → WellTimed s →
    s.params.arrayBase ≤ a.toNat → a.toNat + n.toNat ≤ s.params.endAddr.toNat →
    a.toNat + n.toNat ≤ s.params.arrayLast + 1 → 0 < n.toNat →
    (∀ j, j < n.toNat → ¬ReadProtectedByte s (a.toNat + j)) →
    (s.acr.dcen = false ∨ ∀ j, j < n.toNat → staleAt s.stale (a.toNat + j) = []) →
    ∃ (v : Word) (d : Nat), execTimes n.toNat (.read a n) s = .next { s with
      rdata := v, draws := d, held := false,
      result := .ok ((List.range n.toNat).map fun j => readByte s.arr (a.toNat + j)) }

/-- Rules R239, R201: WRITE under the schedule that completes each operation at once, with PSIZE = x32, no sticky flag,
CR locked, and an erased and unprotected target, takes ten transactions and one for each word; the data then stands
in the array, bytes outside the words written are unchanged, the mode is idle and CR is locked again. The bytes that
pad the last word are free. -/
def Obligations.WriteProgramsItsData : Prop :=
  ∀ (a n : Word) (data : List Byte) (s : State) (k : Nat), k = (n.toNat + 3) / 4 → Ready s → Invariant s →
    s.pend = .none → s.ks = .wait1 → sticky s.sr = false → s.cr.psize = 2 → a.toNat % 4 = 0 → data.length = n.toNat →
    (n.toNat = 0 ∨ (s.params.arrayBase ≤ a.toNat ∧ a.toNat + 4 * k - 1 ≤ s.params.arrayLast)) →
    (∀ j, j < 4 * k → readByte s.arr (a.toNat + j) = s.params.erasedByte ∧ ¬WriteProtectedByte s (a.toNat + j)) →
    ∃ (m : Memory) (st : List StaleRange) (v : Word) (d : Nat), cycles (10 + k) (.write a n data) s = .next { s with
      cr := { s.cr with pg := false, ser := false, mer := false },
      sr := { s.sr with eop := s.sr.eop || (s.cr.eopie && decide (0 < k)) },
      arr := m, stale := st, rdata := v, draws := d, result := .nothing, held := false } ∧
      (∀ (j : Nat) (h : j < data.length), readByte m (a.toNat + j) = data[j]) ∧
      ∀ b, ¬(a.toNat ≤ b ∧ b < a.toNat + 4 * k) → readByte m b = readByte s.arr b

/-- Rules R240, R202: ERASE_SECTOR under the schedule that completes each operation at once, on a locked CR with no
sticky flag, takes twelve transactions. A sector that is not protected is erased (freed with PSIZE x64) and nothing
else is; SER and SNB stay set and CR is locked again. A protected sector stays, and WRPERR is set. That sector
numbers go up to what SNB_WIDTH holds, and that those from N_SECTORS up are empty, is the model's reading (log entry
18). -/
def Obligations.EraseSectorErasesItsSectorOrFlags : Prop :=
  ∀ (n : Word) (s : State), Ready s → Invariant s → s.pend = .none → s.ks = .wait1 → sticky s.sr = false →
    n.toNat < 2 ^ s.params.snbWidth →
    (¬(n.toNat < s.params.nSectors ∧ wprot s.ob n.toNat = true) →
      ∃ (m : Memory) (st : List StaleRange) (v : Word) (d : Nat), cycles 12 (.eraseSector n) s = .next { s with
        cr := { s.cr with pg := false, ser := true, mer := false, snb := n.setWidth 5 },
        sr := { s.sr with eop := s.sr.eop || s.cr.eopie },
        arr := m, stale := st, rdata := v, draws := d, result := .nothing, held := false } ∧
        (s.cr.psize.toNat < 3 → ∀ b, InSector s n.toNat b → readByte m b = s.params.erasedByte) ∧
        ∀ b, ¬InSector s n.toNat b → readByte m b = readByte s.arr b) ∧
    (n.toNat < s.params.nSectors ∧ wprot s.ob n.toNat = true →
      ∃ v : Word, cycles 12 (.eraseSector n) s = .next { s with
        cr := { s.cr with pg := false, ser := true, mer := false, snb := n.setWidth 5 },
        sr := { s.sr with wrperr := true, operr := s.sr.operr || s.cr.errie },
        rdata := v, result := .nothing, held := false })

/-- Rules R241, R203: ERASE_ALL under the same schedule and premises erases the whole array if no sector is protected,
else sets WRPERR and leaves the array; MER stays set and CR is locked again. The sectors are those below N_SECTORS, 8 by
default (log entry 18). -/
def Obligations.EraseAllErasesTheArrayOrFlags : Prop :=
  ∀ s : State, Ready s → Invariant s → s.pend = .none → s.ks = .wait1 → sticky s.sr = false →
    ((∀ i, i < s.params.nSectors → wprot s.ob i = false) →
      ∃ (m : Memory) (st : List StaleRange) (v : Word) (d : Nat), cycles 12 .eraseAll s = .next { s with
        cr := { s.cr with pg := false, ser := false, mer := true },
        sr := { s.sr with eop := s.sr.eop || s.cr.eopie },
        arr := m, stale := st, rdata := v, draws := d, result := .nothing, held := false } ∧
        (s.cr.psize.toNat < 3 → ∀ b, s.params.arrayBase ≤ b → b ≤ s.params.arrayLast →
          readByte m b = s.params.erasedByte)) ∧
    ((∃ i, i < s.params.nSectors ∧ wprot s.ob i = true) →
      ∃ v : Word, cycles 12 .eraseAll s = .next { s with
        cr := { s.cr with pg := false, ser := false, mer := true },
        sr := { s.sr with wrperr := true, operr := s.sr.operr || s.cr.errie },
        rdata := v, result := .nothing, held := false })

/-- Rule R243 with R204: SET_PROTECTION under the schedule that completes each operation at once, on a locked OPTCR,
writes the branch of its level, commits it and locks OPTCR again. The commit takes; only one that weakens PCROP while
`PCROP_WEAKEN = Either` may leave the old option bytes. That the mask and its complement have WRP_WIDTH bits, for every
width, is the model's reading, and so is that a weakening is looked for in the bits below N_SECTORS (log entry 18). -/
def Obligations.SetProtectionCommitsItsBranch : Prop :=
  ∀ (l mask : Word) (s : State) (f : OptFields), Ready s → Invariant s → s.pend = .none → s.oks = .wait1 →
    l.toNat ≤ 2 → mask.toNat < 2 ^ s.params.wrpWidth →
    f = (if l = 2 then { s.optcr with sprmod := true, nwrp := mask.setWidth 8 }
      else if l = 1 then { s.optcr with sprmod := false, nwrp := ((~~~mask).setWidth s.params.wrpWidth).setWidth 8 }
      else { s.optcr with sprmod := false, nwrp := s.optcr.nwrp ||| mask.setWidth 8 }) →
    ∃ (ob : OptFields) (v : Word) (d : Nat),
      cycles (if l = 0 then 12 else 14) (.setProtection l mask) s = .next { s with
        optcr := f, ob := ob, rdata := v, draws := d, result := .nothing, held := false } ∧
      (ob = f ∨ (ob = s.ob ∧ s.params.pcropWeaken = .either ∧ s.ob.sprmod = true ∧
        (f.sprmod = false ∨ ∃ i, i < s.params.nSectors ∧ s.ob.nwrp.getLsbD i = true ∧ f.nwrp.getLsbD i = false)))

/-- The property §8 T5 of the document (95_test_vectors.md S5), from rules R242 and R243, with the levels in the codes
of rule R119: after SET_PROTECTION ReadWrite, GET_PROTECTION reports ReadWrite for exactly the sectors of the mask and
None for the rest; after Write, Write for exactly the sectors of the mask and None for the rest. There are N_SECTORS
sectors, and the mask has WRP_WIDTH bits (log entry 18). -/
def Obligations.GetProtectionReportsWhatWasSet : Prop :=
  ∀ (mask : Word) (s : State), Ready s → Invariant s → s.pend = .none → s.oks = .wait1 →
    mask.toNat < 2 ^ s.params.wrpWidth →
    (∃ t u : State, cycles 14 (.setProtection 2 mask) s = .next t ∧ exec .getProtection t = .next u ∧ u.run = none ∧
      u.result = .levels ((List.range s.params.nSectors).map fun i => if mask.getLsbD i then 2 else 0)) ∧
    ∃ t u : State, cycles 14 (.setProtection 1 mask) s = .next t ∧ exec .getProtection t = .next u ∧ u.run = none ∧
      u.result = .levels ((List.range s.params.nSectors).map fun i => if mask.getLsbD i then 1 else 0)

/-- Rules R119, R242, R244, R245: GET_PROTECTION returns the levels of OPTCR's fields (0 None, 1 Write, 2 ReadWrite)
of its N_SECTORS sectors, 8 by default (log entry 18), IS_STATUS_BIT_SET the bit of SR, and WAIT_UNTIL_IDLE returns
after one read when nothing is pending and goes on reading otherwise. -/
def Obligations.StatusQueriesReadOnce : Prop :=
  ∀ s : State, Ready s →
    (∃ u, exec .optcrRd s = .next u ∧ exec .getProtection s = .next { u with
      result := .levels ((List.range s.params.nSectors).map fun i =>
        if s.optcr.sprmod = true ∧ s.optcr.nwrp.getLsbD i = true then 2
        else if s.optcr.sprmod = false ∧ s.optcr.nwrp.getLsbD i = false then 1 else 0) }) ∧
    ∃ u, exec .srRd s = .next u ∧
      (∀ p : Word, p.toNat ≤ 31 →
        exec (.isStatusBitSet p) s = .next { u with result := .flag (u.rdata.getLsbD p.toNat) }) ∧
      (s.pend = .none → exec .waitUntilIdle s = .next { u with result := .nothing }) ∧
      (s.pend ≠ .none → exec .waitUntilIdle s = .next { u with run := some ⟨.waitUntilIdle, 0, u.rdata, []⟩ })

/-- Rule R248 (§8 T3): erase, write and read back, under the schedule that completes each operation at once, return
the data written. DCEN = 0 is taken as the cache premise, since the erase itself adds stale bytes (rule R206). That a
READ of no bytes completes in one `exec` is the model's reading (log entry 14), and that the sectors are those below
N_SECTORS (log entry 18). -/
def Obligations.EraseWriteReadReturnsTheData : Prop :=
  ∀ (n a len : Word) (data : List Byte) (s : State), Ready s → Invariant s → s.pend = .none → s.ks = .wait1 →
    sticky s.sr = false → s.cr.psize = 2 → s.acr.dcen = false → WellTimed s →
    n.toNat < s.params.nSectors → wprot s.ob n.toNat = false → rprot s.ob n.toNat = false →
    a.toNat % 4 = 0 → len.toNat % 4 = 0 → data.length = len.toNat →
    s.params.arrayBase ≤ a.toNat → a.toNat ≤ s.params.arrayLast → a.toNat + len.toNat ≤ s.params.arrayLast + 1 →
    a.toNat ≤ s.params.endAddr.toNat → a.toNat + len.toNat ≤ s.params.endAddr.toNat →
    (∀ j, j < len.toNat → sectorOf s.params.sectorMap (a.toNat + j) = some n.toNat) →
    ∃ t u v : State, cycles 12 (.eraseSector n) s = .next t ∧
      cycles (10 + len.toNat / 4) (.write a len data) t = .next u ∧
      cycles (max len.toNat 1) (.read a len) u = .next v ∧ v.result = .ok data ∧ v.run = none
end

