-- ==== Sys2Proof/Laws/Memory.lean ====
section
/-! SUPPORT. The array's and the stale ranges' operations: what a byte reads after each, and the canonical form kept. -/

namespace Sys2Proof.Machine

/-! ## Reading -/

@[simp] theorem readByte_nil (a : Nat) : readByte [] a = unlistedByte := rfl

theorem readByte_eq_unlisted {m : Memory} {a : Nat} (h : ∀ c ∈ m, c.1 ≠ a) : readByte m a = unlistedByte := by
  induction m with
  | nil => rfl
  | cons c m ih =>
    simp only [readByte, h c (by simp), if_false]
    exact ih fun x hx => h x (by simp [hx])

theorem readByte_append_of_not_mem {m₁ m₂ : Memory} {a : Nat} (h : ∀ c ∈ m₁, c.1 ≠ a) :
    readByte (m₁ ++ m₂) a = readByte m₂ a := by
  induction m₁ with
  | nil => rfl
  | cons c m ih =>
    simp only [List.cons_append, readByte, h c (by simp), if_false]
    exact ih fun x hx => h x (by simp [hx])

theorem readByte_append_of_not_mem_right {m₁ m₂ : Memory} {a : Nat} (h : ∀ c ∈ m₂, c.1 ≠ a) :
    readByte (m₁ ++ m₂) a = readByte m₁ a := by
  induction m₁ with
  | nil => exact readByte_eq_unlisted h
  | cons c m ih => simp only [List.cons_append, readByte, ih]

/-- A filter on addresses keeps the bytes of the addresses it admits. -/
theorem readByte_filter {m : Memory} {p : Nat → Bool} {a : Nat} (h : p a = true) :
    readByte (m.filter (fun c => p c.1)) a = readByte m a := by
  induction m with
  | nil => rfl
  | cons c m ih =>
    by_cases hc : c.1 = a
    · simp [hc, h, readByte]
    · by_cases hp : p c.1 = true <;> simp [hp, readByte, hc, ih]

/-- A filter on addresses leaves nothing at the addresses it refuses. -/
theorem readByte_filter_out {m : Memory} {p : Nat → Bool} {a : Nat} (h : p a = false) :
    readByte (m.filter (fun c => p c.1)) a = unlistedByte :=
  readByte_eq_unlisted fun c hc hca => by simp [← hca, (List.mem_filter.mp hc).2] at h

/-- After a range is unlisted, its bytes read as unlisted and the others as before. -/
theorem readByte_eraseRange (m : Memory) (lo n a : Nat) :
    readByte (eraseRange m lo n) a = if lo ≤ a ∧ a < lo + n then unlistedByte else readByte m a := by
  by_cases h : lo ≤ a ∧ a < lo + n
  · rw [if_pos h]
    exact readByte_filter_out (p := fun x => x < lo || lo + n ≤ x) (by simp; omega)
  · rw [if_neg h]
    exact readByte_filter (p := fun x => x < lo || lo + n ≤ x) (by simp; omega)

theorem readByte_restrict (m : Memory) (lo n a : Nat) :
    readByte (restrict m lo n) a = if lo ≤ a ∧ a < lo + n then readByte m a else unlistedByte := by
  by_cases h : lo ≤ a ∧ a < lo + n
  · rw [if_pos h]
    exact readByte_filter (p := fun x => lo ≤ x && x < lo + n) (by simp; omega)
  · rw [if_neg h]
    exact readByte_filter_out (p := fun x => lo ≤ x && x < lo + n) (by simp; omega)

theorem mem_cellsOf {lo n : Nat} {f : Nat → Byte} {c : Host.Cell} :
    c ∈ cellsOf lo n f ↔ ∃ j, j < n ∧ c = (lo + j, f j) ∧ f j ≠ unlistedByte := by
  simp only [cellsOf, List.mem_filter, List.mem_map, List.mem_range, decide_eq_true_eq]
  constructor
  · rintro ⟨⟨j, hj, rfl⟩, h⟩
    exact ⟨j, hj, rfl, h⟩
  · rintro ⟨j, hj, rfl, h⟩
    exact ⟨⟨j, hj, rfl⟩, h⟩

theorem cellsOf_succ (lo n : Nat) (f : Nat → Byte) :
    cellsOf lo (n + 1) f = cellsOf lo n f ++ if f n = unlistedByte then [] else [(lo + n, f n)] := by
  by_cases h : f n = unlistedByte <;> simp [cellsOf, List.range_succ, List.filter_append, h]

theorem readByte_cellsOf (lo n : Nat) (f : Nat → Byte) (a : Nat) :
    readByte (cellsOf lo n f) a = if lo ≤ a ∧ a < lo + n then f (a - lo) else unlistedByte := by
  induction n with
  | zero =>
    rw [if_neg (by omega)]
    exact readByte_eq_unlisted fun c hc => by
      obtain ⟨j, hj, -⟩ := mem_cellsOf.mp hc
      omega
  | succ n ih =>
    rw [cellsOf_succ]
    by_cases ha : a = lo + n
    · subst ha
      have hout : ∀ c ∈ cellsOf lo n f, c.1 ≠ lo + n := fun c hc => by
        obtain ⟨j, hj, rfl, -⟩ := mem_cellsOf.mp hc
        simp only
        omega
      rw [readByte_append_of_not_mem hout, if_pos (show lo ≤ lo + n ∧ lo + n < lo + (n + 1) by omega),
        Nat.add_sub_cancel_left]
      by_cases h : f n = unlistedByte
      · rw [if_pos h, h, readByte_nil]
      · simp [h, readByte]
    · rw [readByte_append_of_not_mem_right fun c hc => by
        by_cases h : f n = unlistedByte
        · simp [h] at hc
        · simp only [h, if_false, List.mem_singleton] at hc
          simp only [hc]
          omega]
      rw [ih]
      by_cases h : lo ≤ a ∧ a < lo + n
      · rw [if_pos h, if_pos (by omega)]
      · rw [if_neg h, if_neg (by omega)]

/-- After a range is set, its bytes are the ones given and the others as before. -/
theorem readByte_setRange (m : Memory) (lo n : Nat) (f : Nat → Byte) (a : Nat) :
    readByte (setRange m lo n f) a = if lo ≤ a ∧ a < lo + n then f (a - lo) else readByte m a := by
  have hmid : ∀ c ∈ cellsOf lo n f, lo ≤ c.1 ∧ c.1 < lo + n := fun c hc => by
    obtain ⟨j, hj, rfl, -⟩ := mem_cellsOf.mp hc
    simp only
    omega
  unfold setRange
  rcases Nat.lt_or_ge a lo with hlo | hlo
  · rw [if_neg (by omega), List.append_assoc, readByte_append_of_not_mem_right,
      readByte_filter (p := fun x => x < lo) (by simpa using hlo)]
    intro c hc
    rcases List.mem_append.mp hc with h | h
    · have := hmid c h
      omega
    · have := (List.mem_filter.mp h).2
      simp only [decide_eq_true_eq] at this
      omega
  · rw [List.append_assoc, readByte_append_of_not_mem fun c hc => by
      have := (List.mem_filter.mp hc).2
      simp only [decide_eq_true_eq] at this
      omega]
    rcases Nat.lt_or_ge a (lo + n) with hhi | hhi
    · rw [readByte_append_of_not_mem_right fun c hc => by
        have := (List.mem_filter.mp hc).2
        simp only [decide_eq_true_eq] at this
        omega]
      rw [readByte_cellsOf]
      simp [hlo, hhi]
    · rw [if_neg (by omega), readByte_append_of_not_mem fun c hc => by
        have := hmid c hc
        omega]
      exact readByte_filter (p := fun x => lo + n ≤ x) (by simpa using hhi)

/-- After a range is filled, its bytes are the one given and the others as before. -/
theorem readByte_fillRange (m : Memory) (lo n : Nat) (b : Byte) (a : Nat) :
    readByte (fillRange m lo n b) a = if lo ≤ a ∧ a < lo + n then b else readByte m a := by
  unfold fillRange
  split
  · next h => rw [readByte_eraseRange, h]
  · rw [readByte_setRange]

/-! ## The canonical form -/

@[simp] theorem wf_nil (p : Params) : Memory.wf [] p := by simp [Memory.wf]

theorem wf_filter {m : Memory} {p : Params} (h : m.wf p) (f : Host.Cell → Bool) : Memory.wf (m.filter f) p :=
  ⟨h.1.filter f, fun c hc => h.2 c (List.mem_filter.mp hc).1⟩

/-- An erase keeps the canonical form. -/
theorem wf_eraseRange {m : Memory} {p : Params} (h : m.wf p) (lo n : Nat) : (eraseRange m lo n).wf p := wf_filter h _

theorem wf_restrict {m : Memory} {p : Params} (h : m.wf p) (lo n : Nat) : (restrict m lo n).wf p := wf_filter h _

theorem cellsOf_pairwise (lo n : Nat) (f : Nat → Byte) :
    (cellsOf lo n f).Pairwise (fun x y => x.1 < y.1) := by
  induction n with
  | zero => simp [cellsOf]
  | succ n ih =>
    rw [cellsOf_succ, List.pairwise_append]
    refine ⟨ih, by split <;> simp, fun x hx y hy => ?_⟩
    obtain ⟨j, hj, rfl, -⟩ := mem_cellsOf.mp hx
    split at hy
    · simp at hy
    · simp only [List.mem_singleton] at hy
      simp only [hy]
      omega

/-- Setting a range that lies in the array keeps the canonical form. -/
theorem wf_setRange {m : Memory} {p : Params} (h : m.wf p) {lo n : Nat} (f : Nat → Byte)
    (hin : ∀ b, lo ≤ b → b < lo + n → p.arrayBase ≤ b ∧ b ≤ p.arrayLast) : (setRange m lo n f).wf p := by
  have hmid : ∀ c ∈ cellsOf lo n f, lo ≤ c.1 ∧ c.1 < lo + n := fun c hc => by
    obtain ⟨j, hj, rfl, -⟩ := mem_cellsOf.mp hc
    simp only
    omega
  have hleft : ∀ c ∈ m.filter (fun c => decide (c.1 < lo)), c.1 < lo := fun c hc => by
    simpa using (List.mem_filter.mp hc).2
  have hright : ∀ c ∈ m.filter (fun c => decide (lo + n ≤ c.1)), lo + n ≤ c.1 := fun c hc => by
    simpa using (List.mem_filter.mp hc).2
  refine ⟨?_, fun c hc => ?_⟩
  · unfold setRange
    rw [List.pairwise_append, List.pairwise_append]
    refine ⟨⟨h.1.filter _, cellsOf_pairwise lo n f, fun x hx y hy => ?_⟩, h.1.filter _, fun x hx y hy => ?_⟩
    · have := hleft x hx
      have := hmid y hy
      omega
    · have := hright y hy
      rcases List.mem_append.mp hx with hx | hx
      · have := hleft x hx
        omega
      · have := hmid x hx
        omega
  · unfold setRange at hc
    rcases List.mem_append.mp hc with hc | hc
    · rcases List.mem_append.mp hc with hc | hc
      · exact h.2 c (List.mem_filter.mp hc).1
      · obtain ⟨j, hj, rfl, hne⟩ := mem_cellsOf.mp hc
        exact ⟨hne, hin (lo + j) (by omega) (by omega)⟩
    · exact h.2 c (List.mem_filter.mp hc).1

/-- Filling a range that lies in the array keeps the canonical form. -/
theorem wf_fillRange {m : Memory} {p : Params} (h : m.wf p) {lo n : Nat} (b : Byte)
    (hin : ∀ b, lo ≤ b → b < lo + n → p.arrayBase ≤ b ∧ b ≤ p.arrayLast) : (fillRange m lo n b).wf p := by
  unfold fillRange
  split
  · exact wf_eraseRange h lo n
  · exact wf_setRange h _ hin

/-- The reset state's array has the canonical form. -/
theorem reset_arr_wf : State.reset.arr.wf State.reset.params := wf_nil _

/-! ## Stale candidates -/

@[simp] theorem staleAt_nil (a : Nat) : staleAt [] a = [] := rfl

/-- A completion over `lo .. lo+n-1` adds the byte each of those addresses held, and no other candidate. -/
theorem staleAt_staleUpdate (st : List StaleRange) (m : Memory) (lo n a : Nat) :
    staleAt (staleUpdate st m lo n) a =
      if lo ≤ a ∧ a < lo + n then readByte m a :: staleAt st a else staleAt st a := by
  by_cases hn : n = 0
  · subst hn
    rw [if_neg (by omega)]
    rfl
  · by_cases h : lo ≤ a ∧ a < lo + n
    · rw [if_pos h]
      simp [staleUpdate, hn, staleAt, h, readByte_restrict]
    · rw [if_neg h]
      have : (decide (lo ≤ a) && decide (a < lo + n)) = false := by
        simp only [Bool.and_eq_false_iff, decide_eq_false_iff_not]
        omega
      simp only [staleUpdate, hn, if_false, staleAt, List.filterMap_cons, this, Bool.false_eq_true]

end Sys2Proof.Machine
end

