-- ==== Sys2Proof/Laws/Map.lean ====
section
/-! SUPPORT. The address map: the decoder's masks as ranges, natural alignment as divisibility, and the sector map. -/

namespace Sys2Proof.Machine

/-! ## Masks as ranges -/

/-- A mask that keeps the bits from `k` up compares the quotient by `2^k`. -/
theorem and_high_mask (a m v : Word) (k : Nat) (hk : k < 32) (hm : m = BitVec.allOnes 32 <<< k)
    (hv : (v >>> k) <<< k = v) : (a &&& m = v) ↔ a >>> k = v >>> k := by
  subst hm
  constructor
  · intro h
    rw [← h]
    apply BitVec.eq_of_getLsbD_eq
    intro i hi
    simp only [BitVec.getLsbD_ushiftRight, BitVec.getLsbD_and, BitVec.getLsbD_shiftLeft, BitVec.getLsbD_allOnes]
    by_cases h' : k + i < 32
    · simp [h']
      omega
    · simp [BitVec.getLsbD_of_ge a (k + i) (by omega)]
  · intro h
    rw [← hv, ← h]
    apply BitVec.eq_of_getLsbD_eq
    intro i hi
    simp only [BitVec.getLsbD_ushiftRight, BitVec.getLsbD_and, BitVec.getLsbD_shiftLeft, BitVec.getLsbD_allOnes]
    by_cases h' : i < k
    · simp [h']
    · simp only [hi, decide_true, h', decide_false, Bool.not_false, Bool.true_and, Bool.and_true]
      rw [Nat.add_sub_of_le (by omega)]
      simp
      omega

/-- The array space as a range (rules R80, R114). -/
theorem inArray_iff (p : Params) (a : Word) :
    inArray p a = true ↔ p.arrayBase ≤ a.toNat ∧ a.toNat ≤ p.arrayLast := by
  simp [inArray]

/-- The register space as a range (rule R80). -/
theorem inRegisterWindow_iff (p : Params) (a : Word) :
    inRegisterWindow p a = true ↔ p.regBase.toNat ≤ a.toNat ∧ a.toNat ≤ p.regBase.toNat + 0x3FF := by
  simp [inRegisterWindow]

/-- With the default bases the array's test is the mask of rule R113. -/
theorem inArray_default (a : Word) : inArray Params.default a = true ↔ a &&& 0xFFF80000 = 0x08000000 := by
  rw [inArray_iff, and_high_mask a _ _ 19 (by decide) (by decide) (by decide), ← BitVec.toNat_inj]
  simp only [BitVec.toNat_ushiftRight, Nat.shiftRight_eq_div_pow, Params.default]
  have : (0x08000000 : Word).toNat = 0x08000000 := by decide
  rw [this]
  omega

/-- With the default bases the register window's test is the mask of rule R113. -/
theorem inRegisterWindow_default (a : Word) :
    inRegisterWindow Params.default a = true ↔ a &&& 0xFFFFFC00 = 0x40023C00 := by
  rw [inRegisterWindow_iff, and_high_mask a _ _ 10 (by decide) (by decide) (by decide), ← BitVec.toNat_inj]
  simp only [BitVec.toNat_ushiftRight, Nat.shiftRight_eq_div_pow, Params.default]
  have : (0x40023C00 : Word).toNat = 0x40023C00 := by decide
  rw [this]
  omega

/-- Natural alignment is divisibility by the access's size (rule R85). -/
theorem aligned_iff (sz : AccessSize) (a : Word) : aligned sz a = true ↔ a.toNat % nbytes sz = 0 := by
  cases sz with
  | byte => simp [aligned, nbytes, Nat.mod_one]
  | half =>
    simp only [aligned, nbytes, decide_eq_true_eq, ← BitVec.toNat_inj, BitVec.toNat_and]
    have : a.toNat &&& (1 : Word).toNat = a.toNat % 2 := Nat.and_two_pow_sub_one_eq_mod a.toNat 1
    rw [this]
    simp
  | word =>
    simp only [aligned, nbytes, decide_eq_true_eq, ← BitVec.toNat_inj, BitVec.toNat_and]
    have : a.toNat &&& (3 : Word).toNat = a.toNat % 4 := Nat.and_two_pow_sub_one_eq_mod a.toNat 2
    rw [this]
    simp

/-- An admitted address and the bytes after it lie in the array, when the array is a range of whole words. -/
theorem arrayAddressOk_range {p : Params} {sz : AccessSize} {a : Word} (he : (p.arrayLast + 1) % 4 = 0)
    (h : arrayAddressOk p sz a = true) : p.arrayBase ≤ a.toNat ∧ a.toNat + nbytes sz ≤ p.arrayLast + 1 := by
  simp only [arrayAddressOk, Bool.and_eq_true, inArray_iff, aligned_iff] at h
  obtain ⟨⟨h1, h2⟩, h3⟩ := h
  refine ⟨h1, ?_⟩
  cases sz <;> simp only [nbytes] at * <;> omega

/-! ## Sectors -/

/-- The default map is one that rules R46 and R47 admit. -/
theorem sectorMapOk_default : sectorMapOk Params.default = true := by decide

/-- Sectors that cover from `lo` on lie between `lo` and `hi`. -/
theorem sectorsCover_range {m : SectorMap} {lo hi : Nat} (h : sectorsCover m lo hi = true) {i : Nat}
    (hi' : i < m.length) :
    lo ≤ (sectorRange m i).1 ∧ (sectorRange m i).1 + (sectorRange m i).2 ≤ hi := by
  induction m generalizing lo i with
  | nil => simp at hi'
  | cons r m ih =>
    simp only [sectorsCover, Bool.and_eq_true, decide_eq_true_eq] at h
    obtain ⟨⟨rfl, hpos⟩, hm⟩ := h
    have hend : r.1 + r.2 ≤ hi := by
      cases m with
      | nil => simpa [sectorsCover] using (of_decide_eq_true hm).le
      | cons r' m' =>
        have h0 := ih hm (i := 0) (by simp)
        omega
    cases i with
    | zero => exact ⟨Nat.le_refl _, hend⟩
    | succ i =>
      have := ih hm (i := i) (by simpa using hi')
      simp only [sectorRange, List.getD_cons_succ] at this ⊢
      omega

/-- Among sectors that cover, `sector_of` is the one index whose range holds the address. -/
theorem sectorsCover_sectorOf {m : SectorMap} {lo hi : Nat} (h : sectorsCover m lo hi = true) (a i : Nat) :
    sectorOf m a = some i ↔
      i < m.length ∧ (sectorRange m i).1 ≤ a ∧ a < (sectorRange m i).1 + (sectorRange m i).2 := by
  induction m generalizing lo i with
  | nil => simp [sectorOf]
  | cons r m ih =>
    simp only [sectorsCover, Bool.and_eq_true, decide_eq_true_eq] at h
    obtain ⟨⟨rfl, hpos⟩, hm⟩ := h
    simp only [sectorOf, List.findIdx?_cons, Bool.and_eq_true, decide_eq_true_eq] at ih ⊢
    by_cases hr : r.1 ≤ a ∧ a < r.1 + r.2
    · rw [if_pos hr]
      cases i with
      | zero => simpa [sectorRange] using hr
      | succ i =>
        simp only [Option.some.injEq, sectorRange, List.getD_cons_succ, List.length_cons]
        constructor
        · intro h0
          omega
        · rintro ⟨hi, h1, -⟩
          have := (sectorsCover_range hm (i := i) (by omega)).1
          simp only [sectorRange] at this
          omega
    · rw [if_neg hr]
      cases i with
      | zero => simpa [sectorRange] using fun h1 => by omega
      | succ i =>
        rw [Option.map_eq_some_iff]
        simp only [Nat.add_right_cancel_iff, exists_eq_right, ih hm i, sectorRange, List.getD_cons_succ,
          List.length_cons, Nat.add_lt_add_iff_right]

/-- The bytes of a sector lie in the array, for every field value (rule R47). -/
theorem sectorRange_in_array {p : Params} (h : sectorMapOk p = true) {i b : Nat}
    (h1 : (sectorRange p.sectorMap i).1 ≤ b)
    (h2 : b < (sectorRange p.sectorMap i).1 + (sectorRange p.sectorMap i).2) :
    p.arrayBase ≤ b ∧ b ≤ p.arrayLast := by
  simp only [sectorMapOk, Bool.and_eq_true] at h
  by_cases hi : i < p.sectorMap.length
  · have := sectorsCover_range h.2 hi
    omega
  · have : p.sectorMap[i]? = none := List.getElem?_eq_none (by omega)
    simp [sectorRange, this] at h2

/-- A sector with bytes lies in the array; a number above the map has none (rule R47). -/
theorem sectorRange_bounds {p : Params} (h : sectorMapOk p = true) (i : Nat) :
    (sectorRange p.sectorMap i).2 = 0 ∨ (p.arrayBase ≤ (sectorRange p.sectorMap i).1 ∧
      (sectorRange p.sectorMap i).1 + (sectorRange p.sectorMap i).2 ≤ p.arrayLast + 1) := by
  simp only [sectorMapOk, Bool.and_eq_true] at h
  by_cases hi : i < p.sectorMap.length
  · exact .inr (sectorsCover_range h.2 hi)
  · have : p.sectorMap[i]? = none := List.getElem?_eq_none (by omega)
    exact .inl (by simp [sectorRange, this])

/-- No bytes for the sector numbers from `N_SECTORS` up (rule R47). -/
theorem sectorRange_size_of_ge {p : Params} (h : sectorMapOk p = true) {i : Nat} (hi : p.nSectors ≤ i) :
    (sectorRange p.sectorMap i).2 = 0 := by
  simp only [sectorMapOk, Bool.and_eq_true, decide_eq_true_eq] at h
  have : p.sectorMap[i]? = none := List.getElem?_eq_none (by omega)
  simp [sectorRange, this]

/-- `sector_of` is the index whose range holds the address (rule R47). -/
theorem sectorOf_eq_some_iff {p : Params} (h : sectorMapOk p = true) (a i : Nat) :
    sectorOf p.sectorMap a = some i ↔
      i < p.nSectors ∧ (sectorRange p.sectorMap i).1 ≤ a ∧
        a < (sectorRange p.sectorMap i).1 + (sectorRange p.sectorMap i).2 := by
  simp only [sectorMapOk, Bool.and_eq_true, decide_eq_true_eq] at h
  rw [sectorsCover_sectorOf h.2, h.1]

/-- Whatever the map, an address of a sector lies in that sector's range. -/
theorem range_of_sectorOf {m : SectorMap} {a i : Nat} (h : sectorOf m a = some i) :
    (sectorRange m i).1 ≤ a ∧ a < (sectorRange m i).1 + (sectorRange m i).2 := by
  obtain ⟨hi, hp, -⟩ := List.findIdx?_eq_some_iff_getElem.mp h
  simp only [Bool.and_eq_true, decide_eq_true_eq] at hp
  simpa [sectorRange, List.getD_eq_getElem?_getD, List.getElem?_eq_getElem hi] using hp

end Sys2Proof.Machine
end

