-- ==== Sys2Proof/Laws/State.lean ====
section
/-! SUPPORT. What each update of the state leaves in each field (beside Machine/State.lean). -/

namespace Sys2Proof.Machine

/-! ## `State.withAcr` -/
@[simp] theorem State.withAcr_params (s : State) (x) : (s.withAcr x).params = s.params := rfl
@[simp] theorem State.withAcr_acr (s : State) (x) : (s.withAcr x).acr = x := rfl
@[simp] theorem State.withAcr_sr (s : State) (x) : (s.withAcr x).sr = s.sr := rfl
@[simp] theorem State.withAcr_cr (s : State) (x) : (s.withAcr x).cr = s.cr := rfl
@[simp] theorem State.withAcr_optcr (s : State) (x) : (s.withAcr x).optcr = s.optcr := rfl
@[simp] theorem State.withAcr_ks (s : State) (x) : (s.withAcr x).ks = s.ks := rfl
@[simp] theorem State.withAcr_oks (s : State) (x) : (s.withAcr x).oks = s.oks := rfl
@[simp] theorem State.withAcr_pend (s : State) (x) : (s.withAcr x).pend = s.pend := rfl
@[simp] theorem State.withAcr_ob (s : State) (x) : (s.withAcr x).ob = s.ob := rfl
@[simp] theorem State.withAcr_arr (s : State) (x) : (s.withAcr x).arr = s.arr := rfl
@[simp] theorem State.withAcr_stale (s : State) (x) : (s.withAcr x).stale = s.stale := rfl
@[simp] theorem State.withAcr_fault (s : State) (x) : (s.withAcr x).fault = s.fault := rfl
@[simp] theorem State.withAcr_refused (s : State) (x) : (s.withAcr x).refused = s.refused := rfl
@[simp] theorem State.withAcr_run (s : State) (x) : (s.withAcr x).run = s.run := rfl
@[simp] theorem State.withAcr_held (s : State) (x) : (s.withAcr x).held = s.held := rfl
@[simp] theorem State.withAcr_rdata (s : State) (x) : (s.withAcr x).rdata = s.rdata := rfl
@[simp] theorem State.withAcr_result (s : State) (x) : (s.withAcr x).result = s.result := rfl
@[simp] theorem State.withAcr_program (s : State) (x) : (s.withAcr x).program = s.program := rfl
@[simp] theorem State.withAcr_sched (s : State) (x) : (s.withAcr x).sched = s.sched := rfl
@[simp] theorem State.withAcr_draws (s : State) (x) : (s.withAcr x).draws = s.draws := rfl

/-! ## `State.withSr` -/
@[simp] theorem State.withSr_params (s : State) (x) : (s.withSr x).params = s.params := rfl
@[simp] theorem State.withSr_acr (s : State) (x) : (s.withSr x).acr = s.acr := rfl
@[simp] theorem State.withSr_sr (s : State) (x) : (s.withSr x).sr = x := rfl
@[simp] theorem State.withSr_cr (s : State) (x) : (s.withSr x).cr = s.cr := rfl
@[simp] theorem State.withSr_optcr (s : State) (x) : (s.withSr x).optcr = s.optcr := rfl
@[simp] theorem State.withSr_ks (s : State) (x) : (s.withSr x).ks = s.ks := rfl
@[simp] theorem State.withSr_oks (s : State) (x) : (s.withSr x).oks = s.oks := rfl
@[simp] theorem State.withSr_pend (s : State) (x) : (s.withSr x).pend = s.pend := rfl
@[simp] theorem State.withSr_ob (s : State) (x) : (s.withSr x).ob = s.ob := rfl
@[simp] theorem State.withSr_arr (s : State) (x) : (s.withSr x).arr = s.arr := rfl
@[simp] theorem State.withSr_stale (s : State) (x) : (s.withSr x).stale = s.stale := rfl
@[simp] theorem State.withSr_fault (s : State) (x) : (s.withSr x).fault = s.fault := rfl
@[simp] theorem State.withSr_refused (s : State) (x) : (s.withSr x).refused = s.refused := rfl
@[simp] theorem State.withSr_run (s : State) (x) : (s.withSr x).run = s.run := rfl
@[simp] theorem State.withSr_held (s : State) (x) : (s.withSr x).held = s.held := rfl
@[simp] theorem State.withSr_rdata (s : State) (x) : (s.withSr x).rdata = s.rdata := rfl
@[simp] theorem State.withSr_result (s : State) (x) : (s.withSr x).result = s.result := rfl
@[simp] theorem State.withSr_program (s : State) (x) : (s.withSr x).program = s.program := rfl
@[simp] theorem State.withSr_sched (s : State) (x) : (s.withSr x).sched = s.sched := rfl
@[simp] theorem State.withSr_draws (s : State) (x) : (s.withSr x).draws = s.draws := rfl

/-! ## `State.withCr` -/
@[simp] theorem State.withCr_params (s : State) (x) : (s.withCr x).params = s.params := rfl
@[simp] theorem State.withCr_acr (s : State) (x) : (s.withCr x).acr = s.acr := rfl
@[simp] theorem State.withCr_sr (s : State) (x) : (s.withCr x).sr = s.sr := rfl
@[simp] theorem State.withCr_cr (s : State) (x) : (s.withCr x).cr = x := rfl
@[simp] theorem State.withCr_optcr (s : State) (x) : (s.withCr x).optcr = s.optcr := rfl
@[simp] theorem State.withCr_ks (s : State) (x) : (s.withCr x).ks = s.ks := rfl
@[simp] theorem State.withCr_oks (s : State) (x) : (s.withCr x).oks = s.oks := rfl
@[simp] theorem State.withCr_pend (s : State) (x) : (s.withCr x).pend = s.pend := rfl
@[simp] theorem State.withCr_ob (s : State) (x) : (s.withCr x).ob = s.ob := rfl
@[simp] theorem State.withCr_arr (s : State) (x) : (s.withCr x).arr = s.arr := rfl
@[simp] theorem State.withCr_stale (s : State) (x) : (s.withCr x).stale = s.stale := rfl
@[simp] theorem State.withCr_fault (s : State) (x) : (s.withCr x).fault = s.fault := rfl
@[simp] theorem State.withCr_refused (s : State) (x) : (s.withCr x).refused = s.refused := rfl
@[simp] theorem State.withCr_run (s : State) (x) : (s.withCr x).run = s.run := rfl
@[simp] theorem State.withCr_held (s : State) (x) : (s.withCr x).held = s.held := rfl
@[simp] theorem State.withCr_rdata (s : State) (x) : (s.withCr x).rdata = s.rdata := rfl
@[simp] theorem State.withCr_result (s : State) (x) : (s.withCr x).result = s.result := rfl
@[simp] theorem State.withCr_program (s : State) (x) : (s.withCr x).program = s.program := rfl
@[simp] theorem State.withCr_sched (s : State) (x) : (s.withCr x).sched = s.sched := rfl
@[simp] theorem State.withCr_draws (s : State) (x) : (s.withCr x).draws = s.draws := rfl

/-! ## `State.withOptcr` -/
@[simp] theorem State.withOptcr_params (s : State) (x) : (s.withOptcr x).params = s.params := rfl
@[simp] theorem State.withOptcr_acr (s : State) (x) : (s.withOptcr x).acr = s.acr := rfl
@[simp] theorem State.withOptcr_sr (s : State) (x) : (s.withOptcr x).sr = s.sr := rfl
@[simp] theorem State.withOptcr_cr (s : State) (x) : (s.withOptcr x).cr = s.cr := rfl
@[simp] theorem State.withOptcr_optcr (s : State) (x) : (s.withOptcr x).optcr = x := rfl
@[simp] theorem State.withOptcr_ks (s : State) (x) : (s.withOptcr x).ks = s.ks := rfl
@[simp] theorem State.withOptcr_oks (s : State) (x) : (s.withOptcr x).oks = s.oks := rfl
@[simp] theorem State.withOptcr_pend (s : State) (x) : (s.withOptcr x).pend = s.pend := rfl
@[simp] theorem State.withOptcr_ob (s : State) (x) : (s.withOptcr x).ob = s.ob := rfl
@[simp] theorem State.withOptcr_arr (s : State) (x) : (s.withOptcr x).arr = s.arr := rfl
@[simp] theorem State.withOptcr_stale (s : State) (x) : (s.withOptcr x).stale = s.stale := rfl
@[simp] theorem State.withOptcr_fault (s : State) (x) : (s.withOptcr x).fault = s.fault := rfl
@[simp] theorem State.withOptcr_refused (s : State) (x) : (s.withOptcr x).refused = s.refused := rfl
@[simp] theorem State.withOptcr_run (s : State) (x) : (s.withOptcr x).run = s.run := rfl
@[simp] theorem State.withOptcr_held (s : State) (x) : (s.withOptcr x).held = s.held := rfl
@[simp] theorem State.withOptcr_rdata (s : State) (x) : (s.withOptcr x).rdata = s.rdata := rfl
@[simp] theorem State.withOptcr_result (s : State) (x) : (s.withOptcr x).result = s.result := rfl
@[simp] theorem State.withOptcr_program (s : State) (x) : (s.withOptcr x).program = s.program := rfl
@[simp] theorem State.withOptcr_sched (s : State) (x) : (s.withOptcr x).sched = s.sched := rfl
@[simp] theorem State.withOptcr_draws (s : State) (x) : (s.withOptcr x).draws = s.draws := rfl

/-! ## `State.withKs` -/
@[simp] theorem State.withKs_params (s : State) (x) : (s.withKs x).params = s.params := rfl
@[simp] theorem State.withKs_acr (s : State) (x) : (s.withKs x).acr = s.acr := rfl
@[simp] theorem State.withKs_sr (s : State) (x) : (s.withKs x).sr = s.sr := rfl
@[simp] theorem State.withKs_cr (s : State) (x) : (s.withKs x).cr = s.cr := rfl
@[simp] theorem State.withKs_optcr (s : State) (x) : (s.withKs x).optcr = s.optcr := rfl
@[simp] theorem State.withKs_ks (s : State) (x) : (s.withKs x).ks = x := rfl
@[simp] theorem State.withKs_oks (s : State) (x) : (s.withKs x).oks = s.oks := rfl
@[simp] theorem State.withKs_pend (s : State) (x) : (s.withKs x).pend = s.pend := rfl
@[simp] theorem State.withKs_ob (s : State) (x) : (s.withKs x).ob = s.ob := rfl
@[simp] theorem State.withKs_arr (s : State) (x) : (s.withKs x).arr = s.arr := rfl
@[simp] theorem State.withKs_stale (s : State) (x) : (s.withKs x).stale = s.stale := rfl
@[simp] theorem State.withKs_fault (s : State) (x) : (s.withKs x).fault = s.fault := rfl
@[simp] theorem State.withKs_refused (s : State) (x) : (s.withKs x).refused = s.refused := rfl
@[simp] theorem State.withKs_run (s : State) (x) : (s.withKs x).run = s.run := rfl
@[simp] theorem State.withKs_held (s : State) (x) : (s.withKs x).held = s.held := rfl
@[simp] theorem State.withKs_rdata (s : State) (x) : (s.withKs x).rdata = s.rdata := rfl
@[simp] theorem State.withKs_result (s : State) (x) : (s.withKs x).result = s.result := rfl
@[simp] theorem State.withKs_program (s : State) (x) : (s.withKs x).program = s.program := rfl
@[simp] theorem State.withKs_sched (s : State) (x) : (s.withKs x).sched = s.sched := rfl
@[simp] theorem State.withKs_draws (s : State) (x) : (s.withKs x).draws = s.draws := rfl

/-! ## `State.withOks` -/
@[simp] theorem State.withOks_params (s : State) (x) : (s.withOks x).params = s.params := rfl
@[simp] theorem State.withOks_acr (s : State) (x) : (s.withOks x).acr = s.acr := rfl
@[simp] theorem State.withOks_sr (s : State) (x) : (s.withOks x).sr = s.sr := rfl
@[simp] theorem State.withOks_cr (s : State) (x) : (s.withOks x).cr = s.cr := rfl
@[simp] theorem State.withOks_optcr (s : State) (x) : (s.withOks x).optcr = s.optcr := rfl
@[simp] theorem State.withOks_ks (s : State) (x) : (s.withOks x).ks = s.ks := rfl
@[simp] theorem State.withOks_oks (s : State) (x) : (s.withOks x).oks = x := rfl
@[simp] theorem State.withOks_pend (s : State) (x) : (s.withOks x).pend = s.pend := rfl
@[simp] theorem State.withOks_ob (s : State) (x) : (s.withOks x).ob = s.ob := rfl
@[simp] theorem State.withOks_arr (s : State) (x) : (s.withOks x).arr = s.arr := rfl
@[simp] theorem State.withOks_stale (s : State) (x) : (s.withOks x).stale = s.stale := rfl
@[simp] theorem State.withOks_fault (s : State) (x) : (s.withOks x).fault = s.fault := rfl
@[simp] theorem State.withOks_refused (s : State) (x) : (s.withOks x).refused = s.refused := rfl
@[simp] theorem State.withOks_run (s : State) (x) : (s.withOks x).run = s.run := rfl
@[simp] theorem State.withOks_held (s : State) (x) : (s.withOks x).held = s.held := rfl
@[simp] theorem State.withOks_rdata (s : State) (x) : (s.withOks x).rdata = s.rdata := rfl
@[simp] theorem State.withOks_result (s : State) (x) : (s.withOks x).result = s.result := rfl
@[simp] theorem State.withOks_program (s : State) (x) : (s.withOks x).program = s.program := rfl
@[simp] theorem State.withOks_sched (s : State) (x) : (s.withOks x).sched = s.sched := rfl
@[simp] theorem State.withOks_draws (s : State) (x) : (s.withOks x).draws = s.draws := rfl

/-! ## `State.withPend` -/
@[simp] theorem State.withPend_params (s : State) (x) : (s.withPend x).params = s.params := rfl
@[simp] theorem State.withPend_acr (s : State) (x) : (s.withPend x).acr = s.acr := rfl
@[simp] theorem State.withPend_sr (s : State) (x) : (s.withPend x).sr = s.sr := rfl
@[simp] theorem State.withPend_cr (s : State) (x) : (s.withPend x).cr = s.cr := rfl
@[simp] theorem State.withPend_optcr (s : State) (x) : (s.withPend x).optcr = s.optcr := rfl
@[simp] theorem State.withPend_ks (s : State) (x) : (s.withPend x).ks = s.ks := rfl
@[simp] theorem State.withPend_oks (s : State) (x) : (s.withPend x).oks = s.oks := rfl
@[simp] theorem State.withPend_pend (s : State) (x) : (s.withPend x).pend = x := rfl
@[simp] theorem State.withPend_ob (s : State) (x) : (s.withPend x).ob = s.ob := rfl
@[simp] theorem State.withPend_arr (s : State) (x) : (s.withPend x).arr = s.arr := rfl
@[simp] theorem State.withPend_stale (s : State) (x) : (s.withPend x).stale = s.stale := rfl
@[simp] theorem State.withPend_fault (s : State) (x) : (s.withPend x).fault = s.fault := rfl
@[simp] theorem State.withPend_refused (s : State) (x) : (s.withPend x).refused = s.refused := rfl
@[simp] theorem State.withPend_run (s : State) (x) : (s.withPend x).run = s.run := rfl
@[simp] theorem State.withPend_held (s : State) (x) : (s.withPend x).held = s.held := rfl
@[simp] theorem State.withPend_rdata (s : State) (x) : (s.withPend x).rdata = s.rdata := rfl
@[simp] theorem State.withPend_result (s : State) (x) : (s.withPend x).result = s.result := rfl
@[simp] theorem State.withPend_program (s : State) (x) : (s.withPend x).program = s.program := rfl
@[simp] theorem State.withPend_sched (s : State) (x) : (s.withPend x).sched = s.sched := rfl
@[simp] theorem State.withPend_draws (s : State) (x) : (s.withPend x).draws = s.draws := rfl

/-! ## `State.withOb` -/
@[simp] theorem State.withOb_params (s : State) (x) : (s.withOb x).params = s.params := rfl
@[simp] theorem State.withOb_acr (s : State) (x) : (s.withOb x).acr = s.acr := rfl
@[simp] theorem State.withOb_sr (s : State) (x) : (s.withOb x).sr = s.sr := rfl
@[simp] theorem State.withOb_cr (s : State) (x) : (s.withOb x).cr = s.cr := rfl
@[simp] theorem State.withOb_optcr (s : State) (x) : (s.withOb x).optcr = s.optcr := rfl
@[simp] theorem State.withOb_ks (s : State) (x) : (s.withOb x).ks = s.ks := rfl
@[simp] theorem State.withOb_oks (s : State) (x) : (s.withOb x).oks = s.oks := rfl
@[simp] theorem State.withOb_pend (s : State) (x) : (s.withOb x).pend = s.pend := rfl
@[simp] theorem State.withOb_ob (s : State) (x) : (s.withOb x).ob = x := rfl
@[simp] theorem State.withOb_arr (s : State) (x) : (s.withOb x).arr = s.arr := rfl
@[simp] theorem State.withOb_stale (s : State) (x) : (s.withOb x).stale = s.stale := rfl
@[simp] theorem State.withOb_fault (s : State) (x) : (s.withOb x).fault = s.fault := rfl
@[simp] theorem State.withOb_refused (s : State) (x) : (s.withOb x).refused = s.refused := rfl
@[simp] theorem State.withOb_run (s : State) (x) : (s.withOb x).run = s.run := rfl
@[simp] theorem State.withOb_held (s : State) (x) : (s.withOb x).held = s.held := rfl
@[simp] theorem State.withOb_rdata (s : State) (x) : (s.withOb x).rdata = s.rdata := rfl
@[simp] theorem State.withOb_result (s : State) (x) : (s.withOb x).result = s.result := rfl
@[simp] theorem State.withOb_program (s : State) (x) : (s.withOb x).program = s.program := rfl
@[simp] theorem State.withOb_sched (s : State) (x) : (s.withOb x).sched = s.sched := rfl
@[simp] theorem State.withOb_draws (s : State) (x) : (s.withOb x).draws = s.draws := rfl

/-! ## `State.withArr` -/
@[simp] theorem State.withArr_params (s : State) (x) : (s.withArr x).params = s.params := rfl
@[simp] theorem State.withArr_acr (s : State) (x) : (s.withArr x).acr = s.acr := rfl
@[simp] theorem State.withArr_sr (s : State) (x) : (s.withArr x).sr = s.sr := rfl
@[simp] theorem State.withArr_cr (s : State) (x) : (s.withArr x).cr = s.cr := rfl
@[simp] theorem State.withArr_optcr (s : State) (x) : (s.withArr x).optcr = s.optcr := rfl
@[simp] theorem State.withArr_ks (s : State) (x) : (s.withArr x).ks = s.ks := rfl
@[simp] theorem State.withArr_oks (s : State) (x) : (s.withArr x).oks = s.oks := rfl
@[simp] theorem State.withArr_pend (s : State) (x) : (s.withArr x).pend = s.pend := rfl
@[simp] theorem State.withArr_ob (s : State) (x) : (s.withArr x).ob = s.ob := rfl
@[simp] theorem State.withArr_arr (s : State) (x) : (s.withArr x).arr = x := rfl
@[simp] theorem State.withArr_stale (s : State) (x) : (s.withArr x).stale = s.stale := rfl
@[simp] theorem State.withArr_fault (s : State) (x) : (s.withArr x).fault = s.fault := rfl
@[simp] theorem State.withArr_refused (s : State) (x) : (s.withArr x).refused = s.refused := rfl
@[simp] theorem State.withArr_run (s : State) (x) : (s.withArr x).run = s.run := rfl
@[simp] theorem State.withArr_held (s : State) (x) : (s.withArr x).held = s.held := rfl
@[simp] theorem State.withArr_rdata (s : State) (x) : (s.withArr x).rdata = s.rdata := rfl
@[simp] theorem State.withArr_result (s : State) (x) : (s.withArr x).result = s.result := rfl
@[simp] theorem State.withArr_program (s : State) (x) : (s.withArr x).program = s.program := rfl
@[simp] theorem State.withArr_sched (s : State) (x) : (s.withArr x).sched = s.sched := rfl
@[simp] theorem State.withArr_draws (s : State) (x) : (s.withArr x).draws = s.draws := rfl

/-! ## `State.withStale` -/
@[simp] theorem State.withStale_params (s : State) (x) : (s.withStale x).params = s.params := rfl
@[simp] theorem State.withStale_acr (s : State) (x) : (s.withStale x).acr = s.acr := rfl
@[simp] theorem State.withStale_sr (s : State) (x) : (s.withStale x).sr = s.sr := rfl
@[simp] theorem State.withStale_cr (s : State) (x) : (s.withStale x).cr = s.cr := rfl
@[simp] theorem State.withStale_optcr (s : State) (x) : (s.withStale x).optcr = s.optcr := rfl
@[simp] theorem State.withStale_ks (s : State) (x) : (s.withStale x).ks = s.ks := rfl
@[simp] theorem State.withStale_oks (s : State) (x) : (s.withStale x).oks = s.oks := rfl
@[simp] theorem State.withStale_pend (s : State) (x) : (s.withStale x).pend = s.pend := rfl
@[simp] theorem State.withStale_ob (s : State) (x) : (s.withStale x).ob = s.ob := rfl
@[simp] theorem State.withStale_arr (s : State) (x) : (s.withStale x).arr = s.arr := rfl
@[simp] theorem State.withStale_stale (s : State) (x) : (s.withStale x).stale = x := rfl
@[simp] theorem State.withStale_fault (s : State) (x) : (s.withStale x).fault = s.fault := rfl
@[simp] theorem State.withStale_refused (s : State) (x) : (s.withStale x).refused = s.refused := rfl
@[simp] theorem State.withStale_run (s : State) (x) : (s.withStale x).run = s.run := rfl
@[simp] theorem State.withStale_held (s : State) (x) : (s.withStale x).held = s.held := rfl
@[simp] theorem State.withStale_rdata (s : State) (x) : (s.withStale x).rdata = s.rdata := rfl
@[simp] theorem State.withStale_result (s : State) (x) : (s.withStale x).result = s.result := rfl
@[simp] theorem State.withStale_program (s : State) (x) : (s.withStale x).program = s.program := rfl
@[simp] theorem State.withStale_sched (s : State) (x) : (s.withStale x).sched = s.sched := rfl
@[simp] theorem State.withStale_draws (s : State) (x) : (s.withStale x).draws = s.draws := rfl

/-! ## `State.withFault` -/
@[simp] theorem State.withFault_params (s : State) (x) : (s.withFault x).params = s.params := rfl
@[simp] theorem State.withFault_acr (s : State) (x) : (s.withFault x).acr = s.acr := rfl
@[simp] theorem State.withFault_sr (s : State) (x) : (s.withFault x).sr = s.sr := rfl
@[simp] theorem State.withFault_cr (s : State) (x) : (s.withFault x).cr = s.cr := rfl
@[simp] theorem State.withFault_optcr (s : State) (x) : (s.withFault x).optcr = s.optcr := rfl
@[simp] theorem State.withFault_ks (s : State) (x) : (s.withFault x).ks = s.ks := rfl
@[simp] theorem State.withFault_oks (s : State) (x) : (s.withFault x).oks = s.oks := rfl
@[simp] theorem State.withFault_pend (s : State) (x) : (s.withFault x).pend = s.pend := rfl
@[simp] theorem State.withFault_ob (s : State) (x) : (s.withFault x).ob = s.ob := rfl
@[simp] theorem State.withFault_arr (s : State) (x) : (s.withFault x).arr = s.arr := rfl
@[simp] theorem State.withFault_stale (s : State) (x) : (s.withFault x).stale = s.stale := rfl
@[simp] theorem State.withFault_fault (s : State) (x) : (s.withFault x).fault = x := rfl
@[simp] theorem State.withFault_refused (s : State) (x) : (s.withFault x).refused = s.refused := rfl
@[simp] theorem State.withFault_run (s : State) (x) : (s.withFault x).run = s.run := rfl
@[simp] theorem State.withFault_held (s : State) (x) : (s.withFault x).held = s.held := rfl
@[simp] theorem State.withFault_rdata (s : State) (x) : (s.withFault x).rdata = s.rdata := rfl
@[simp] theorem State.withFault_result (s : State) (x) : (s.withFault x).result = s.result := rfl
@[simp] theorem State.withFault_program (s : State) (x) : (s.withFault x).program = s.program := rfl
@[simp] theorem State.withFault_sched (s : State) (x) : (s.withFault x).sched = s.sched := rfl
@[simp] theorem State.withFault_draws (s : State) (x) : (s.withFault x).draws = s.draws := rfl

/-! ## `State.withRefused` -/
@[simp] theorem State.withRefused_params (s : State) (x) : (s.withRefused x).params = s.params := rfl
@[simp] theorem State.withRefused_acr (s : State) (x) : (s.withRefused x).acr = s.acr := rfl
@[simp] theorem State.withRefused_sr (s : State) (x) : (s.withRefused x).sr = s.sr := rfl
@[simp] theorem State.withRefused_cr (s : State) (x) : (s.withRefused x).cr = s.cr := rfl
@[simp] theorem State.withRefused_optcr (s : State) (x) : (s.withRefused x).optcr = s.optcr := rfl
@[simp] theorem State.withRefused_ks (s : State) (x) : (s.withRefused x).ks = s.ks := rfl
@[simp] theorem State.withRefused_oks (s : State) (x) : (s.withRefused x).oks = s.oks := rfl
@[simp] theorem State.withRefused_pend (s : State) (x) : (s.withRefused x).pend = s.pend := rfl
@[simp] theorem State.withRefused_ob (s : State) (x) : (s.withRefused x).ob = s.ob := rfl
@[simp] theorem State.withRefused_arr (s : State) (x) : (s.withRefused x).arr = s.arr := rfl
@[simp] theorem State.withRefused_stale (s : State) (x) : (s.withRefused x).stale = s.stale := rfl
@[simp] theorem State.withRefused_fault (s : State) (x) : (s.withRefused x).fault = s.fault := rfl
@[simp] theorem State.withRefused_refused (s : State) (x) : (s.withRefused x).refused = x := rfl
@[simp] theorem State.withRefused_run (s : State) (x) : (s.withRefused x).run = s.run := rfl
@[simp] theorem State.withRefused_held (s : State) (x) : (s.withRefused x).held = s.held := rfl
@[simp] theorem State.withRefused_rdata (s : State) (x) : (s.withRefused x).rdata = s.rdata := rfl
@[simp] theorem State.withRefused_result (s : State) (x) : (s.withRefused x).result = s.result := rfl
@[simp] theorem State.withRefused_program (s : State) (x) : (s.withRefused x).program = s.program := rfl
@[simp] theorem State.withRefused_sched (s : State) (x) : (s.withRefused x).sched = s.sched := rfl
@[simp] theorem State.withRefused_draws (s : State) (x) : (s.withRefused x).draws = s.draws := rfl

/-! ## `State.withRun` -/
@[simp] theorem State.withRun_params (s : State) (x) : (s.withRun x).params = s.params := rfl
@[simp] theorem State.withRun_acr (s : State) (x) : (s.withRun x).acr = s.acr := rfl
@[simp] theorem State.withRun_sr (s : State) (x) : (s.withRun x).sr = s.sr := rfl
@[simp] theorem State.withRun_cr (s : State) (x) : (s.withRun x).cr = s.cr := rfl
@[simp] theorem State.withRun_optcr (s : State) (x) : (s.withRun x).optcr = s.optcr := rfl
@[simp] theorem State.withRun_ks (s : State) (x) : (s.withRun x).ks = s.ks := rfl
@[simp] theorem State.withRun_oks (s : State) (x) : (s.withRun x).oks = s.oks := rfl
@[simp] theorem State.withRun_pend (s : State) (x) : (s.withRun x).pend = s.pend := rfl
@[simp] theorem State.withRun_ob (s : State) (x) : (s.withRun x).ob = s.ob := rfl
@[simp] theorem State.withRun_arr (s : State) (x) : (s.withRun x).arr = s.arr := rfl
@[simp] theorem State.withRun_stale (s : State) (x) : (s.withRun x).stale = s.stale := rfl
@[simp] theorem State.withRun_fault (s : State) (x) : (s.withRun x).fault = s.fault := rfl
@[simp] theorem State.withRun_refused (s : State) (x) : (s.withRun x).refused = s.refused := rfl
@[simp] theorem State.withRun_run (s : State) (x) : (s.withRun x).run = x := rfl
@[simp] theorem State.withRun_held (s : State) (x) : (s.withRun x).held = s.held := rfl
@[simp] theorem State.withRun_rdata (s : State) (x) : (s.withRun x).rdata = s.rdata := rfl
@[simp] theorem State.withRun_result (s : State) (x) : (s.withRun x).result = s.result := rfl
@[simp] theorem State.withRun_program (s : State) (x) : (s.withRun x).program = s.program := rfl
@[simp] theorem State.withRun_sched (s : State) (x) : (s.withRun x).sched = s.sched := rfl
@[simp] theorem State.withRun_draws (s : State) (x) : (s.withRun x).draws = s.draws := rfl

/-! ## `State.withHeld` -/
@[simp] theorem State.withHeld_params (s : State) (x) : (s.withHeld x).params = s.params := rfl
@[simp] theorem State.withHeld_acr (s : State) (x) : (s.withHeld x).acr = s.acr := rfl
@[simp] theorem State.withHeld_sr (s : State) (x) : (s.withHeld x).sr = s.sr := rfl
@[simp] theorem State.withHeld_cr (s : State) (x) : (s.withHeld x).cr = s.cr := rfl
@[simp] theorem State.withHeld_optcr (s : State) (x) : (s.withHeld x).optcr = s.optcr := rfl
@[simp] theorem State.withHeld_ks (s : State) (x) : (s.withHeld x).ks = s.ks := rfl
@[simp] theorem State.withHeld_oks (s : State) (x) : (s.withHeld x).oks = s.oks := rfl
@[simp] theorem State.withHeld_pend (s : State) (x) : (s.withHeld x).pend = s.pend := rfl
@[simp] theorem State.withHeld_ob (s : State) (x) : (s.withHeld x).ob = s.ob := rfl
@[simp] theorem State.withHeld_arr (s : State) (x) : (s.withHeld x).arr = s.arr := rfl
@[simp] theorem State.withHeld_stale (s : State) (x) : (s.withHeld x).stale = s.stale := rfl
@[simp] theorem State.withHeld_fault (s : State) (x) : (s.withHeld x).fault = s.fault := rfl
@[simp] theorem State.withHeld_refused (s : State) (x) : (s.withHeld x).refused = s.refused := rfl
@[simp] theorem State.withHeld_run (s : State) (x) : (s.withHeld x).run = s.run := rfl
@[simp] theorem State.withHeld_held (s : State) (x) : (s.withHeld x).held = x := rfl
@[simp] theorem State.withHeld_rdata (s : State) (x) : (s.withHeld x).rdata = s.rdata := rfl
@[simp] theorem State.withHeld_result (s : State) (x) : (s.withHeld x).result = s.result := rfl
@[simp] theorem State.withHeld_program (s : State) (x) : (s.withHeld x).program = s.program := rfl
@[simp] theorem State.withHeld_sched (s : State) (x) : (s.withHeld x).sched = s.sched := rfl
@[simp] theorem State.withHeld_draws (s : State) (x) : (s.withHeld x).draws = s.draws := rfl

/-! ## `State.withRdata` -/
@[simp] theorem State.withRdata_params (s : State) (x) : (s.withRdata x).params = s.params := rfl
@[simp] theorem State.withRdata_acr (s : State) (x) : (s.withRdata x).acr = s.acr := rfl
@[simp] theorem State.withRdata_sr (s : State) (x) : (s.withRdata x).sr = s.sr := rfl
@[simp] theorem State.withRdata_cr (s : State) (x) : (s.withRdata x).cr = s.cr := rfl
@[simp] theorem State.withRdata_optcr (s : State) (x) : (s.withRdata x).optcr = s.optcr := rfl
@[simp] theorem State.withRdata_ks (s : State) (x) : (s.withRdata x).ks = s.ks := rfl
@[simp] theorem State.withRdata_oks (s : State) (x) : (s.withRdata x).oks = s.oks := rfl
@[simp] theorem State.withRdata_pend (s : State) (x) : (s.withRdata x).pend = s.pend := rfl
@[simp] theorem State.withRdata_ob (s : State) (x) : (s.withRdata x).ob = s.ob := rfl
@[simp] theorem State.withRdata_arr (s : State) (x) : (s.withRdata x).arr = s.arr := rfl
@[simp] theorem State.withRdata_stale (s : State) (x) : (s.withRdata x).stale = s.stale := rfl
@[simp] theorem State.withRdata_fault (s : State) (x) : (s.withRdata x).fault = s.fault := rfl
@[simp] theorem State.withRdata_refused (s : State) (x) : (s.withRdata x).refused = s.refused := rfl
@[simp] theorem State.withRdata_run (s : State) (x) : (s.withRdata x).run = s.run := rfl
@[simp] theorem State.withRdata_held (s : State) (x) : (s.withRdata x).held = s.held := rfl
@[simp] theorem State.withRdata_rdata (s : State) (x) : (s.withRdata x).rdata = x := rfl
@[simp] theorem State.withRdata_result (s : State) (x) : (s.withRdata x).result = s.result := rfl
@[simp] theorem State.withRdata_program (s : State) (x) : (s.withRdata x).program = s.program := rfl
@[simp] theorem State.withRdata_sched (s : State) (x) : (s.withRdata x).sched = s.sched := rfl
@[simp] theorem State.withRdata_draws (s : State) (x) : (s.withRdata x).draws = s.draws := rfl

/-! ## `State.withResult` -/
@[simp] theorem State.withResult_params (s : State) (x) : (s.withResult x).params = s.params := rfl
@[simp] theorem State.withResult_acr (s : State) (x) : (s.withResult x).acr = s.acr := rfl
@[simp] theorem State.withResult_sr (s : State) (x) : (s.withResult x).sr = s.sr := rfl
@[simp] theorem State.withResult_cr (s : State) (x) : (s.withResult x).cr = s.cr := rfl
@[simp] theorem State.withResult_optcr (s : State) (x) : (s.withResult x).optcr = s.optcr := rfl
@[simp] theorem State.withResult_ks (s : State) (x) : (s.withResult x).ks = s.ks := rfl
@[simp] theorem State.withResult_oks (s : State) (x) : (s.withResult x).oks = s.oks := rfl
@[simp] theorem State.withResult_pend (s : State) (x) : (s.withResult x).pend = s.pend := rfl
@[simp] theorem State.withResult_ob (s : State) (x) : (s.withResult x).ob = s.ob := rfl
@[simp] theorem State.withResult_arr (s : State) (x) : (s.withResult x).arr = s.arr := rfl
@[simp] theorem State.withResult_stale (s : State) (x) : (s.withResult x).stale = s.stale := rfl
@[simp] theorem State.withResult_fault (s : State) (x) : (s.withResult x).fault = s.fault := rfl
@[simp] theorem State.withResult_refused (s : State) (x) : (s.withResult x).refused = s.refused := rfl
@[simp] theorem State.withResult_run (s : State) (x) : (s.withResult x).run = s.run := rfl
@[simp] theorem State.withResult_held (s : State) (x) : (s.withResult x).held = s.held := rfl
@[simp] theorem State.withResult_rdata (s : State) (x) : (s.withResult x).rdata = s.rdata := rfl
@[simp] theorem State.withResult_result (s : State) (x) : (s.withResult x).result = x := rfl
@[simp] theorem State.withResult_program (s : State) (x) : (s.withResult x).program = s.program := rfl
@[simp] theorem State.withResult_sched (s : State) (x) : (s.withResult x).sched = s.sched := rfl
@[simp] theorem State.withResult_draws (s : State) (x) : (s.withResult x).draws = s.draws := rfl

/-! ## `State.withProgram` -/
@[simp] theorem State.withProgram_params (s : State) (x) : (s.withProgram x).params = s.params := rfl
@[simp] theorem State.withProgram_acr (s : State) (x) : (s.withProgram x).acr = s.acr := rfl
@[simp] theorem State.withProgram_sr (s : State) (x) : (s.withProgram x).sr = s.sr := rfl
@[simp] theorem State.withProgram_cr (s : State) (x) : (s.withProgram x).cr = s.cr := rfl
@[simp] theorem State.withProgram_optcr (s : State) (x) : (s.withProgram x).optcr = s.optcr := rfl
@[simp] theorem State.withProgram_ks (s : State) (x) : (s.withProgram x).ks = s.ks := rfl
@[simp] theorem State.withProgram_oks (s : State) (x) : (s.withProgram x).oks = s.oks := rfl
@[simp] theorem State.withProgram_pend (s : State) (x) : (s.withProgram x).pend = s.pend := rfl
@[simp] theorem State.withProgram_ob (s : State) (x) : (s.withProgram x).ob = s.ob := rfl
@[simp] theorem State.withProgram_arr (s : State) (x) : (s.withProgram x).arr = s.arr := rfl
@[simp] theorem State.withProgram_stale (s : State) (x) : (s.withProgram x).stale = s.stale := rfl
@[simp] theorem State.withProgram_fault (s : State) (x) : (s.withProgram x).fault = s.fault := rfl
@[simp] theorem State.withProgram_refused (s : State) (x) : (s.withProgram x).refused = s.refused := rfl
@[simp] theorem State.withProgram_run (s : State) (x) : (s.withProgram x).run = s.run := rfl
@[simp] theorem State.withProgram_held (s : State) (x) : (s.withProgram x).held = s.held := rfl
@[simp] theorem State.withProgram_rdata (s : State) (x) : (s.withProgram x).rdata = s.rdata := rfl
@[simp] theorem State.withProgram_result (s : State) (x) : (s.withProgram x).result = s.result := rfl
@[simp] theorem State.withProgram_program (s : State) (x) : (s.withProgram x).program = x := rfl
@[simp] theorem State.withProgram_sched (s : State) (x) : (s.withProgram x).sched = s.sched := rfl
@[simp] theorem State.withProgram_draws (s : State) (x) : (s.withProgram x).draws = s.draws := rfl

/-! ## `State.withSched` -/
@[simp] theorem State.withSched_params (s : State) (x) : (s.withSched x).params = s.params := rfl
@[simp] theorem State.withSched_acr (s : State) (x) : (s.withSched x).acr = s.acr := rfl
@[simp] theorem State.withSched_sr (s : State) (x) : (s.withSched x).sr = s.sr := rfl
@[simp] theorem State.withSched_cr (s : State) (x) : (s.withSched x).cr = s.cr := rfl
@[simp] theorem State.withSched_optcr (s : State) (x) : (s.withSched x).optcr = s.optcr := rfl
@[simp] theorem State.withSched_ks (s : State) (x) : (s.withSched x).ks = s.ks := rfl
@[simp] theorem State.withSched_oks (s : State) (x) : (s.withSched x).oks = s.oks := rfl
@[simp] theorem State.withSched_pend (s : State) (x) : (s.withSched x).pend = s.pend := rfl
@[simp] theorem State.withSched_ob (s : State) (x) : (s.withSched x).ob = s.ob := rfl
@[simp] theorem State.withSched_arr (s : State) (x) : (s.withSched x).arr = s.arr := rfl
@[simp] theorem State.withSched_stale (s : State) (x) : (s.withSched x).stale = s.stale := rfl
@[simp] theorem State.withSched_fault (s : State) (x) : (s.withSched x).fault = s.fault := rfl
@[simp] theorem State.withSched_refused (s : State) (x) : (s.withSched x).refused = s.refused := rfl
@[simp] theorem State.withSched_run (s : State) (x) : (s.withSched x).run = s.run := rfl
@[simp] theorem State.withSched_held (s : State) (x) : (s.withSched x).held = s.held := rfl
@[simp] theorem State.withSched_rdata (s : State) (x) : (s.withSched x).rdata = s.rdata := rfl
@[simp] theorem State.withSched_result (s : State) (x) : (s.withSched x).result = s.result := rfl
@[simp] theorem State.withSched_program (s : State) (x) : (s.withSched x).program = s.program := rfl
@[simp] theorem State.withSched_sched (s : State) (x) : (s.withSched x).sched = x := rfl
@[simp] theorem State.withSched_draws (s : State) (x) : (s.withSched x).draws = s.draws := rfl

/-! ## `State.withDraws` -/
@[simp] theorem State.withDraws_params (s : State) (x) : (s.withDraws x).params = s.params := rfl
@[simp] theorem State.withDraws_acr (s : State) (x) : (s.withDraws x).acr = s.acr := rfl
@[simp] theorem State.withDraws_sr (s : State) (x) : (s.withDraws x).sr = s.sr := rfl
@[simp] theorem State.withDraws_cr (s : State) (x) : (s.withDraws x).cr = s.cr := rfl
@[simp] theorem State.withDraws_optcr (s : State) (x) : (s.withDraws x).optcr = s.optcr := rfl
@[simp] theorem State.withDraws_ks (s : State) (x) : (s.withDraws x).ks = s.ks := rfl
@[simp] theorem State.withDraws_oks (s : State) (x) : (s.withDraws x).oks = s.oks := rfl
@[simp] theorem State.withDraws_pend (s : State) (x) : (s.withDraws x).pend = s.pend := rfl
@[simp] theorem State.withDraws_ob (s : State) (x) : (s.withDraws x).ob = s.ob := rfl
@[simp] theorem State.withDraws_arr (s : State) (x) : (s.withDraws x).arr = s.arr := rfl
@[simp] theorem State.withDraws_stale (s : State) (x) : (s.withDraws x).stale = s.stale := rfl
@[simp] theorem State.withDraws_fault (s : State) (x) : (s.withDraws x).fault = s.fault := rfl
@[simp] theorem State.withDraws_refused (s : State) (x) : (s.withDraws x).refused = s.refused := rfl
@[simp] theorem State.withDraws_run (s : State) (x) : (s.withDraws x).run = s.run := rfl
@[simp] theorem State.withDraws_held (s : State) (x) : (s.withDraws x).held = s.held := rfl
@[simp] theorem State.withDraws_rdata (s : State) (x) : (s.withDraws x).rdata = s.rdata := rfl
@[simp] theorem State.withDraws_result (s : State) (x) : (s.withDraws x).result = s.result := rfl
@[simp] theorem State.withDraws_program (s : State) (x) : (s.withDraws x).program = s.program := rfl
@[simp] theorem State.withDraws_sched (s : State) (x) : (s.withDraws x).sched = s.sched := rfl
@[simp] theorem State.withDraws_draws (s : State) (x) : (s.withDraws x).draws = x := rfl

/-! ## Launch -/
@[simp] theorem State.launch_params (p ob m) : (State.launch p ob m).params = p := rfl
@[simp] theorem State.launch_acr (p ob m) : (State.launch p ob m).acr = AcrFields.reset := rfl
@[simp] theorem State.launch_sr (p ob m) : (State.launch p ob m).sr = SrFlags.reset := rfl
@[simp] theorem State.launch_cr (p ob m) : (State.launch p ob m).cr = CrFields.reset := rfl
@[simp] theorem State.launch_optcr (p ob m) : (State.launch p ob m).optcr = ob := rfl
@[simp] theorem State.launch_ks (p ob m) : (State.launch p ob m).ks = .wait1 := rfl
@[simp] theorem State.launch_oks (p ob m) : (State.launch p ob m).oks = .wait1 := rfl
@[simp] theorem State.launch_pend (p ob m) : (State.launch p ob m).pend = .none := rfl
@[simp] theorem State.launch_ob (p ob m) : (State.launch p ob m).ob = ob := rfl
@[simp] theorem State.launch_arr (p ob m) : (State.launch p ob m).arr = m := rfl
@[simp] theorem State.launch_stale (p ob m) : (State.launch p ob m).stale = [] := rfl
@[simp] theorem State.launch_fault (p ob m) : (State.launch p ob m).fault = none := rfl
@[simp] theorem State.launch_refused (p ob m) : (State.launch p ob m).refused = false := rfl
@[simp] theorem State.launch_run (p ob m) : (State.launch p ob m).run = none := rfl
@[simp] theorem State.launch_held (p ob m) : (State.launch p ob m).held = false := rfl
@[simp] theorem State.launch_rdata (p ob m) : (State.launch p ob m).rdata = 0 := rfl
@[simp] theorem State.launch_result (p ob m) : (State.launch p ob m).result = .nothing := rfl
@[simp] theorem State.launch_program (p ob m) : (State.launch p ob m).program = [] := rfl
@[simp] theorem State.launch_sched (p ob m) : (State.launch p ob m).sched = [] := rfl
@[simp] theorem State.launch_draws (p ob m) : (State.launch p ob m).draws = 0 := rfl

end Sys2Proof.Machine
end

