-- ==== Sys2Proof/Laws/Ops.lean ====
section
/-! SUPPORT. What each shared operation can do, said once: its cases, and the fields it writes (its frame). A frame
lemma writes the result as an update of the state before, so every other field is unchanged by `congrArg`. -/

namespace Sys2Proof.Machine

/-! ## Outcomes -/

/-- An issued transaction always answers a next state: it completed, or it holds. -/
theorem issue_cases (t : Txn) (s : State) :
    (∃ s', t s = some s' ∧ issue t s = .next (s'.withHeld false)) ∨
      (t s = none ∧ issue t s = .next (s.withHeld true)) := by
  unfold issue
  cases h : t s with
  | none => exact .inr ⟨rfl, rfl⟩
  | some s' => exact .inl ⟨s', rfl, rfl⟩

theorem issue_of_some {t : Txn} {s s' : State} (h : t s = some s') : issue t s = .next (s'.withHeld false) := by
  simp [issue, h]

theorem issue_of_none {t : Txn} {s : State} (h : t s = none) : issue t s = .next (s.withHeld true) := by
  simp [issue, h]

theorem unlessBusy_idle {f : State → State} {s : State} (h : busy s = false) : unlessBusy f s = some (f s) := by
  simp [unlessBusy, h]

theorem unlessBusy_busy {f : State → State} {s : State} (h : busy s = true) : unlessBusy f s = none := by
  simp [unlessBusy, h]

/-- An operation is pending exactly when `pend` is not `None` (rule R45). -/
theorem busy_eq_false_iff (s : State) : busy s = false ↔ s.pend = .none := by
  unfold busy
  cases s.pend <;> simp

theorem busy_eq_true_iff (s : State) : busy s = true ↔ s.pend ≠ .none := by
  unfold busy
  cases s.pend <;> simp

theorem isLocked_eq_false_iff (k : KeyState) : isLocked k = false ↔ k = .opened := by
  cases k <;> simp [isLocked]

/-! ## Keys -/

/-- A key write moves the key machine on, or locks it out with BusError; nothing else (rules R144, R281). -/
theorem presentKey_cases (v : Word) (s : State) :
    (s.ks = .wait1 ∧ sameKey s.params.keyWidth v s.params.key1 = true ∧ presentKey v s = s.withKs .wait2) ∨
      (s.ks = .wait2 ∧ sameKey s.params.keyWidth v s.params.key2 = true ∧ presentKey v s = s.withKs .opened) ∨
      (keyNext s.params.keyWidth s.params.key1 s.params.key2 v s.ks = none ∧
        presentKey v s = (s.withKs .lockout).withFault (some (keyrKey s.params))) := by
  unfold presentKey
  cases hk : s.ks <;> simp only [keyNext, reduceCtorEq, false_and, true_and, false_or]
  · by_cases hv : sameKey s.params.keyWidth v s.params.key1 = true <;> simp [hv, raiseBusError]
  · by_cases hv : sameKey s.params.keyWidth v s.params.key2 = true <;> simp [hv, raiseBusError]
  · rfl
  · rfl

theorem presentOptKey_cases (v : Word) (s : State) :
    (s.oks = .wait1 ∧ sameKey s.params.keyWidth v s.params.optkey1 = true ∧ presentOptKey v s = s.withOks .wait2) ∨
      (s.oks = .wait2 ∧ sameKey s.params.keyWidth v s.params.optkey2 = true ∧ presentOptKey v s = s.withOks .opened) ∨
      (keyNext s.params.keyWidth s.params.optkey1 s.params.optkey2 v s.oks = none ∧
        presentOptKey v s = (s.withOks .lockout).withFault (some (optkeyrKey s.params))) := by
  unfold presentOptKey
  cases hk : s.oks <;> simp only [keyNext, reduceCtorEq, false_and, true_and, false_or]
  · by_cases hv : sameKey s.params.keyWidth v s.params.optkey1 = true <;> simp [hv, raiseBusError]
  · by_cases hv : sameKey s.params.keyWidth v s.params.optkey2 = true <;> simp [hv, raiseBusError]
  · rfl
  · rfl

theorem presentKey_frame (v : Word) (s : State) :
    presentKey v s = { s with ks := (presentKey v s).ks, fault := (presentKey v s).fault } := by
  unfold presentKey
  split <;> rfl

theorem presentOptKey_frame (v : Word) (s : State) :
    presentOptKey v s = { s with oks := (presentOptKey v s).oks, fault := (presentOptKey v s).fault } := by
  unfold presentOptKey
  split <;> rfl

/-! ## Array reads -/

/-- An array read's four outcomes, in the order of rule R180: timing, protection, cache, stored bytes. -/
theorem arrayValue_cases (sz : AccessSize) (a : Word) (s : State) :
    (timingOk s = false ∧ arrayValue sz a s = drawnRead sz s) ∨
      (timingOk s = true ∧
        (List.range (nbytes sz)).any (fun j => rprotAt s.params.sectorMap s.ob (a.toNat + j)) = true ∧
        arrayValue sz a s = drawnRead sz (s.withSr (setRderr s.sr))) ∨
      (timingOk s = true ∧
        (List.range (nbytes sz)).any (fun j => rprotAt s.params.sectorMap s.ob (a.toNat + j)) = false ∧
        s.acr.dcen = true ∧
        arrayValue sz a s = (s.withRdata (readValue (nbytes sz) a.toNat s)).withDraws (s.draws + nbytes sz)) ∨
      (timingOk s = true ∧
        (List.range (nbytes sz)).any (fun j => rprotAt s.params.sectorMap s.ob (a.toNat + j)) = false ∧
        s.acr.dcen = false ∧ arrayValue sz a s = s.withRdata (leWord (readBytes s.arr a.toNat (nbytes sz)))) := by
  unfold arrayValue
  cases timingOk s
  · exact .inl ⟨rfl, rfl⟩
  · cases (List.range (nbytes sz)).any (fun j => rprotAt s.params.sectorMap s.ob (a.toNat + j))
    · cases hd : s.acr.dcen
      · exact .inr (.inr (.inr ⟨rfl, rfl, rfl, by simp [readValue, hd]⟩))
      · exact .inr (.inr (.inl ⟨rfl, rfl, rfl, rfl⟩))
    · exact .inr (.inl ⟨rfl, rfl, rfl⟩)

theorem arrayValue_frame (sz : AccessSize) (a : Word) (s : State) :
    arrayValue sz a s =
      { s with
        sr := (arrayValue sz a s).sr
        rdata := (arrayValue sz a s).rdata
        draws := (arrayValue sz a s).draws } := by
  rcases arrayValue_cases sz a s with ⟨-, h⟩ | ⟨-, -, h⟩ | ⟨-, -, -, h⟩ | ⟨-, -, -, h⟩ <;> rw [h] <;> rfl

/-! ## Requests -/

/-- Nothing is dropped while no sticky flag is set, and no draw is made (rule R282). -/
theorem dropped_of_not_sticky {s : State} (h : sticky s.sr = false) : dropped s = false := by simp [dropped, h]

@[simp] theorem afterDrop_of_not_sticky {s : State} (h : sticky s.sr = false) : afterDrop s = s := by
  simp [afterDrop, h]

theorem afterDrop_frame (s : State) : afterDrop s = { s with draws := (afterDrop s).draws } := by
  unfold afterDrop
  split <;> rfl

@[simp] theorem afterDrop_ks (s : State) : (afterDrop s).ks = s.ks := by rw [afterDrop_frame]
@[simp] theorem afterDrop_sr (s : State) : (afterDrop s).sr = s.sr := by rw [afterDrop_frame]
@[simp] theorem afterDrop_cr (s : State) : (afterDrop s).cr = s.cr := by rw [afterDrop_frame]
@[simp] theorem afterDrop_ob (s : State) : (afterDrop s).ob = s.ob := by rw [afterDrop_frame]
@[simp] theorem afterDrop_pend (s : State) : (afterDrop s).pend = s.pend := by rw [afterDrop_frame]

/-- A program request is dropped, rejected with every flag that applies, or starts (rules R184, R282, R283). -/
theorem programRequest_cases (sz : AccessSize) (a v : Word) (s : State) :
    (sticky s.sr = true ∧ programRequest sz a v s = afterDrop s) ∨
      ((programErrors sz a s).any = true ∧
        programRequest sz a v s = reject (programErrors sz a s) (afterDrop s)) ∨
      ((programErrors sz a s).any = false ∧
        programRequest sz a v s = (afterDrop s).withPend (.program a sz v)) := by
  unfold programRequest
  cases hd : dropped s
  · cases he : (programErrors sz a s).any <;> simp
  · refine .inl ⟨?_, rfl⟩
    simp only [dropped, Bool.and_eq_true] at hd
    exact hd.1

theorem programRequest_frame (sz : AccessSize) (a v : Word) (s : State) :
    programRequest sz a v s =
      { s with
        sr := (programRequest sz a v s).sr
        pend := (programRequest sz a v s).pend
        draws := (programRequest sz a v s).draws } := by
  rcases programRequest_cases sz a v s with ⟨-, h⟩ | ⟨-, h⟩ | ⟨-, h⟩ <;> rw [h, afterDrop_frame] <;> rfl

/-- The start check past its drop draw: rejected, or an erase starts (rule R151). -/
theorem startErase_cases (s : State) :
    (∃ e, startErase s = reject e s) ∨
      (crMode s.cr = .sectorErase ∧ startErase s = s.withPend (.sectorErase s.cr.snb)) ∨
      (crMode s.cr = .massErase ∧ startErase s = s.withPend .massErase) := by
  unfold startErase
  cases crMode s.cr
  · exact .inl ⟨_, rfl⟩
  · exact .inl ⟨_, rfl⟩
  · by_cases h : (s.cr.snb.toNat < s.params.nSectors && wprot s.ob s.cr.snb.toNat) = true
    · exact .inl ⟨_, if_pos h⟩
    · exact .inr (.inl ⟨rfl, if_neg h⟩)
  · by_cases h : anyWprot s.params s.ob = true
    · exact .inl ⟨_, if_pos h⟩
    · exact .inr (.inr ⟨rfl, if_neg h⟩)
  · exact .inl ⟨_, rfl⟩

/-- An erase request is dropped, or checked (rules R151, R282). -/
theorem eraseRequest_cases (s : State) :
    (sticky s.sr = true ∧ eraseRequest s = afterDrop s) ∨ eraseRequest s = startErase (afterDrop s) := by
  unfold eraseRequest
  cases hd : dropped s
  · exact .inr rfl
  · simp only [dropped, Bool.and_eq_true] at hd
    exact .inl ⟨hd.1, rfl⟩

theorem startErase_frame (s : State) :
    startErase s = { s with sr := (startErase s).sr, pend := (startErase s).pend } := by
  rcases startErase_cases s with ⟨e, h⟩ | ⟨-, h⟩ | ⟨-, h⟩ <;> rw [h] <;> rfl

theorem eraseRequest_frame (s : State) :
    eraseRequest s =
      { s with sr := (eraseRequest s).sr, pend := (eraseRequest s).pend, draws := (eraseRequest s).draws } := by
  rcases eraseRequest_cases s with ⟨-, h⟩ | h
  · rw [h, afterDrop_frame]
  · rw [h, startErase_frame, afterDrop_frame]

/-! ## Register and array transactions -/

theorem crWriteLocked_frame (v : Word) (s : State) :
    crWriteLocked v s = { s with cr := (crWriteLocked v s).cr } := by
  unfold crWriteLocked
  split <;> rfl

theorem crWriteOpen_frame (v : Word) (s : State) :
    crWriteOpen v s =
      { s with
        cr := (crWriteOpen v s).cr
        sr := (crWriteOpen v s).sr
        ks := (crWriteOpen v s).ks
        pend := (crWriteOpen v s).pend
        draws := (crWriteOpen v s).draws } := by
  simp only [crWriteOpen]
  cases v.getLsbD 16 <;> cases v.getLsbD 31 <;> simp only [Bool.false_eq_true, if_true, if_false]
  · rfl
  · rfl
  · rw [eraseRequest_frame]
    rfl
  · rw [eraseRequest_frame]
    rfl

theorem optcrWriteOpen_frame (v : Word) (s : State) :
    optcrWriteOpen v s =
      { s with
        optcr := (optcrWriteOpen v s).optcr
        oks := (optcrWriteOpen v s).oks
        pend := (optcrWriteOpen v s).pend } := by
  simp only [optcrWriteOpen]
  cases v.getLsbD 1 <;> cases v.getLsbD 0 <;> rfl

/-- A register read writes RDATA and nothing else (rule R140). -/
theorem readReg_frame {r : FlashReg} {s t : State} (h : readReg r s = some t) : t = { s with rdata := t.rdata } := by
  cases r <;> cases h <;> rfl

/-- A register read never holds (rule R140). -/
theorem readReg_isSome (r : FlashReg) (s : State) : (readReg r s).isSome = true := by cases r <;> rfl

/-- What a register write can change. -/
theorem writeReg_frame {r : FlashReg} {v : Word} {s t : State} (h : writeReg r v s = some t) :
    t = { s with
      acr := t.acr
      sr := t.sr
      cr := t.cr
      optcr := t.optcr
      ks := t.ks
      oks := t.oks
      pend := t.pend
      stale := t.stale
      fault := t.fault
      draws := t.draws } := by
  cases r
  · simp only [writeReg, acrWrite, Option.some.injEq] at h
    subst h
    split <;> rfl
  · simp only [writeReg, keyrWrite, Option.some.injEq] at h
    subst h
    rw [presentKey_frame]
  · simp only [writeReg, optkeyrWrite, Option.some.injEq] at h
    subst h
    rw [presentOptKey_frame]
  · cases h
    rfl
  · cases hb : busy s
    · simp only [writeReg, crWrite, unlessBusy_idle hb, Option.some.injEq] at h
      subst h
      split
      · rw [crWriteLocked_frame]
      · rw [crWriteOpen_frame]
    · simp [writeReg, crWrite, unlessBusy_busy hb] at h
  · cases hb : busy s
    · simp only [writeReg, optcrWrite, unlessBusy_idle hb, Option.some.injEq] at h
      subst h
      split
      · rfl
      · rw [optcrWriteOpen_frame]
    · simp [writeReg, optcrWrite, unlessBusy_busy hb] at h

/-- An array read completes with its value when nothing is pending, holds otherwise, and is refused at an address no
row admits. -/
theorem arrRead_cases {sz : AccessSize} {a : Word} {s t : State} (h : arrRead sz a s = some t) :
    (arrayAddressOk s.params sz a = true ∧ s.pend = .none ∧ t = arrayValue sz a s) ∨
      (arrayAddressOk s.params sz a = false ∧ t = refuse s) := by
  unfold arrRead at h
  cases ha : arrayAddressOk s.params sz a <;> simp only [ha, if_true, if_false, Bool.false_eq_true] at h
  · exact .inr ⟨rfl, (Option.some.inj h).symm⟩
  · cases hb : busy s
    · rw [unlessBusy_idle hb] at h
      exact .inl ⟨rfl, (busy_eq_false_iff s).mp hb, (Option.some.inj h).symm⟩
    · rw [unlessBusy_busy hb] at h
      cases h

theorem arrWrite_cases {sz : AccessSize} {a v : Word} {s t : State} (h : arrWrite sz a v s = some t) :
    (arrayAddressOk s.params sz a = true ∧ s.pend = .none ∧ t = programRequest sz a v s) ∨
      (arrayAddressOk s.params sz a = false ∧ t = refuse s) := by
  unfold arrWrite at h
  cases ha : arrayAddressOk s.params sz a <;> simp only [ha, if_true, if_false, Bool.false_eq_true] at h
  · exact .inr ⟨rfl, (Option.some.inj h).symm⟩
  · cases hb : busy s
    · rw [unlessBusy_idle hb] at h
      exact .inl ⟨rfl, (busy_eq_false_iff s).mp hb, (Option.some.inj h).symm⟩
    · rw [unlessBusy_busy hb] at h
      cases h

theorem arrRead_frame {sz : AccessSize} {a : Word} {s t : State} (h : arrRead sz a s = some t) :
    t = { s with sr := t.sr, rdata := t.rdata, draws := t.draws, refused := t.refused } := by
  rcases arrRead_cases h with ⟨-, -, rfl⟩ | ⟨-, rfl⟩
  · rw [arrayValue_frame]
  · rfl

theorem arrWrite_frame {sz : AccessSize} {a v : Word} {s t : State} (h : arrWrite sz a v s = some t) :
    t = { s with sr := t.sr, pend := t.pend, draws := t.draws, refused := t.refused } := by
  rcases arrWrite_cases h with ⟨-, -, rfl⟩ | ⟨-, rfl⟩
  · rw [programRequest_frame]
  · rfl

/-! ## Engine and reset -/

theorem drawRange_frame (lo n : Nat) (s : State) :
    drawRange lo n s = { s with arr := (drawRange lo n s).arr, draws := (drawRange lo n s).draws } := rfl

/-- What the engine's step does, by the operation pending (rules R200 to R204). -/
theorem engineStep_cases (s : State) :
    (s.pend = .none ∧ engineStep s = s) ∨
      (∃ a sz v, s.pend = .program a sz v ∧ engineStep s = completeProgram a sz v s) ∨
      (∃ n, s.pend = .sectorErase n ∧ engineStep s = completeSectorErase n s) ∨
      (s.pend = .massErase ∧ engineStep s = completeMassErase s) ∨
      (∃ f, s.pend = .optCommit f ∧ engineStep s = completeOptionCommit f s) := by
  unfold engineStep
  cases s.pend with
  | none => exact .inl ⟨rfl, rfl⟩
  | program a sz v => exact .inr (.inl ⟨a, sz, v, rfl, rfl⟩)
  | sectorErase n => exact .inr (.inr (.inl ⟨n, rfl, rfl⟩))
  | massErase => exact .inr (.inr (.inr (.inl ⟨rfl, rfl⟩)))
  | optCommit f => exact .inr (.inr (.inr (.inr ⟨f, rfl, rfl⟩)))

/-- A completed erase of a range writes the range, the stale candidates, `pend` and SR. -/
theorem eraseAndFinish_eq (lo n : Nat) (s : State) :
    eraseAndFinish lo n s =
      { s with
        sr := eopFlags s.sr s.cr.eopie
        pend := .none
        arr := (eraseTarget lo n s).arr
        stale := staleUpdate s.stale s.arr lo n
        draws := (eraseTarget lo n s).draws } := by
  by_cases h : 3 ≤ s.cr.psize.toNat
  · simp [eraseAndFinish, eraseTarget, rememberStale, h, drawRange, finishFlashOp, signalEop, State.withArr,
      State.withStale, State.withDraws, State.withPend, State.withSr]
  · simp [eraseAndFinish, eraseTarget, rememberStale, h, eraseBytes, finishFlashOp, signalEop, State.withArr,
      State.withStale, State.withPend, State.withSr]

theorem completeSectorErase_eq (n : BitVec 5) (s : State) :
    completeSectorErase n s =
      { s with
        sr := eopFlags s.sr s.cr.eopie
        pend := .none
        arr := (eraseTarget (sectorRange s.params.sectorMap n.toNat).1 (sectorRange s.params.sectorMap n.toNat).2 s).arr
        stale := staleUpdate s.stale s.arr (sectorRange s.params.sectorMap n.toNat).1
          (sectorRange s.params.sectorMap n.toNat).2
        draws := (eraseTarget (sectorRange s.params.sectorMap n.toNat).1
          (sectorRange s.params.sectorMap n.toNat).2 s).draws } :=
  eraseAndFinish_eq _ _ s

theorem completeMassErase_eq (s : State) :
    completeMassErase s =
      { s with
        sr := eopFlags s.sr s.cr.eopie
        pend := .none
        arr := (eraseTarget s.params.arrayBase (arraySize s.params) s).arr
        stale := staleUpdate s.stale s.arr s.params.arrayBase (arraySize s.params)
        draws := (eraseTarget s.params.arrayBase (arraySize s.params) s).draws } :=
  eraseAndFinish_eq _ _ s

theorem completeProgram_eq (a : Word) (sz : AccessSize) (v : Word) (s : State) :
    completeProgram a sz v s =
      { s with
        sr := eopFlags s.sr s.cr.eopie
        pend := .none
        arr := (programUnit a.toNat (nbytes sz) v s).arr
        stale := staleUpdate s.stale s.arr a.toNat (nbytes sz)
        draws := (programUnit a.toNat (nbytes sz) v s).draws } := by
  cases h : unitErased s.arr s.params.erasedByte a.toNat (nbytes sz) <;>
    simp [completeProgram, programUnit, rememberStale, h, drawRange, finishFlashOp, signalEop, State.withArr,
      State.withStale, State.withDraws, State.withPend, State.withSr]

theorem completeOptionCommit_frame (f : OptFields) (s : State) :
    completeOptionCommit f s =
      { s with
        pend := .none
        ob := (completeOptionCommit f s).ob
        draws := (completeOptionCommit f s).draws } := by
  simp only [completeOptionCommit]
  split <;> rfl

/-- The engine writes only `Arr`, `OB`, `Stale`, `pend` and SR (rule R207), besides the model's count of draws. -/
theorem engineStep_frame (s : State) :
    engineStep s =
      { s with
        sr := (engineStep s).sr
        pend := .none
        ob := (engineStep s).ob
        arr := (engineStep s).arr
        stale := (engineStep s).stale
        draws := (engineStep s).draws } := by
  rcases engineStep_cases s with ⟨hp, h⟩ | ⟨a, sz, v, -, h⟩ | ⟨n, -, h⟩ | ⟨-, h⟩ | ⟨f, -, h⟩
  · rw [h, ← hp]
  · rw [h, completeProgram_eq]
  · rw [h, completeSectorErase_eq]
  · rw [h, completeMassErase_eq]
  · rw [h, completeOptionCommit_frame]

theorem interruptTarget_frame (s : State) :
    interruptTarget s =
      { s with
        ob := (interruptTarget s).ob
        arr := (interruptTarget s).arr
        draws := (interruptTarget s).draws } := by
  unfold interruptTarget
  split <;> rfl

/-- The state a reset leaves: the volatile values of rule R320, the target of rule R322, the host of rule R321. -/
theorem resetEvent_eq (s : State) :
    resetEvent s =
      { s with
        acr := AcrFields.reset
        sr := SrFlags.reset
        cr := CrFields.reset
        optcr := (interruptTarget s).ob
        ks := .wait1
        oks := .wait1
        pend := .none
        stale := []
        ob := (interruptTarget s).ob
        arr := (interruptTarget s).arr
        draws := (interruptTarget s).draws
        program := if s.run.isSome then s.program.tail else s.program
        run := none
        held := false } := by
  unfold resetEvent
  rw [interruptTarget_frame]
  cases hr : s.run <;> simp [abandonCommand, resetVolatile, State.withProgram, State.withRun, State.withHeld]

end Sys2Proof.Machine
end

