-- ==== Sys2Proof/Laws/Commands.lean ====
section
/-! SUPPORT. What a command's step, an instruction and the machine's step can do, said once. -/

namespace Sys2Proof.Machine

/-! ## One transaction of a command -/

/-- What a command's transaction can change. -/
theorem microTxn_frame {u : Micro} {p : Position} {s t : State} (h : microTxn u p s = some t) :
    t = { s with
      acr := t.acr
      sr := t.sr
      cr := t.cr
      optcr := t.optcr
      ks := t.ks
      oks := t.oks
      pend := t.pend
      stale := t.stale
      fault := t.fault
      refused := t.refused
      rdata := t.rdata
      draws := t.draws } := by
  cases u with
  | rd r => rw [readReg_frame h]
  | wr r v => rw [writeReg_frame h]
  | wrMod r c x => rw [writeReg_frame h]
  | poll r m => rw [readReg_frame h]
  | rdByte a => rw [arrRead_frame h]
  | wrData a data => rw [arrWrite_frame h]

/-- Standing at a position changes only the position, or ends the command with its result. -/
theorem standAt_cases (e : Expansion) (p : Position) (s : State) :
    (e.txnAt p.idx = none ∧ standAt e p s = (s.withRun none).withResult (e.result p)) ∨
      ((e.txnAt p.idx).isSome ∧ standAt e p s = s.withRun (some p)) := by
  unfold standAt
  cases h : e.txnAt p.idx with
  | none => exact .inl ⟨rfl, rfl⟩
  | some u => exact .inr ⟨rfl, rfl⟩

/-- After a transaction only the position, the result and the count of draws change. -/
theorem afterTxn_frame (e : Expansion) (u : Micro) (p : Position) (s : State) :
    afterTxn e u p s =
      { s with
        run := (afterTxn e u p s).run
        result := (afterTxn e u p s).result
        draws := (afterTxn e u p s).draws } := by
  unfold afterTxn
  split
  · rfl
  · rcases standAt_cases e (advance u s.rdata p) (s.withDraws (s.draws + padDraws u)) with ⟨-, h⟩ | ⟨-, h⟩ <;>
      rw [h] <;> rfl

/-- A command's step: it ends, its transaction holds, or its transaction is performed. -/
theorem continueAt_cases (e : Expansion) (p : Position) (s : State) :
    (e.txnAt p.idx = none ∧
        continueAt e p s = ((s.withRun none).withResult (e.result p)).withHeld false) ∨
      (∃ u, e.txnAt p.idx = some u ∧ microTxn u p s = none ∧
        continueAt e p s = (s.withRun (some p)).withHeld true) ∨
      (∃ u s', e.txnAt p.idx = some u ∧ microTxn u p s = some s' ∧
        continueAt e p s = (afterTxn e u p s').withHeld false) := by
  unfold continueAt
  cases h : e.txnAt p.idx with
  | none => exact .inl ⟨rfl, by simp [standAt, h]⟩
  | some u =>
    cases hm : microTxn u p s with
    | none => exact .inr (.inl ⟨u, rfl, hm, by simp [hm]⟩)
    | some s' => exact .inr (.inr ⟨u, s', rfl, hm, by simp [hm]⟩)

/-- What a command's step can change: never the parameters, `OB`, `Arr`, the requests or the schedule. -/
theorem continueAt_frame (e : Expansion) (p : Position) (s : State) :
    continueAt e p s =
      { continueAt e p s with
        params := s.params, ob := s.ob, arr := s.arr, program := s.program, sched := s.sched } := by
  rcases continueAt_cases e p s with ⟨-, h⟩ | ⟨u, -, -, h⟩ | ⟨u, s', -, hm, h⟩ <;> rw [h]
  · rfl
  · rfl
  · rw [afterTxn_frame, microTxn_frame hm]
    rfl

/-- A command's step is a continuation from its first transaction or from the host's position, or a refusal. -/
theorem runCommand_cases (i : Instr) (ok : Bool) (e : Expansion) (s : State) :
    (s.run = none ∧ ok = true ∧ runCommand i ok e s = continueAt e ⟨i, 0, 0, []⟩ s) ∨
      (∃ p, s.run = some p ∧ p.cmd = i ∧ runCommand i ok e s = continueAt e p s) ∨
      (((s.run = none ∧ ok = false) ∨ ∃ p, s.run = some p ∧ p.cmd ≠ i) ∧
        runCommand i ok e s = (refuse s).withHeld false) := by
  unfold runCommand
  cases hr : s.run with
  | none => cases ok <;> simp
  | some p => by_cases hp : p.cmd = i <;> simp [hp]

theorem runCommand_frame (i : Instr) (ok : Bool) (e : Expansion) (s : State) :
    runCommand i ok e s =
      { runCommand i ok e s with
        params := s.params, ob := s.ob, arr := s.arr, program := s.program, sched := s.sched } := by
  rcases runCommand_cases i ok e s with ⟨-, -, h⟩ | ⟨p, -, -, h⟩ | ⟨-, h⟩ <;> rw [h]
  · exact continueAt_frame _ _ s
  · exact continueAt_frame _ _ s
  · rfl

/-! ## Instructions -/

/-- Every instruction answers a next state: no meaning ends in a fault or a refusal. -/
theorem exec_next (i : Instr) (s : State) : ∃ t, exec i s = .next t := by
  have hi : ∀ x : Txn, ∃ t, issue x s = .next t := fun x => by
    rcases issue_cases x s with ⟨s', -, h⟩ | ⟨-, h⟩
    · exact ⟨_, h⟩
    · exact ⟨_, h⟩
  cases i <;> first | exact hi _ | exact ⟨_, rfl⟩

/-- The three shapes of an instruction: a bus transaction, a command's step, or a refusal. -/
theorem exec_cases (i : Instr) (s : State) :
    (∃ r, exec i s = issue (readReg r) s) ∨ (∃ r v, exec i s = issue (writeReg r v) s) ∨
      (∃ sz a, exec i s = issue (arrRead sz a) s) ∨ (∃ sz a v, exec i s = issue (arrWrite sz a v) s) ∨
      (exec i s = .next ((refuse s).withHeld false)) ∨ (∃ ok e, exec i s = .next (runCommand i ok e s)) := by
  cases i
  case acrRd => exact .inl ⟨.acr, rfl⟩
  case keyrRd => exact .inl ⟨.keyr, rfl⟩
  case optkeyrRd => exact .inl ⟨.optkeyr, rfl⟩
  case srRd => exact .inl ⟨.sr, rfl⟩
  case crRd => exact .inl ⟨.cr, rfl⟩
  case optcrRd => exact .inl ⟨.optcr, rfl⟩
  case acrWr v => exact .inr (.inl ⟨.acr, v, rfl⟩)
  case keyrWr v => exact .inr (.inl ⟨.keyr, v, rfl⟩)
  case optkeyrWr v => exact .inr (.inl ⟨.optkeyr, v, rfl⟩)
  case srWr v => exact .inr (.inl ⟨.sr, v, rfl⟩)
  case crWr v => exact .inr (.inl ⟨.cr, v, rfl⟩)
  case optcrWr v => exact .inr (.inl ⟨.optcr, v, rfl⟩)
  case arrRd8 a => exact .inr (.inr (.inl ⟨_, _, rfl⟩))
  case arrRd16 a => exact .inr (.inr (.inl ⟨_, _, rfl⟩))
  case arrRd32 a => exact .inr (.inr (.inl ⟨_, _, rfl⟩))
  case arrWr8 a v => exact .inr (.inr (.inr (.inl ⟨_, _, _, rfl⟩)))
  case arrWr16 a v => exact .inr (.inr (.inr (.inl ⟨_, _, _, rfl⟩)))
  case arrWr32 a v => exact .inr (.inr (.inr (.inl ⟨_, _, _, rfl⟩)))
  case szRsvd => exact .inr (.inr (.inr (.inr (.inl rfl))))
  case regOther => exact .inr (.inr (.inr (.inr (.inl rfl))))
  case arrMisaligned => exact .inr (.inr (.inr (.inr (.inl rfl))))
  case notSelected => exact .inr (.inr (.inr (.inr (.inl rfl))))
  case cmdReserved00 => exact .inr (.inr (.inr (.inr (.inl rfl))))
  case cmdReserved0E => exact .inr (.inr (.inr (.inr (.inl rfl))))
  case cmdReserved10 => exact .inr (.inr (.inr (.inr (.inl rfl))))
  case cmdReserved20 => exact .inr (.inr (.inr (.inr (.inl rfl))))
  case cmdReserved40 => exact .inr (.inr (.inr (.inr (.inl rfl))))
  case cmdReserved80 => exact .inr (.inr (.inr (.inr (.inl rfl))))
  all_goals exact .inr (.inr (.inr (.inr (.inr ⟨_, _, rfl⟩))))

/-- No instruction changes the parameters, the requests or the schedule: they are the step's. -/
theorem exec_inputs {i : Instr} {s t : State} (h : exec i s = .next t) :
    t.params = s.params ∧ t.program = s.program ∧ t.sched = s.sched := by
  have issued : ∀ {x : Txn}, (∀ s', x s = some s' → s'.params = s.params ∧
      s'.program = s.program ∧ s'.sched = s.sched) → issue x s = .next t →
      t.params = s.params ∧ t.program = s.program ∧ t.sched = s.sched := by
    intro x hx hi
    rcases issue_cases x s with ⟨s', hs, he⟩ | ⟨-, he⟩ <;> rw [he] at hi <;> cases hi
    · exact hx s' hs
    · exact ⟨rfl, rfl, rfl⟩
  rcases exec_cases i s with ⟨r, e⟩ | ⟨r, v, e⟩ | ⟨sz, a, e⟩ | ⟨sz, a, v, e⟩ | e | ⟨ok, ex, e⟩ <;> rw [e] at h
  · exact issued (fun s' hs => by rw [readReg_frame hs]; exact ⟨rfl, rfl, rfl⟩) h
  · exact issued (fun s' hs => by rw [writeReg_frame hs]; exact ⟨rfl, rfl, rfl⟩) h
  · exact issued (fun s' hs => by rw [arrRead_frame hs]; exact ⟨rfl, rfl, rfl⟩) h
  · exact issued (fun s' hs => by rw [arrWrite_frame hs]; exact ⟨rfl, rfl, rfl⟩) h
  · cases h
    exact ⟨rfl, rfl, rfl⟩
  · cases h
    rw [runCommand_frame]
    exact ⟨rfl, rfl, rfl⟩

/-! ## Steps -/

/-- The host's turn, when it answers a next state: it idles, or its request performs a transaction. -/
theorem hostTurn_next {s t : State} (h : hostTurn s = .next t) :
    s.fault = none ∧ s.refused = false ∧
      ((s.program = [] ∧ t = s) ∨
        ∃ d rest i u, s.program = d :: rest ∧ decode s.params d = .ok i ∧ exec i s = .next u ∧ t = retire u) := by
  unfold hostTurn at h
  cases hf : s.fault with
  | some k => simp [hf] at h
  | none =>
    cases hr : s.refused with
    | true => simp [hf, hr] at h
    | false =>
      refine ⟨rfl, rfl, ?_⟩
      cases hp : s.program with
      | nil =>
        simp only [hf, hr, hp, Bool.false_eq_true, if_false] at h
        cases h
        exact .inl ⟨rfl, rfl⟩
      | cons d rest =>
        simp only [hf, hr, hp, Bool.false_eq_true, if_false, issueRequest] at h
        cases hd : decode s.params d with
        | error x => simp [hd] at h
        | ok i =>
          obtain ⟨u, hu⟩ := exec_next i s
          simp only [hd, hu] at h
          cases h
          exact .inr ⟨d, rest, i, u, rfl, hd, hu, rfl⟩

/-- A step, when it answers a next state, is a turn of one of the three agents on the state with its schedule entry
taken off. -/
theorem step_next {s t : State} (h : step s = .next t) :
    ∃ s', (s' = s ∨ ∃ q rest, s.sched = q :: rest ∧ s' = s.withSched rest) ∧
      (hostTurn s' = .next t ∨ t = engineStep s' ∨ t = resetEvent s') := by
  unfold step at h
  have turn : ∀ {q : Turn} {s' : State}, takeTurn q s' = .next t →
      hostTurn s' = .next t ∨ t = engineStep s' ∨ t = resetEvent s' := by
    intro q s' hq
    cases q
    · exact .inl hq
    · cases hq
      exact .inr (.inl rfl)
    · cases hq
      exact .inr (.inr rfl)
  cases hs : s.sched with
  | nil =>
    simp only [hs] at h
    exact ⟨s, .inl rfl, turn h⟩
  | cons q rest =>
    simp only [hs] at h
    exact ⟨s.withSched rest, .inr ⟨q, rest, rfl, rfl⟩, turn h⟩

end Sys2Proof.Machine
end

