-- ==== Sys2Proof/Laws/Decode.lean ====
section
/-! SUPPORT. The fields of a bus descriptor: taken apart, put together, and masked field by field. -/

namespace Sys2Proof

open Machine (busKey)

/-- A bit of a descriptor put together from its fields. -/
theorem getLsbD_busKey (w : Bool) (sz : BitVec 2) (a : Word) (i : Nat) :
    (busKey w sz a).getLsbD i =
      if i < 32 then a.getLsbD i else if i < 34 then sz.getLsbD (i - 32) else (decide (i = 34) && w) := by
  simp only [Machine.busKey, BitVec.getLsbD_append, BitVec.getLsbD_ofBool]
  by_cases h1 : i < 32
  · simp [h1]
  · by_cases h2 : i < 34
    · simp [h1, h2, show i - 32 < 2 by omega]
    · have h3 : ¬ i - 32 < 2 := by omega
      have h4 : i - 32 - 2 = 0 ↔ i = 34 := by omega
      simp [h1, h2, h3, h4]

@[simp] theorem keyW_busKey (w : Bool) (sz : BitVec 2) (a : Word) : keyW (busKey w sz a) = w := by
  rw [keyW, getLsbD_busKey]
  rfl

@[simp] theorem keySz_busKey (w : Bool) (sz : BitVec 2) (a : Word) : keySz (busKey w sz a) = sz := by
  apply BitVec.eq_of_getLsbD_eq
  intro i hi
  rw [keySz, BitVec.getLsbD_extractLsb', getLsbD_busKey, if_neg (by omega), if_pos (by omega)]
  simp [hi]

@[simp] theorem keyAddr_busKey (w : Bool) (sz : BitVec 2) (a : Word) : keyAddr (busKey w sz a) = a := by
  apply BitVec.eq_of_getLsbD_eq
  intro i hi
  rw [keyAddr, BitVec.getLsbD_extractLsb', getLsbD_busKey, if_pos (by omega)]
  simp [hi]

/-- A descriptor is its three fields (rule R110). -/
theorem busKey_fields (k : BusKey) : busKey (keyW k) (keySz k) (keyAddr k) = k := by
  apply BitVec.eq_of_getLsbD_eq
  intro i hi
  simp only [keyW, keySz, keyAddr, Machine.busKey, BitVec.getLsbD_append, BitVec.getLsbD_extractLsb',
    BitVec.getLsbD_ofBool]
  by_cases h1 : i < 32
  · simp [h1]
  · by_cases h2 : i < 34
    · have h3 : i - 32 < 2 := by omega
      simp [h1, h3, show 32 + (i - 32) = i by omega]
    · obtain rfl : i = 34 := by omega
      simp

/-- Descriptors are equal exactly when their fields are. -/
theorem busKey_inj (w w' : Bool) (sz sz' : BitVec 2) (a a' : Word) :
    busKey w sz a = busKey w' sz' a' ↔ w = w' ∧ sz = sz' ∧ a = a' := by
  constructor
  · intro h
    exact ⟨by simpa using congrArg keyW h, by simpa using congrArg keySz h, by simpa using congrArg keyAddr h⟩
  · rintro ⟨rfl, rfl, rfl⟩
    rfl

/-- A mask acts on each field. -/
theorem busKey_and (w : Bool) (sz : BitVec 2) (a : Word) (m : BusKey) :
    busKey w sz a &&& m = busKey (w && keyW m) (sz &&& keySz m) (a &&& keyAddr m) := by
  apply BitVec.eq_of_getLsbD_eq
  intro i hi
  simp only [keyW, keySz, keyAddr, Machine.busKey, BitVec.getLsbD_append, BitVec.getLsbD_and,
    BitVec.getLsbD_extractLsb', BitVec.getLsbD_ofBool]
  by_cases h1 : i < 32
  · simp [h1]
  · by_cases h2 : i < 34
    · have h3 : i - 32 < 2 := by omega
      simp [h1, h3, show 32 + (i - 32) = i by omega]
    · obtain rfl : i = 34 := by omega
      simp

/-- A row's test, field by field (rule R113: `K & mask = match`). -/
theorem row_matches_iff (w : Bool) (sz : BitVec 2) (a : Word) (m x : BusKey) :
    busKey w sz a &&& m = x ↔
      (w && keyW m) = keyW x ∧ sz &&& keySz m = keySz x ∧ a &&& keyAddr m = keyAddr x := by
  rw [busKey_and]
  conv_lhs => rw [← busKey_fields x]
  exact busKey_inj _ _ _ _ _ _

/-- The same for any descriptor. -/
theorem key_matches_iff (k m x : BusKey) :
    k &&& m = x ↔
      (keyW k && keyW m) = keyW x ∧ keySz k &&& keySz m = keySz x ∧ keyAddr k &&& keyAddr m = keyAddr x := by
  conv_lhs => rw [← busKey_fields k]
  exact row_matches_iff _ _ _ _ _

/-! ## The rows with the default bases -/

/-- `match` and `mask` of rows 1 to 21 as rule R113 writes them. -/
def tableWords : List (BusKey × BusKey) :=
  [(0x300000000, 0x300000000), (0x240023C00, 0x7FFFFFFFF), (0x640023C00, 0x7FFFFFFFF),
   (0x240023C04, 0x7FFFFFFFF), (0x640023C04, 0x7FFFFFFFF), (0x240023C08, 0x7FFFFFFFF),
   (0x640023C08, 0x7FFFFFFFF), (0x240023C0C, 0x7FFFFFFFF), (0x640023C0C, 0x7FFFFFFFF),
   (0x240023C10, 0x7FFFFFFFF), (0x640023C10, 0x7FFFFFFFF), (0x240023C14, 0x7FFFFFFFF),
   (0x640023C14, 0x7FFFFFFFF), (0x040023C00, 0x0FFFFFC00), (0x008000000, 0x7FFF80000),
   (0x108000000, 0x7FFF80001), (0x208000000, 0x7FFF80003), (0x408000000, 0x7FFF80000),
   (0x508000000, 0x7FFF80001), (0x608000000, 0x7FFF80003), (0x008000000, 0x0FFF80000)]

/-- The address bits that natural alignment clears (rule R85). -/
def alignMask : AccessSize → Word
  | .byte => 0
  | .half => 1
  | .word => 3

/-- An array address with the default bases, as one mask. -/
theorem arrayAddressOk_default (sz : AccessSize) (a : Word) :
    Machine.arrayAddressOk Params.default sz a = true ↔ a &&& (0xFFF80000 ||| alignMask sz) = 0x08000000 := by
  rw [Machine.arrayAddressOk, Bool.and_eq_true, Machine.inArray_default]
  have split : ∀ l : Word, (0xFFF80000 ||| l) &&& 0xFFF80000 = 0xFFF80000 → (0xFFF80000 ||| l) &&& l = l →
      (0x08000000 : Word) &&& l = 0 →
      ((a &&& 0xFFF80000 = 0x08000000 ∧ a &&& l = 0) ↔ a &&& (0xFFF80000 ||| l) = 0x08000000) := by
    intro l h1 h2 h3
    constructor
    · rintro ⟨h, h'⟩
      rw [BitVec.and_or_distrib_left, h, h']
      rfl
    · intro h
      have e1 : a &&& 0xFFF80000 = (a &&& (0xFFF80000 ||| l)) &&& 0xFFF80000 := by rw [BitVec.and_assoc, h1]
      have e2 : a &&& l = (a &&& (0xFFF80000 ||| l)) &&& l := by rw [BitVec.and_assoc, h2]
      exact ⟨by rw [e1, h]; decide, by rw [e2, h, h3]⟩
  cases sz
  · simp [Machine.aligned, alignMask]
  · simpa [Machine.aligned, alignMask] using split 1 (by decide) (by decide) (by decide)
  · simpa [Machine.aligned, alignMask] using split 3 (by decide) (by decide) (by decide)

/-- With the default bases the rows are the table's: each row's test is its `K & mask = match` (rule R113). -/
theorem rows_are_the_table (k : BusKey) :
    (registerRows Params.default ++ arrayRows Params.default).map (fun r => rowAdmits r k) =
      tableWords.map (fun x => decide (k &&& x.2 = x.1)) := by
  have reg : ∀ (w : Bool) (a : Word) (x : BusKey), x = busKey w 2 a →
      (decide (w = keyW k) && decide (2 = keySz k) && decide (keyAddr k = a)) = decide (k &&& 0x7FFFFFFFF = x) := by
    rintro w a _ rfl
    rw [Bool.eq_iff_iff]
    simp only [Bool.and_eq_true, decide_eq_true_eq]
    have : k &&& 0x7FFFFFFFF = k := BitVec.and_allOnes
    rw [this]
    conv_rhs => rw [← busKey_fields k, busKey_inj]
    tauto
  have arr : ∀ (w : Bool) (sz : AccessSize) (x m : BusKey), x = busKey w (bitsOfSize sz) 0x08000000 →
      m = busKey true 3 (0xFFF80000 ||| alignMask sz) →
      (decide (w = keyW k) && decide (bitsOfSize sz = keySz k) &&
          Machine.arrayAddressOk Params.default sz (keyAddr k)) =
        decide (k &&& m = x) := by
    rintro w sz _ _ rfl rfl
    rw [Bool.eq_iff_iff]
    simp only [Bool.and_eq_true, decide_eq_true_eq, key_matches_iff, keyW_busKey, keySz_busKey, keyAddr_busKey,
      Bool.and_true, arrayAddressOk_default]
    have : keySz k &&& 3 = keySz k := BitVec.and_allOnes
    rw [this]
    tauto
  have any : ∀ (x m : BusKey) (f : Word → Bool) (mask a : Word), (∀ y, f y = true ↔ y &&& mask = a) →
      x = busKey false 0 a → m = busKey false 0 mask → f (keyAddr k) = decide (k &&& m = x) := by
    rintro _ _ f mask a hf rfl rfl
    rw [Bool.eq_iff_iff]
    simp [key_matches_iff, hf]
  have rsv : (decide (3 = keySz k) && true) = decide (k &&& 0x300000000 = 0x300000000) := by
    rw [Bool.eq_iff_iff]
    rw [Bool.and_true, decide_eq_true_eq, decide_eq_true_eq, key_matches_iff]
    have h1 : keySz k &&& keySz 0x300000000 = keySz k := BitVec.and_allOnes
    have h2 : keyAddr k &&& keyAddr 0x300000000 = keyAddr 0x300000000 := BitVec.and_zero
    have h3 : keySz 0x300000000 = 3 := by decide
    have h4 : keyW 0x300000000 = false := by decide
    rw [h1, h2, h3, h4, Bool.and_false]
    exact ⟨fun h => ⟨rfl, h.symm, rfl⟩, fun h => h.2.1.symm⟩
  refine congrArg₂ List.cons rsv ?_
  iterate 6
    refine congrArg₂ List.cons (reg false _ _ (by decide)) ?_
    refine congrArg₂ List.cons (reg true _ _ (by decide)) ?_
  refine congrArg₂ List.cons (any _ _ _ _ _ Machine.inRegisterWindow_default (by decide) (by decide)) ?_
  refine congrArg₂ List.cons (arr false .byte _ _ (by decide) (by decide)) ?_
  refine congrArg₂ List.cons (arr false .half _ _ (by decide) (by decide)) ?_
  refine congrArg₂ List.cons (arr false .word _ _ (by decide) (by decide)) ?_
  refine congrArg₂ List.cons (arr true .byte _ _ (by decide) (by decide)) ?_
  refine congrArg₂ List.cons (arr true .half _ _ (by decide) (by decide)) ?_
  refine congrArg₂ List.cons (arr true .word _ _ (by decide) (by decide)) ?_
  exact congrArg₂ List.cons (any _ _ _ _ _ Machine.inArray_default (by decide) (by decide)) rfl

end Sys2Proof
end

