-- ==== Sys2Proof/Laws/Operands.lean ====
section
/-! SUPPORT. The fields of the register words: what each bit of a register read is, and what a write of a read word
stores back. -/

namespace Sys2Proof.Machine

/-! ## Words put together from fields -/

theorem getLsbD_bit (b : Bool) (i : Nat) : (bit b).getLsbD i = (decide (i = 0) && b) := by
  simp [bit, BitVec.getLsbD_ofBool]

/-- Bit `i` of ACR as read (rule R56). -/
theorem getLsbD_regvalAcr (s : State) (i : Nat) :
    (regvalAcr s).getLsbD i =
      if i < 8 then s.acr.latency.getLsbD i
      else if i = 8 then s.acr.prften else if i = 9 then s.acr.icen else if i = 10 then s.acr.dcen
      else if i = 11 then s.acr.icrst else if i = 12 then s.acr.dcrst else false := by
  by_cases h : i < 32
  · unfold regvalAcr
    simp only [BitVec.getLsbD_append, getLsbD_bit, BitVec.getLsbD_ofNat]
    interval_cases i <;> simp
  · rw [BitVec.getLsbD_of_ge _ _ (by omega)]
    simp only [show ¬ i < 8 by omega, show i ≠ 8 by omega, show i ≠ 9 by omega, show i ≠ 10 by omega,
      show i ≠ 11 by omega, show i ≠ 12 by omega, if_false]

/-- Bit `i` of SR as read (rule R56). -/
theorem getLsbD_regvalSr (s : State) (i : Nat) :
    (regvalSr s).getLsbD i =
      if i = 0 then s.sr.eop else if i = 1 then s.sr.operr else if i = 4 then s.sr.wrperr
      else if i = 5 then s.sr.pgaerr else if i = 6 then s.sr.pgperr else if i = 7 then s.sr.pgserr
      else if i = 8 then s.sr.rderr else if i = 16 then busy s else false := by
  by_cases h : i < 32
  · unfold regvalSr
    simp only [BitVec.getLsbD_append, getLsbD_bit, BitVec.getLsbD_ofNat]
    interval_cases i <;> simp
  · rw [BitVec.getLsbD_of_ge _ _ (by omega)]
    simp only [show i ≠ 0 by omega, show i ≠ 1 by omega, show i ≠ 4 by omega, show i ≠ 5 by omega,
      show i ≠ 6 by omega, show i ≠ 7 by omega, show i ≠ 8 by omega, show i ≠ 16 by omega, if_false]

/-- Bit `i` of CR as read (rule R56). -/
theorem getLsbD_regvalCr (s : State) (i : Nat) :
    (regvalCr s).getLsbD i =
      if i = 0 then s.cr.pg else if i = 1 then s.cr.ser else if i = 2 then s.cr.mer
      else if i < 8 then s.cr.snb.getLsbD (i - 3)
      else if i < 16 then s.cr.psize.getLsbD (i - 8)
      else if i = 16 then strtBit s else if i = 24 then s.cr.eopie else if i = 25 then s.cr.errie
      else if i = 31 then isLocked s.ks else false := by
  by_cases h : i < 32
  · unfold regvalCr
    simp only [BitVec.getLsbD_append, getLsbD_bit, BitVec.getLsbD_ofNat]
    interval_cases i <;> simp
  · rw [BitVec.getLsbD_of_ge _ _ (by omega)]
    simp only [show i ≠ 0 by omega, show i ≠ 1 by omega, show i ≠ 2 by omega, show ¬ i < 8 by omega,
      show ¬ i < 16 by omega, show i ≠ 16 by omega, show i ≠ 24 by omega, show i ≠ 25 by omega,
      show i ≠ 31 by omega, if_false]

/-- Bit `i` of OPTCR as read (rules R41, R56). -/
theorem getLsbD_regvalOptcr (s : State) (i : Nat) :
    (regvalOptcr s).getLsbD i =
      if i = 0 then isLocked s.oks else if i = 1 then optstrtBit s
      else if i < 4 then s.optcr.borLev.getLsbD (i - 2)
      else if i = 4 then s.params.optcrRsvd.getLsbD 4
      else if i = 5 then s.optcr.wdgSw else if i = 6 then s.optcr.nrstStop else if i = 7 then s.optcr.nrstStdby
      else if i < 16 then s.optcr.rdp.getLsbD (i - 8)
      else if i < 24 then s.optcr.nwrp.getLsbD (i - 16)
      else if i < 31 then s.params.optcrRsvd.getLsbD i
      else if i = 31 then s.optcr.sprmod else false := by
  by_cases h : i < 32
  · unfold regvalOptcr
    simp only [BitVec.getLsbD_append, getLsbD_bit, BitVec.getLsbD_extractLsb']
    interval_cases i <;> simp
  · rw [BitVec.getLsbD_of_ge _ _ (by omega)]
    simp only [show i ≠ 0 by omega, show i ≠ 1 by omega, show ¬ i < 4 by omega, show i ≠ 4 by omega,
      show i ≠ 5 by omega, show i ≠ 6 by omega, show i ≠ 7 by omega, show ¬ i < 16 by omega, show ¬ i < 24 by omega,
      show ¬ i < 31 by omega, show i ≠ 31 by omega, if_false]

/-! ## Fields of a written word -/

/-- A bit of a field of width `n` stored in its room. -/
theorem getLsbD_field {room : Nat} (v : Word) (lo n i : Nat) (hi : i < room) :
    ((v.extractLsb' lo n).setWidth room).getLsbD i = (decide (i < n) && v.getLsbD (lo + i)) := by
  simp [hi]

/-- The bits of a field of a read-modify-write word (rule R122). -/
theorem extractLsb'_mod (t c m : Word) (lo n : Nat) :
    (t &&& ~~~c ||| m).extractLsb' lo n =
      t.extractLsb' lo n &&& ~~~(c.extractLsb' lo n) ||| m.extractLsb' lo n := by
  apply BitVec.eq_of_getLsbD_eq
  intro i hi
  simp only [BitVec.getLsbD_extractLsb', BitVec.getLsbD_or, BitVec.getLsbD_and, BitVec.getLsbD_not, hi]
  by_cases h : lo + i < 32
  · simp [h]
  · simp [BitVec.getLsbD_of_ge t (lo + i) (by omega), BitVec.getLsbD_of_ge m (lo + i) (by omega)]

/-- The same for a field stored in its room. -/
theorem field_mod {room : Nat} (t c m : Word) (lo n : Nat) :
    ((t &&& ~~~c ||| m).extractLsb' lo n).setWidth room =
      (t.extractLsb' lo n).setWidth room &&& ~~~((c.extractLsb' lo n).setWidth room) |||
        (m.extractLsb' lo n).setWidth room := by
  rw [extractLsb'_mod]
  apply BitVec.eq_of_getLsbD_eq
  intro i hi
  simp only [BitVec.getLsbD_setWidth, BitVec.getLsbD_or, BitVec.getLsbD_and, BitVec.getLsbD_not, hi, decide_true,
    Bool.true_and]
  by_cases h : i < n
  · simp [h]
  · simp [h]

/-- The bits of a field mask (rules R122, R230). -/
theorem getLsbD_fieldMask (lo n i : Nat) :
    (fieldMask lo n).getLsbD i = (decide (i < 32) && decide (lo ≤ i) && decide (i < lo + n)) := by
  by_cases h : i < 32
  · by_cases hl : lo ≤ i
    · simp [fieldMask, h, hl, Nat.not_lt.mpr hl]
      omega
    · simp [fieldMask, h, hl]
  · simp [fieldMask, h]

/-- The bits above a value's bound are 0. -/
theorem getLsbD_of_toNat_lt {w n i : Nat} {x : BitVec w} (h : x.toNat < 2 ^ n) (hi : n ≤ i) : x.getLsbD i = false :=
  Nat.testBit_lt_two_pow (Nat.lt_of_lt_of_le h (Nat.pow_le_pow_right (by decide) hi))

/-- A field stored in its room fits its width (rule R5). -/
theorem field_lt {room : Nat} (v : Word) (lo n : Nat) : ((v.extractLsb' lo n).setWidth room).toNat < 2 ^ n := by
  rw [BitVec.toNat_setWidth]
  exact Nat.lt_of_le_of_lt (Nat.mod_le _ _) (v.extractLsb' lo n).isLt

theorem getLsbD_mod (t c m : Word) {i : Nat} (hi : i < 32) :
    (t &&& ~~~c ||| m).getLsbD i = ((t.getLsbD i && !c.getLsbD i) || m.getLsbD i) := by
  simp [hi]

/-- What a read-modify-write of CR stores (rules R122, R150). -/
theorem crOfWord_mod (p : Params) (t c m : Word) :
    crOfWord p (t &&& ~~~c ||| m) =
      { pg := (t.getLsbD 0 && !c.getLsbD 0) || m.getLsbD 0
        ser := (t.getLsbD 1 && !c.getLsbD 1) || m.getLsbD 1
        mer := (t.getLsbD 2 && !c.getLsbD 2) || m.getLsbD 2
        snb := (t.extractLsb' 3 p.snbWidth).setWidth 5 &&& ~~~((c.extractLsb' 3 p.snbWidth).setWidth 5) |||
          (m.extractLsb' 3 p.snbWidth).setWidth 5
        psize := (t.extractLsb' 8 p.psizeWidth).setWidth 8 &&& ~~~((c.extractLsb' 8 p.psizeWidth).setWidth 8) |||
          (m.extractLsb' 8 p.psizeWidth).setWidth 8
        eopie := (t.getLsbD 24 && !c.getLsbD 24) || m.getLsbD 24
        errie := (t.getLsbD 25 && !c.getLsbD 25) || m.getLsbD 25 } := by
  simp only [crOfWord, field_mod, getLsbD_mod _ _ _ (show 0 < 32 by decide),
    getLsbD_mod _ _ _ (show 1 < 32 by decide), getLsbD_mod _ _ _ (show 2 < 32 by decide),
    getLsbD_mod _ _ _ (show 24 < 32 by decide), getLsbD_mod _ _ _ (show 25 < 32 by decide)]

/-- What a read-modify-write of OPTCR stores (rules R122, R153). -/
theorem optOfWord_mod (p : Params) (t c m : Word) :
    optOfWord p (t &&& ~~~c ||| m) =
      { nwrp := (t.extractLsb' 16 p.wrpWidth).setWidth 8 &&& ~~~((c.extractLsb' 16 p.wrpWidth).setWidth 8) |||
          (m.extractLsb' 16 p.wrpWidth).setWidth 8
        sprmod := (t.getLsbD 31 && !c.getLsbD 31) || m.getLsbD 31
        rdp := t.extractLsb' 8 8 &&& ~~~(c.extractLsb' 8 8) ||| m.extractLsb' 8 8
        borLev := t.extractLsb' 2 2 &&& ~~~(c.extractLsb' 2 2) ||| m.extractLsb' 2 2
        wdgSw := (t.getLsbD 5 && !c.getLsbD 5) || m.getLsbD 5
        nrstStop := (t.getLsbD 6 && !c.getLsbD 6) || m.getLsbD 6
        nrstStdby := (t.getLsbD 7 && !c.getLsbD 7) || m.getLsbD 7 } := by
  simp only [optOfWord, field_mod, extractLsb'_mod _ _ _ 8 8, extractLsb'_mod _ _ _ 2 2,
    getLsbD_mod _ _ _ (show 31 < 32 by decide), getLsbD_mod _ _ _ (show 5 < 32 by decide),
    getLsbD_mod _ _ _ (show 6 < 32 by decide), getLsbD_mod _ _ _ (show 7 < 32 by decide)]

/-- What a read-modify-write of ACR stores (rules R122, R142). -/
theorem acrOfWord_mod (p : Params) (t c m : Word) :
    acrOfWord p (t &&& ~~~c ||| m) =
      { latency := (t.extractLsb' 0 p.latencyWidth).setWidth 8 &&& ~~~((c.extractLsb' 0 p.latencyWidth).setWidth 8) |||
          (m.extractLsb' 0 p.latencyWidth).setWidth 8
        prften := (t.getLsbD 8 && !c.getLsbD 8) || m.getLsbD 8
        icen := (t.getLsbD 9 && !c.getLsbD 9) || m.getLsbD 9
        dcen := (t.getLsbD 10 && !c.getLsbD 10) || m.getLsbD 10
        icrst := (t.getLsbD 11 && !c.getLsbD 11) || m.getLsbD 11
        dcrst := (t.getLsbD 12 && !c.getLsbD 12) || m.getLsbD 12 } := by
  simp only [acrOfWord, field_mod, getLsbD_mod _ _ _ (show 8 < 32 by decide),
    getLsbD_mod _ _ _ (show 9 < 32 by decide), getLsbD_mod _ _ _ (show 10 < 32 by decide),
    getLsbD_mod _ _ _ (show 11 < 32 by decide), getLsbD_mod _ _ _ (show 12 < 32 by decide)]

/-! ## Fields of a read word -/

/-- LATENCY's room of ACR as read: bits 7:0 (rule R34). -/
theorem latencyRoom_regvalAcr (s : State) : (regvalAcr s).extractLsb' 0 8 = s.acr.latency := by
  apply BitVec.eq_of_getLsbD_eq
  intro i hi
  simp only [BitVec.getLsbD_extractLsb', getLsbD_regvalAcr]
  interval_cases i <;> simp

/-- SNB's room of CR as read: bits 7:3 (rule R38). -/
theorem snbRoom_regvalCr (s : State) : (regvalCr s).extractLsb' 3 5 = s.cr.snb := by
  apply BitVec.eq_of_getLsbD_eq
  intro i hi
  simp only [BitVec.getLsbD_extractLsb', getLsbD_regvalCr]
  interval_cases i <;> simp

/-- PSIZE's room of CR as read: bits 15:8 (rule R38). -/
theorem psizeRoom_regvalCr (s : State) : (regvalCr s).extractLsb' 8 8 = s.cr.psize := by
  apply BitVec.eq_of_getLsbD_eq
  intro i hi
  simp only [BitVec.getLsbD_extractLsb', getLsbD_regvalCr]
  interval_cases i <;> simp

/-- nWRP's room of OPTCR as read, bits 23:16 (rule R40): the bitmap GET_PROTECTION reads (rule R242) is the stored
one. -/
theorem bitmap_regvalOptcr (s : State) : (regvalOptcr s).extractLsb' 16 8 = s.optcr.nwrp := by
  apply BitVec.eq_of_getLsbD_eq
  intro i hi
  simp only [BitVec.getLsbD_extractLsb', getLsbD_regvalOptcr]
  interval_cases i <;> simp

/-- A field whose room holds a value that fits the field's width reads back, and is stored back, as that value (log
entry 18): the rest of its room is 0. -/
theorem field_of_room {room n lo : Nat} {v : Word} {x : BitVec room} (hv : v.extractLsb' lo room = x)
    (hx : x.toNat < 2 ^ n) : (v.extractLsb' lo n).setWidth room = x := by
  subst hv
  apply BitVec.eq_of_getLsbD_eq
  intro i hi
  rw [getLsbD_field v lo n i hi]
  by_cases hn : i < n
  · simp [hn, hi]
  · rw [getLsbD_of_toNat_lt hx (Nat.not_lt.mp hn), decide_eq_false hn, Bool.false_and]

theorem latency_regvalAcr {s : State} {n : Nat} (h : s.acr.latency.toNat < 2 ^ n) :
    ((regvalAcr s).extractLsb' 0 n).setWidth 8 = s.acr.latency := field_of_room (latencyRoom_regvalAcr s) h

theorem snb_regvalCr {s : State} {n : Nat} (h : s.cr.snb.toNat < 2 ^ n) :
    ((regvalCr s).extractLsb' 3 n).setWidth 5 = s.cr.snb := field_of_room (snbRoom_regvalCr s) h

theorem psize_regvalCr {s : State} {n : Nat} (h : s.cr.psize.toNat < 2 ^ n) :
    ((regvalCr s).extractLsb' 8 n).setWidth 8 = s.cr.psize := field_of_room (psizeRoom_regvalCr s) h

theorem nwrp_regvalOptcr {s : State} {n : Nat} (h : s.optcr.nwrp.toNat < 2 ^ n) :
    ((regvalOptcr s).extractLsb' 16 n).setWidth 8 = s.optcr.nwrp := field_of_room (bitmap_regvalOptcr s) h

theorem rdp_regvalOptcr (s : State) : (regvalOptcr s).extractLsb' 8 8 = s.optcr.rdp := by
  apply BitVec.eq_of_getLsbD_eq
  intro i hi
  simp only [BitVec.getLsbD_extractLsb', getLsbD_regvalOptcr]
  interval_cases i <;> simp

theorem borLev_regvalOptcr (s : State) : (regvalOptcr s).extractLsb' 2 2 = s.optcr.borLev := by
  apply BitVec.eq_of_getLsbD_eq
  intro i hi
  simp only [BitVec.getLsbD_extractLsb', getLsbD_regvalOptcr]
  interval_cases i <;> simp

/-! ## Level codes -/

/-- Every level has a code that reads back as it (rule R119). -/
@[simp] theorem levelOfCode_levelCode (l : Level) : levelOfCode (levelCode l) = some l := by cases l <;> rfl

/-- The codes are 0, 1 and 2 (rules R119, R243). -/
theorem levelOfCode_isSome_iff (c : Word) : (levelOfCode c).isSome = true ↔ c.toNat ≤ 2 := by
  unfold levelOfCode
  constructor
  · intro h
    split_ifs at h with h0 h1 h2
    · rw [h0]
      decide
    · rw [h1]
      decide
    · rw [h2]
      decide
    · simp at h
  · intro h
    have : c = 0 ∨ c = 1 ∨ c = 2 := by
      rcases (by omega : c.toNat = 0 ∨ c.toNat = 1 ∨ c.toNat = 2) with h | h | h
      · exact .inl (BitVec.eq_of_toNat_eq h)
      · exact .inr (.inl (BitVec.eq_of_toNat_eq h))
      · exact .inr (.inr (BitVec.eq_of_toNat_eq h))
    rcases this with rfl | rfl | rfl <;> rfl

end Sys2Proof.Machine
end

