-- ==== Sys2Proof/Laws/PerInstr.lean ====
section
/-! SUPPORT. The family RowMatches, one lemma for each instruction: the encoding of a well-formed instruction passes
the `match` and `mask` test of its own row of spec/opcode_table.json (rules R113, R117, R118). The rows' numbers are
written out here from the table. -/

namespace Sys2Proof.Laws.RowMatches

/-- `match` and `mask` of an instruction's row, as spec/opcode_table.json writes them. -/
def tableRow : Instr → Nat × Nat
  | .szRsvd _ _ _ => (0x300000000, 0x300000000)
  | .acrRd => (0x240023C00, 0x7FFFFFFFF)
  | .acrWr _ => (0x640023C00, 0x7FFFFFFFF)
  | .keyrRd => (0x240023C04, 0x7FFFFFFFF)
  | .keyrWr _ => (0x640023C04, 0x7FFFFFFFF)
  | .optkeyrRd => (0x240023C08, 0x7FFFFFFFF)
  | .optkeyrWr _ => (0x640023C08, 0x7FFFFFFFF)
  | .srRd => (0x240023C0C, 0x7FFFFFFFF)
  | .srWr _ => (0x640023C0C, 0x7FFFFFFFF)
  | .crRd => (0x240023C10, 0x7FFFFFFFF)
  | .crWr _ => (0x640023C10, 0x7FFFFFFFF)
  | .optcrRd => (0x240023C14, 0x7FFFFFFFF)
  | .optcrWr _ => (0x640023C14, 0x7FFFFFFFF)
  | .regOther _ _ _ _ => (0x040023C00, 0x0FFFFFC00)
  | .arrRd8 _ => (0x008000000, 0x7FFF80000)
  | .arrRd16 _ => (0x108000000, 0x7FFF80001)
  | .arrRd32 _ => (0x208000000, 0x7FFF80003)
  | .arrWr8 _ _ => (0x408000000, 0x7FFF80000)
  | .arrWr16 _ _ => (0x508000000, 0x7FFF80001)
  | .arrWr32 _ _ => (0x608000000, 0x7FFF80003)
  | .arrMisaligned _ _ _ _ => (0x008000000, 0x0FFF80000)
  | .notSelected _ _ _ _ => (0x000000000, 0x000000000)
  | .init _ => (0x01, 0xFF)
  | .unlock => (0x02, 0xFF)
  | .lock => (0x03, 0xFF)
  | .optUnlock => (0x04, 0xFF)
  | .optLock => (0x05, 0xFF)
  | .read _ _ => (0x06, 0xFF)
  | .write _ _ _ => (0x07, 0xFF)
  | .eraseSector _ => (0x08, 0xFF)
  | .eraseAll => (0x09, 0xFF)
  | .getProtection => (0x0A, 0xFF)
  | .setProtection _ _ => (0x0B, 0xFF)
  | .waitUntilIdle => (0x0C, 0xFF)
  | .isStatusBitSet _ => (0x0D, 0xFF)
  | .cmdReserved00 => (0x00, 0xFF)
  | .cmdReserved0E _ => (0x0E, 0xFE)
  | .cmdReserved10 _ => (0x10, 0xF0)
  | .cmdReserved20 _ => (0x20, 0xE0)
  | .cmdReserved40 _ => (0x40, 0xC0)
  | .cmdReserved80 _ => (0x80, 0x80)

/-- `K & mask = match`, and the same for OP. -/
def passes (row : Nat × Nat) : Descriptor → Prop
  | .bus k _ => k &&& BitVec.ofNat 35 row.2 = BitVec.ofNat 35 row.1
  | .cmd op _ => op &&& BitVec.ofNat 8 row.2 = BitVec.ofNat 8 row.1

/-- With the default bases, the encoding of a well-formed instruction passes its own row's test. -/
def Statement (i : Instr) : Prop := WellFormed Params.default i = true → passes (tableRow i) (encode Params.default i)

/-- An array row's whole test, from the check of `WellFormed`. -/
theorem array_row {w : Bool} {sz : AccessSize} {a : Word} {m x : BusKey}
    (h : Machine.arrayAddressOk Params.default sz a = true)
    (hw : (w && keyW m) = keyW x)
    (hs : bitsOfSize sz &&& keySz m = keySz x) (hm : keyAddr m = 0xFFF80000 ||| alignMask sz)
    (hx : keyAddr x = 0x08000000) : Machine.busKey w (bitsOfSize sz) a &&& m = x := by
  rw [row_matches_iff, hm, hx]
  exact ⟨hw, hs, (arrayAddressOk_default sz a).mp h⟩

theorem szRsvd (w : Bool) (addr wdata : Word) : Statement (.szRsvd w addr wdata) := fun _ => by
  change Machine.busKey w 3 addr &&& 0x300000000 = 0x300000000
  rw [row_matches_iff]
  exact ⟨by cases w <;> decide, by decide,
    (show addr &&& keyAddr 0x300000000 = addr &&& 0 from rfl).trans BitVec.and_zero⟩
theorem acrRd : Statement .acrRd := fun _ =>
  show Machine.busKey false 2 (Machine.flashAcr Params.default) &&& (0x7FFFFFFFF : BusKey) = 0x240023C00 by decide
theorem acrWr (v : Word) : Statement (.acrWr v) := fun _ =>
  show Machine.busKey true 2 (Machine.flashAcr Params.default) &&& (0x7FFFFFFFF : BusKey) = 0x640023C00 by decide
theorem keyrRd : Statement .keyrRd := fun _ =>
  show Machine.busKey false 2 (Machine.flashKeyr Params.default) &&& (0x7FFFFFFFF : BusKey) = 0x240023C04 by decide
theorem keyrWr (v : Word) : Statement (.keyrWr v) := fun _ =>
  show Machine.busKey true 2 (Machine.flashKeyr Params.default) &&& (0x7FFFFFFFF : BusKey) = 0x640023C04 by decide
theorem optkeyrRd : Statement .optkeyrRd := fun _ =>
  show Machine.busKey false 2 (Machine.flashOptkeyr Params.default) &&& (0x7FFFFFFFF : BusKey) = 0x240023C08 by decide
theorem optkeyrWr (v : Word) : Statement (.optkeyrWr v) := fun _ =>
  show Machine.busKey true 2 (Machine.flashOptkeyr Params.default) &&& (0x7FFFFFFFF : BusKey) = 0x640023C08 by decide
theorem srRd : Statement .srRd := fun _ =>
  show Machine.busKey false 2 (Machine.flashSr Params.default) &&& (0x7FFFFFFFF : BusKey) = 0x240023C0C by decide
theorem srWr (v : Word) : Statement (.srWr v) := fun _ =>
  show Machine.busKey true 2 (Machine.flashSr Params.default) &&& (0x7FFFFFFFF : BusKey) = 0x640023C0C by decide
theorem crRd : Statement .crRd := fun _ =>
  show Machine.busKey false 2 (Machine.flashCr Params.default) &&& (0x7FFFFFFFF : BusKey) = 0x240023C10 by decide
theorem crWr (v : Word) : Statement (.crWr v) := fun _ =>
  show Machine.busKey true 2 (Machine.flashCr Params.default) &&& (0x7FFFFFFFF : BusKey) = 0x640023C10 by decide
theorem optcrRd : Statement .optcrRd := fun _ =>
  show Machine.busKey false 2 (Machine.flashOptcr Params.default) &&& (0x7FFFFFFFF : BusKey) = 0x240023C14 by decide
theorem optcrWr (v : Word) : Statement (.optcrWr v) := fun _ =>
  show Machine.busKey true 2 (Machine.flashOptcr Params.default) &&& (0x7FFFFFFFF : BusKey) = 0x640023C14 by decide
theorem regOther (w : Bool) (sz : AccessSize) (addr wdata : Word) : Statement (.regOther w sz addr wdata) := fun h => by
  simp only [WellFormed, Bool.and_eq_true] at h
  have ha : addr &&& 0xFFFFFC00 = 0x40023C00 := (Machine.inRegisterWindow_default addr).mp h.1.1
  change Machine.busKey w (bitsOfSize sz) addr &&& 0x0FFFFFC00 = 0x040023C00
  rw [row_matches_iff]
  exact ⟨by cases w <;> decide, by cases sz <;> decide, ha⟩
theorem arrRd8 (a : Word) : Statement (.arrRd8 a) := fun h =>
  array_row (m := 0x7FFF80000) (x := 0x008000000) h (by decide) (by decide) (by decide) (by decide)
theorem arrRd16 (a : Word) : Statement (.arrRd16 a) := fun h =>
  array_row (m := 0x7FFF80001) (x := 0x108000000) h (by decide) (by decide) (by decide) (by decide)
theorem arrRd32 (a : Word) : Statement (.arrRd32 a) := fun h =>
  array_row (m := 0x7FFF80003) (x := 0x208000000) h (by decide) (by decide) (by decide) (by decide)
theorem arrWr8 (a : Word) (v : BitVec 8) : Statement (.arrWr8 a v) := fun h =>
  array_row (m := 0x7FFF80000) (x := 0x408000000) h (by decide) (by decide) (by decide) (by decide)
theorem arrWr16 (a : Word) (v : BitVec 16) : Statement (.arrWr16 a v) := fun h =>
  array_row (m := 0x7FFF80001) (x := 0x508000000) h (by decide) (by decide) (by decide) (by decide)
theorem arrWr32 (a : Word) (v : BitVec 32) : Statement (.arrWr32 a v) := fun h =>
  array_row (m := 0x7FFF80003) (x := 0x608000000) h (by decide) (by decide) (by decide) (by decide)
theorem arrMisaligned (w : Bool) (sz : AccessSize) (addr wdata : Word) :
    Statement (.arrMisaligned w sz addr wdata) := fun h => by
  simp only [WellFormed, Bool.and_eq_true] at h
  have ha : addr &&& 0xFFF80000 = 0x08000000 := (Machine.inArray_default addr).mp h.1.1
  change Machine.busKey w (bitsOfSize sz) addr &&& 0x0FFF80000 = 0x008000000
  rw [row_matches_iff]
  exact ⟨by cases w <;> decide, by cases sz <;> decide, ha⟩
theorem notSelected (w : Bool) (sz : AccessSize) (addr wdata : Word) :
    Statement (.notSelected w sz addr wdata) := fun _ => BitVec.and_zero
theorem init (f : Word) : Statement (.init f) := fun _ =>
  show (0x01 : BitVec 8) &&& 0xFF = 0x01 by decide
theorem unlock : Statement .unlock := fun _ =>
  show (0x02 : BitVec 8) &&& 0xFF = 0x02 by decide
theorem lock : Statement .lock := fun _ =>
  show (0x03 : BitVec 8) &&& 0xFF = 0x03 by decide
theorem optUnlock : Statement .optUnlock := fun _ =>
  show (0x04 : BitVec 8) &&& 0xFF = 0x04 by decide
theorem optLock : Statement .optLock := fun _ =>
  show (0x05 : BitVec 8) &&& 0xFF = 0x05 by decide
theorem read (a n : Word) : Statement (.read a n) := fun _ =>
  show (0x06 : BitVec 8) &&& 0xFF = 0x06 by decide
theorem write (a n : Word) (d : List Byte) : Statement (.write a n d) := fun _ =>
  show (0x07 : BitVec 8) &&& 0xFF = 0x07 by decide
theorem eraseSector (n : Word) : Statement (.eraseSector n) := fun _ =>
  show (0x08 : BitVec 8) &&& 0xFF = 0x08 by decide
theorem eraseAll : Statement .eraseAll := fun _ =>
  show (0x09 : BitVec 8) &&& 0xFF = 0x09 by decide
theorem getProtection : Statement .getProtection := fun _ =>
  show (0x0A : BitVec 8) &&& 0xFF = 0x0A by decide
theorem setProtection (l m : Word) : Statement (.setProtection l m) := fun _ =>
  show (0x0B : BitVec 8) &&& 0xFF = 0x0B by decide
theorem waitUntilIdle : Statement .waitUntilIdle := fun _ =>
  show (0x0C : BitVec 8) &&& 0xFF = 0x0C by decide
theorem isStatusBitSet (p : Word) : Statement (.isStatusBitSet p) := fun _ =>
  show (0x0D : BitVec 8) &&& 0xFF = 0x0D by decide
theorem cmdReserved00 : Statement .cmdReserved00 := fun _ =>
  show (0x00 : BitVec 8) &&& 0xFF = 0x00 by decide
theorem cmdReserved0E (low : BitVec 1) : Statement (.cmdReserved0E low) := fun _ =>
  show (0x0E ||| low.setWidth 8 : BitVec 8) &&& 0xFE = 0x0E by decide +revert
theorem cmdReserved10 (low : BitVec 4) : Statement (.cmdReserved10 low) := fun _ =>
  show (0x10 ||| low.setWidth 8 : BitVec 8) &&& 0xF0 = 0x10 by decide +revert
theorem cmdReserved20 (low : BitVec 5) : Statement (.cmdReserved20 low) := fun _ =>
  show (0x20 ||| low.setWidth 8 : BitVec 8) &&& 0xE0 = 0x20 by decide +revert
theorem cmdReserved40 (low : BitVec 6) : Statement (.cmdReserved40 low) := fun _ =>
  show (0x40 ||| low.setWidth 8 : BitVec 8) &&& 0xC0 = 0x40 by decide +revert
theorem cmdReserved80 (low : BitVec 7) : Statement (.cmdReserved80 low) := fun _ =>
  show (0x80 ||| low.setWidth 8 : BitVec 8) &&& 0x80 = 0x80 by decide +revert

end Sys2Proof.Laws.RowMatches
end

