-- ==== Sys2Proof/Laws/Runs.lean ====
section
/-! SUPPORT. How a command runs from one position to the next: the laws that a proof about several transactions of a
command cites, instead of unfolding `runCommand`. -/

namespace Sys2Proof.Machine

/-! ## Positions -/

theorem runCommand_start {i : Instr} {e : Expansion} {s : State} (h : s.run = none) :
    runCommand i true e s = continueAt e ⟨i, 0, 0, []⟩ s := by
  simp [runCommand, h]

theorem runCommand_at {i : Instr} {ok : Bool} {e : Expansion} {s : State} {p : Position} (h : s.run = some p)
    (hp : p.cmd = i) : runCommand i ok e s = continueAt e p s := by
  simp [runCommand, h, hp]

/-- A command goes on to a position where another transaction is left. -/
theorem continueAt_goes {e : Expansion} {p : Position} {s t : State} {u : Micro} (hu : e.txnAt p.idx = some u)
    (ht : microTxn u p s = some t) (hm : marked t = false) (hn : (e.txnAt (advance u t.rdata p).idx).isSome = true) :
    continueAt e p s =
      { t with draws := t.draws + padDraws u, run := some (advance u t.rdata p), held := false } := by
  obtain ⟨u', hu'⟩ := Option.isSome_iff_exists.mp hn
  simp only [continueAt, hu, ht, afterTxn, hm, standAt, hu']
  rfl

/-- A command completes after its last transaction. -/
theorem continueAt_ends {e : Expansion} {p : Position} {s t : State} {u : Micro} (hu : e.txnAt p.idx = some u)
    (ht : microTxn u p s = some t) (hm : marked t = false) (hn : e.txnAt (advance u t.rdata p).idx = none) :
    continueAt e p s =
      { t with
        draws := t.draws + padDraws u
        run := none
        result := e.result (advance u t.rdata p)
        held := false } := by
  simp only [continueAt, hu, ht, afterTxn, hm, standAt, hn]
  rfl

/-- A command whose transaction holds stays where it is. -/
theorem continueAt_holds {e : Expansion} {p : Position} {s : State} {u : Micro} (hu : e.txnAt p.idx = some u)
    (ht : microTxn u p s = none) : continueAt e p s = { s with run := some p, held := true } := by
  simp only [continueAt, hu, ht]
  rfl

/-- A command stops at a transaction that raised BusError or was refused. -/
theorem continueAt_marked {e : Expansion} {p : Position} {s t : State} {u : Micro} (hu : e.txnAt p.idx = some u)
    (ht : microTxn u p s = some t) (hm : marked t = true) :
    continueAt e p s = { t with run := some p, held := false } := by
  simp only [continueAt, hu, ht, afterTxn, hm]
  rfl

/-- A command's row runs the command's expansion. -/
theorem exec_of_expansionOf {i : Instr} {s : State} {e : Expansion} (h : expansionOf s.params i = some e) :
    ∃ ok, exec i s = .next (runCommand i ok e s) := by
  cases i <;> simp only [expansionOf, reduceCtorEq, Option.some.injEq] at h <;> subst h <;> exact ⟨_, rfl⟩

/-- Which transactions hold while an operation is pending (rule R325). -/
theorem microTxn_of_holdsWhileBusy {u : Micro} {p : Position} {s : State} (hu : HoldsWhileBusy s.params u)
    (hs : s.pend ≠ .none) : microTxn u p s = none := by
  have hb := (busy_eq_true_iff s).mpr hs
  rcases hu with ⟨v, rfl | rfl⟩ | ⟨c, x, rfl | rfl⟩ | ⟨a, rfl, ha⟩ | ⟨a, d, rfl, ha⟩
  · simp [microTxn, writeReg, crWrite, unlessBusy_busy hb]
  · simp [microTxn, writeReg, optcrWrite, unlessBusy_busy hb]
  · simp [microTxn, writeReg, crWrite, unlessBusy_busy hb]
  · simp [microTxn, writeReg, optcrWrite, unlessBusy_busy hb]
  · simp [microTxn, arrRead, arrayAddressOk, ha, aligned, unlessBusy_busy hb]
  · simp [microTxn, arrWrite, ha, unlessBusy_busy hb]

theorem marked_eq_false {s : State} (hf : s.fault = none) (hr : s.refused = false) : marked s = false := by
  simp [marked, hf, hr]

/-! ## Transactions of the expansions -/

theorem microTxn_keyr {v : Word} {p : Position} {s : State} {k : KeyState}
    (h : keyNext s.params.keyWidth s.params.key1 s.params.key2 v s.ks = some k) :
    microTxn (.wr .keyr v) p s = some { s with ks := k } := by
  simp only [microTxn, writeReg, keyrWrite, presentKey, h]
  rfl

theorem microTxn_optkeyr {v : Word} {p : Position} {s : State} {k : KeyState}
    (h : keyNext s.params.keyWidth s.params.optkey1 s.params.optkey2 v s.oks = some k) :
    microTxn (.wr .optkeyr v) p s = some { s with oks := k } := by
  simp only [microTxn, writeReg, optkeyrWrite, presentOptKey, h]
  rfl

/-- SR's busy bit alone, as POLL0 masks it. -/
theorem regvalSr_and_bsy (s : State) : (regvalSr s &&& 0x00010000 = 0) ↔ s.pend = .none := by
  rw [← busy_eq_false_iff]
  constructor
  · intro h
    have h16 := congrArg (fun w : Word => w.getLsbD 16) h
    simp only [BitVec.getLsbD_and, getLsbD_regvalSr] at h16
    simpa using h16
  · intro h
    apply BitVec.eq_of_getLsbD_eq
    intro i hi
    simp only [BitVec.getLsbD_and, getLsbD_regvalSr]
    interval_cases i <;> simp [h]

/-- A poll that sees no operation pending goes on. -/
theorem advance_poll_idle {s : State} {p : Position} (h : s.pend = .none) :
    advance (.poll .sr 0x00010000) (regvalSr s) p = { p with t := regvalSr s, idx := p.idx + 1 } := by
  simp only [advance, (regvalSr_and_bsy s).mpr h, if_true]

/-- A poll that sees an operation pending reads again. -/
theorem advance_poll_busy {s : State} {p : Position} (h : s.pend ≠ .none) :
    advance (.poll .sr 0x00010000) (regvalSr s) p = { p with t := regvalSr s } := by
  simp only [advance, if_neg (mt (regvalSr_and_bsy s).mp h)]

/-- A CR write without STRT while CR is open and idle. -/
theorem crWrite_open {v : Word} {s : State} (hp : s.pend = .none) (hk : s.ks = .opened) (hs : v.getLsbD 16 = false) :
    crWrite v s = some { s with
      cr := crOfWord s.params v
      ks := if v.getLsbD 31 = true then .wait1 else .opened } := by
  have hl : isLocked s.ks = false := by simp [isLocked, hk]
  simp only [crWrite, unlessBusy_idle ((busy_eq_false_iff s).mpr hp), hl, crWriteOpen, hs]
  cases v.getLsbD 31 <;> simp [State.withCr, State.withKs, hk]

/-- A CR write with STRT while CR is open and idle: the erase request on the fields stored, then the lock. -/
theorem crWrite_start {v : Word} {s : State} (hp : s.pend = .none) (hk : s.ks = .opened) (hs : v.getLsbD 16 = true)
    (hl : v.getLsbD 31 = false) : crWrite v s = some (eraseRequest (s.withCr (crOfWord s.params v))) := by
  have hk' : isLocked s.ks = false := by simp [isLocked, hk]
  simp only [crWrite, unlessBusy_idle ((busy_eq_false_iff s).mpr hp), hk', crWriteOpen, hs, hl, Bool.false_eq_true,
    if_true, if_false]

/-- An OPTCR write while OPTCR is open and idle. -/
theorem optcrWrite_open {v : Word} {s : State} (hp : s.pend = .none) (hk : s.oks = .opened) :
    optcrWrite v s = some { s with
      optcr := optOfWord s.params v
      pend := if v.getLsbD 1 = true then .optCommit (optOfWord s.params v) else .none
      oks := if v.getLsbD 0 = true then .wait1 else .opened } := by
  have hl : isLocked s.oks = false := by simp [isLocked, hk]
  simp only [optcrWrite, unlessBusy_idle ((busy_eq_false_iff s).mpr hp), hl, optcrWriteOpen, optionCommitRequest]
  cases v.getLsbD 1 <;> cases v.getLsbD 0 <;> simp [State.withOptcr, State.withOks, State.withPend, hk, hp]

/-! ## Premises as checks -/

theorem readProtectedByte_iff (s : State) (a : Nat) :
    ReadProtectedByte s a ↔ rprotAt s.params.sectorMap s.ob a = true := by
  unfold ReadProtectedByte rprotAt
  cases sectorOf s.params.sectorMap a <;> simp

theorem writeProtectedByte_iff (s : State) (a : Nat) :
    WriteProtectedByte s a ↔ wprotAt s.params.sectorMap s.ob a = true := by
  unfold WriteProtectedByte wprotAt
  cases sectorOf s.params.sectorMap a <;> simp

theorem wellTimed_iff (s : State) : WellTimed s ↔ timingOk s = true := by
  unfold WellTimed timingOk requiredWs
  rw [Bool.and_eq_true, decide_eq_true_iff, decide_eq_true_iff]

end Sys2Proof.Machine
end

