-- ==== Sys2Proof/Tests/Slice0.lean ====
section
/-! SUPPORT. Tests: the checks of `WellFormed` each refuse an ill-formed term, every constructor decodes from a
descriptor written out from spec 30_encoding.md, single steps give what spec 95_test_vectors.md gives, and the
hypotheses of every obligation are met by a concrete state. -/

namespace Sys2Proof.Tests

open Sys2Proof Sys2Proof.Machine

/-! ## WellFormed refuses -/

theorem test_ill_formed_szRsvd_read_with_data : WellFormed Params.default (.szRsvd false 0 1) = false := by decide
theorem test_ill_formed_regOther_outside_the_window : WellFormed Params.default (.regOther true .byte 0x40024000 0) = false := by decide
theorem test_ill_formed_regOther_word_at_a_register : WellFormed Params.default (.regOther true .word 0x40023C14 0) = false := by decide
theorem test_ill_formed_regOther_read_with_data : WellFormed Params.default (.regOther false .byte 0x40023C0C 1) = false := by decide
theorem test_ill_formed_arrRd8_outside : WellFormed Params.default (.arrRd8 0x08080000) = false := by decide
theorem test_ill_formed_arrRd16_outside : WellFormed Params.default (.arrRd16 0x07FFFFFE) = false := by decide
theorem test_ill_formed_arrRd16_odd : WellFormed Params.default (.arrRd16 0x08000001) = false := by decide
theorem test_ill_formed_arrRd32_outside : WellFormed Params.default (.arrRd32 0x08080000) = false := by decide
theorem test_ill_formed_arrRd32_misaligned : WellFormed Params.default (.arrRd32 0x08000002) = false := by decide
theorem test_ill_formed_arrWr8_outside : WellFormed Params.default (.arrWr8 0x07FFFFFF 0) = false := by decide
theorem test_ill_formed_arrWr16_outside : WellFormed Params.default (.arrWr16 0x08080000 0) = false := by decide
theorem test_ill_formed_arrWr16_odd : WellFormed Params.default (.arrWr16 0x08000003 0) = false := by decide
theorem test_ill_formed_arrWr32_outside : WellFormed Params.default (.arrWr32 0x07FFFFFC 0) = false := by decide
theorem test_ill_formed_arrWr32_misaligned : WellFormed Params.default (.arrWr32 0x08000001 0) = false := by decide
theorem test_ill_formed_arrMisaligned_outside : WellFormed Params.default (.arrMisaligned true .word 0x08080001 0) = false := by decide
theorem test_ill_formed_arrMisaligned_aligned : WellFormed Params.default (.arrMisaligned true .word 0x08000004 0) = false := by decide
theorem test_ill_formed_arrMisaligned_read_with_data : WellFormed Params.default (.arrMisaligned false .half 0x08000001 1) = false := by decide
theorem test_ill_formed_notSelected_in_the_array : WellFormed Params.default (.notSelected true .word 0x08000000 0) = false := by decide
theorem test_ill_formed_notSelected_in_the_window : WellFormed Params.default (.notSelected true .word 0x40023FFC 0) = false := by decide
theorem test_ill_formed_notSelected_read_with_data : WellFormed Params.default (.notSelected false .word 0x40024000 1) = false := by decide
theorem test_ill_formed_write_length : WellFormed Params.default (.write 0x08008000 4 [1, 2, 3]) = false := by decide

/-! ## Decoding: K = [W, SZ, ADDR] written out from rules R110 and R113, OP from rule R117 -/

theorem test_decode_szRsvd : decode Params.default (.bus 0x740023C10 7) = .ok (.szRsvd true 0x40023C10 7) := by decide
theorem test_decode_acrRd : decode Params.default (.bus 0x240023C00 9) = .ok (.acrRd) := by decide
theorem test_decode_acrWr : decode Params.default (.bus 0x640023C00 5) = .ok (.acrWr 5) := by decide
theorem test_decode_keyrRd : decode Params.default (.bus 0x240023C04 0) = .ok (.keyrRd) := by decide
theorem test_decode_keyrWr : decode Params.default (.bus 0x640023C04 0x45670123) = .ok (.keyrWr 0x45670123) := by decide
theorem test_decode_optkeyrRd : decode Params.default (.bus 0x240023C08 0) = .ok (.optkeyrRd) := by decide
theorem test_decode_optkeyrWr : decode Params.default (.bus 0x640023C08 0x08192A3B) = .ok (.optkeyrWr 0x08192A3B) := by decide
theorem test_decode_srRd : decode Params.default (.bus 0x240023C0C 0) = .ok (.srRd) := by decide
theorem test_decode_srWr : decode Params.default (.bus 0x640023C0C 0xF0) = .ok (.srWr 0xF0) := by decide
theorem test_decode_crRd : decode Params.default (.bus 0x240023C10 0) = .ok (.crRd) := by decide
theorem test_decode_crWr : decode Params.default (.bus 0x640023C10 0x10212) = .ok (.crWr 0x10212) := by decide
theorem test_decode_optcrRd : decode Params.default (.bus 0x240023C14 0) = .ok (.optcrRd) := by decide
theorem test_decode_optcrWr : decode Params.default (.bus 0x640023C14 0x0FF5AAEE) = .ok (.optcrWr 0x0FF5AAEE) := by decide
theorem test_decode_regOther : decode Params.default (.bus 0x240023C18 0) = .ok (.regOther false .word 0x40023C18 0) := by decide
theorem test_decode_arrRd8 : decode Params.default (.bus 0x00807FFFF 0) = .ok (.arrRd8 0x0807FFFF) := by decide
theorem test_decode_arrRd16 : decode Params.default (.bus 0x108000002 0) = .ok (.arrRd16 0x08000002) := by decide
theorem test_decode_arrRd32 : decode Params.default (.bus 0x20807FFFC 0) = .ok (.arrRd32 0x0807FFFC) := by decide
theorem test_decode_arrWr8 : decode Params.default (.bus 0x408000003 0xABCD12) = .ok (.arrWr8 0x08000003 0x12) := by decide
theorem test_decode_arrWr16 : decode Params.default (.bus 0x508000006 0xABCDBEEF) = .ok (.arrWr16 0x08000006 0xBEEF) := by decide
theorem test_decode_arrWr32 : decode Params.default (.bus 0x608008000 0x12345678) = .ok (.arrWr32 0x08008000 0x12345678) := by decide
theorem test_decode_arrMisaligned : decode Params.default (.bus 0x208000002 0) = .ok (.arrMisaligned false .word 0x08000002 0) := by decide
theorem test_decode_notSelected : decode Params.default (.bus 0x608080000 3) = .ok (.notSelected true .word 0x08080000 3) := by decide
theorem test_decode_init : decode Params.default (.cmd 0x01 [.u32 180000000]) = .ok (.init 180000000) := by decide
theorem test_decode_unlock : decode Params.default (.cmd 0x02 []) = .ok (.unlock) := by decide
theorem test_decode_lock : decode Params.default (.cmd 0x03 []) = .ok (.lock) := by decide
theorem test_decode_optUnlock : decode Params.default (.cmd 0x04 []) = .ok (.optUnlock) := by decide
theorem test_decode_optLock : decode Params.default (.cmd 0x05 []) = .ok (.optLock) := by decide
theorem test_decode_read : decode Params.default (.cmd 0x06 [.u32 0x08008000, .u32 4]) = .ok (.read 0x08008000 4) := by decide
theorem test_decode_write : decode Params.default (.cmd 0x07 [.u32 0x08008000, .u32 2, .bytes [0x78, 0x56]]) = .ok (.write 0x08008000 2 [0x78, 0x56]) := by decide
theorem test_decode_eraseSector : decode Params.default (.cmd 0x08 [.u32 2]) = .ok (.eraseSector 2) := by decide
theorem test_decode_eraseAll : decode Params.default (.cmd 0x09 []) = .ok (.eraseAll) := by decide
theorem test_decode_getProtection : decode Params.default (.cmd 0x0A []) = .ok (.getProtection) := by decide
theorem test_decode_setProtection : decode Params.default (.cmd 0x0B [.u32 1, .u32 0x0A]) = .ok (.setProtection 1 0x0A) := by decide
theorem test_decode_waitUntilIdle : decode Params.default (.cmd 0x0C []) = .ok (.waitUntilIdle) := by decide
theorem test_decode_isStatusBitSet : decode Params.default (.cmd 0x0D [.u32 16]) = .ok (.isStatusBitSet 16) := by decide
theorem test_decode_cmdReserved00 : decode Params.default (.cmd 0x00 []) = .ok (.cmdReserved00) := by decide
theorem test_decode_cmdReserved0E : decode Params.default (.cmd 0x0F []) = .ok (.cmdReserved0E 1) := by decide
theorem test_decode_cmdReserved10 : decode Params.default (.cmd 0x1A []) = .ok (.cmdReserved10 0xA) := by decide
theorem test_decode_cmdReserved20 : decode Params.default (.cmd 0x35 []) = .ok (.cmdReserved20 0x15) := by decide
theorem test_decode_cmdReserved40 : decode Params.default (.cmd 0x7F []) = .ok (.cmdReserved40 0x3F) := by decide
theorem test_decode_cmdReserved80 : decode Params.default (.cmd 0x81 []) = .ok (.cmdReserved80 1) := by decide

/-- Rules R116, R120: a command's operand list is the one its row fixes. -/
theorem test_decode_wrong_operands : decode Params.default (.cmd 0x02 [.u32 1]) = .error (.operandList 0x02) := by decide
theorem test_decode_short_data : decode Params.default (.cmd 0x07 [.u32 0, .u32 2, .bytes [1]]) = .error (.operandList 0x07) := by
  decide
/-- The opcode table's numbering: a BUS row's 35 bits in five bytes with WDATA after them, a CMD row's one byte. -/
theorem test_table_word_bus : decodeTableWord 40 0x640023C04 = some (.keyrWr 0) := by decide
theorem test_table_word_bus_data : decodeTableWord 40 (0x640023C10 + 0x10212 * 2 ^ 40) = some (.crWr 0x10212) := by
  decide
theorem test_table_word_cmd : decodeTableWord 8 0x0B = some (.setProtection 0 0) := by decide
theorem test_table_word_reserved : decodeTableWord 8 0xFF = some (.cmdReserved80 0x7F) := by decide

/-! ## Single steps -/

/-- A field of the state a step answers. -/
def after {α : Type} (o : Host.Outcome State Fault Refusal) (f : State → α) : Option α :=
  match o with
  | .next s => some (f s)
  | _ => none

/-- CR open. -/
def opened : State := State.reset.withKs .opened
/-- CR open with the word `v` stored (rule R150). -/
def crAt (v : Word) : State := opened.withCr (crOfWord Params.default v)
/-- OPTCR open. -/
def optOpened : State := State.reset.withOks .opened
/-- Sector 2 begins 78 56 34 12 (the array of vectors RD-1 to RD-14). -/
def stored : State := State.reset.withArr [(0x08008000, 0x78), (0x08008001, 0x56), (0x08008002, 0x34), (0x08008003, 0x12)]
/-- Option bytes with this mode and bitmap. -/
def protect (m : Bool) (b : BitVec 8) : OptFields := { OptFields.factory with sprmod := m, nwrp := b }
/-- An erase of sector 2 is pending. -/
def erasing : State := (crAt 0x212).withPend (.sectorErase 2)
/-- A command at an index of its expansion, its last read word `t`. -/
def standing (i : Instr) (j : Nat) (t : Word) (s : State) : State := s.withRun (some ⟨i, j, t, []⟩)

/-- Rule R141, its example. -/
theorem test_acrRd :
    after (exec .acrRd (State.reset.withAcr ⟨5, false, false, false, false, false⟩)) State.rdata = some 5 := by decide
/-- ACR-2. -/
theorem test_acrWr_reserved :
    after (exec (.acrWr 0xFFFFFFFF) State.reset) regvalAcr = some 0x00001F0F := by decide
/-- ACR-4. -/
theorem test_acrWr_cache_reset :
    after (exec (.acrWr 0x00001005) (State.reset.withStale [⟨0x08008000, 1, []⟩])) State.stale = some [] := by decide
/-- KEY-9. -/
theorem test_keyrRd :
    after (exec .keyrRd (State.reset.withRdata 7)) State.rdata = some 0 := by decide
/-- KEY-2. -/
theorem test_keyrWr_second_key :
    after (exec (.keyrWr 0xCDEF89AB) (State.reset.withKs .wait2)) regvalCr = some 0 := by decide
/-- KEY-4. -/
theorem test_keyrWr_first_key_twice :
    after (exec (.keyrWr 0x45670123) (State.reset.withKs .wait2)) (fun s => (s.ks, s.fault)) = some (.lockout, some 0x640023C04) := by decide
/-- rule R145, its example. -/
theorem test_optkeyrRd :
    after (exec .optkeyrRd (State.reset.withRdata 7)) State.rdata = some 0 := by decide
/-- rule R146, its example. -/
theorem test_optkeyrWr_second_key :
    after (exec (.optkeyrWr 0x4C5D6E7F) (State.reset.withOks .wait2)) regvalOptcr = some 0x0FFFAAEC := by decide
/-- KEY-11. -/
theorem test_optkeyrWr_main_key :
    after (exec (.optkeyrWr 0x45670123) State.reset) (fun s => (s.oks, s.ks, s.fault)) = some (.lockout, .wait1, some 0x640023C08) := by decide
/-- rule R147, its example. -/
theorem test_srRd_busy :
    after (exec .srRd erasing) State.rdata = some 0x00010000 := by decide
/-- SR-1. -/
theorem test_srWr :
    after (exec (.srWr 0x80) (State.reset.withSr ⟨false, false, true, false, false, true, false⟩)) regvalSr = some 0x10 := by decide
/-- SR-5. -/
theorem test_srWr_busy_stays :
    after (exec (.srWr 0x00010000) erasing) (fun s => (regvalSr s, s.held)) = some (0x00010000, false) := by decide
/-- rule R149, its example. -/
theorem test_crRd_reset :
    after (exec .crRd State.reset) State.rdata = some 0x80000000 := by decide
/-- CR-15. -/
theorem test_crWr_start_and_lock :
    after (exec (.crWr 0x80010212) opened) (fun s => (s.pend, regvalCr s)) = some (.sectorErase 2, 0x80010212) := by decide
/-- CR-14. -/
theorem test_crWr_idle_start :
    after (exec (.crWr 0x02010200) opened) (fun s => (regvalSr s, regvalCr s)) = some (0x82, 0x02000200) := by decide
/-- rule R152, its example. -/
theorem test_optcrRd_reset :
    after (exec .optcrRd State.reset) State.rdata = some 0x0FFFAAED := by decide
/-- OPT-5. -/
theorem test_optcrWr_start_and_lock :
    after (exec (.optcrWr 0x0FF5AAEF) optOpened) (fun s => (s.oks, regvalOptcr s)) = some (.wait1, 0x0FF5AAEF) := by decide
/-- OPT-6. -/
theorem test_optcrWr_reserved :
    after (exec (.optcrWr 0x00F5AAEC) optOpened) regvalOptcr = some 0x0FF5AAEC := by decide
/-- RD-3. -/
theorem test_arrRd8 :
    after (exec (.arrRd8 0x08008001) stored) State.rdata = some 0x56 := by decide
/-- RD-8. -/
theorem test_arrRd8_protected :
    after (exec (.arrRd8 0x08008000) (stored.withOb (protect true 0x04))) regvalSr = some 0x100 := by decide
/-- RD-2. -/
theorem test_arrRd16 :
    after (exec (.arrRd16 0x08008002) stored) State.rdata = some 0x1234 := by decide
/-- RD-1. -/
theorem test_arrRd32 :
    after (exec (.arrRd32 0x08008000) stored) State.rdata = some 0x12345678 := by decide
/-- RD-12. -/
theorem test_arrRd32_holds :
    after (exec (.arrRd32 0x08008000) (stored.withPend (.sectorErase 4))) (fun s => (s.held, s.rdata)) = some (true, 0) := by decide
/-- PRG-7. -/
theorem test_arrWr8 :
    after (exec (.arrWr8 0x08008000 0x12) (crAt 0x001)) State.pend = some (.program 0x08008000 .byte 0x12) := by decide
/-- PRG-12. -/
theorem test_arrWr8_every_error :
    after (exec (.arrWr8 0x0800C000 0x12) (((crAt 0x02000201).withKs .wait1).withOb (protect false 0xF7))) regvalSr = some 0xD2 := by decide
/-- PRG-8. -/
theorem test_arrWr16 :
    after (exec (.arrWr16 0x08008002 0xBEEF) (crAt 0x101)) State.pend = some (.program 0x08008002 .half 0xBEEF) := by decide
/-- PRG-1. -/
theorem test_arrWr32 :
    after (exec (.arrWr32 0x08008000 0x12345678) (crAt 0x201)) (fun s => (s.pend, regvalSr s)) = some (.program 0x08008000 .word 0x12345678, 0x10000) := by decide
/-- PRG-4. -/
theorem test_arrWr32_mixed_mode :
    after (exec (.arrWr32 0x08008000 0x12345678) (crAt 0x203)) (fun s => (s.pend, regvalSr s)) = some (.none, 0x80) := by decide
/-- rule R115. -/
theorem test_regOther_refused :
    after (exec (.regOther true .half 0x40023C10 1) State.reset) State.refused = some true := by decide
/-- CMD-X1. -/
theorem test_cmdReserved_refused :
    after (exec (.cmdReserved0E 0) State.reset) State.refused = some true := by decide
/-- CAL-12. -/
theorem test_init_wait_states :
    after (exec (.init 180000000) (standing (.init 180000000) 1 0x600 State.reset)) regvalAcr = some 0x605 := by decide
/-- CMD-I1. -/
theorem test_init_psize :
    after (exec (.init 16000000) (standing (.init 16000000) 3 0x80000000 State.reset)) regvalCr = some 0x80000200 := by decide
/-- CMD-U2. -/
theorem test_unlock_twice :
    after (exec .unlock opened) (fun s => (s.ks, s.fault)) = some (.lockout, some 0x640023C04) := by decide
/-- CMD-L1. -/
theorem test_lock :
    after (exec .lock (standing .lock 1 0x212 (crAt 0x212))) (fun s => (regvalCr s, s.run)) = some (0x80000212, none) := by decide
/-- rule R235, its example. -/
theorem test_optUnlock :
    after (exec .optUnlock (standing .optUnlock 1 0 (State.reset.withOks .wait2))) State.oks = some .opened := by decide
/-- rule R236, its example. -/
theorem test_optLock :
    after (exec .optLock (standing .optLock 1 0x0FFFAAEC optOpened)) State.oks = some .wait1 := by decide
/-- CMD-R3. -/
theorem test_read_out_of_range :
    after (exec (.read 0x0807FFFF 1) State.reset) State.result = some .outOfRange := by decide
/-- CMD-R6. -/
theorem test_read_last_byte :
    after (exec (.read 0x0807FFFE 1) State.reset) State.result = some (.ok [0xFF]) := by decide
/-- P1, transaction 23. -/
theorem test_write_word :
    after (exec (.write 0x08008000 4 [0x78, 0x56, 0x34, 0x12]) (standing (.write 0x08008000 4 [0x78, 0x56, 0x34, 0x12]) 5 0 (crAt 0x211))) State.pend = some (.program 0x08008000 .word 0x12345678) := by decide
/-- CMD-W3. -/
theorem test_write_past_the_array :
    after (exec (.write 0x0807FFFC 5 [1, 2, 3, 4, 5]) State.reset) State.refused = some true := by decide
/-- P1, transaction 11. -/
theorem test_eraseSector_target :
    after (exec (.eraseSector 2) (standing (.eraseSector 2) 6 0x200 (crAt 0x200))) regvalCr = some 0x212 := by decide
/-- CMD-E3. -/
theorem test_eraseSector_out_of_range :
    after (exec (.eraseSector 16) State.reset) State.refused = some true := by decide
/-- rule R241. -/
theorem test_eraseAll_start :
    after (exec .eraseAll (standing .eraseAll 8 0x204 (crAt 0x204))) State.pend = some .massErase := by decide
/-- CMD-G1. -/
theorem test_getProtection :
    after (exec .getProtection (State.reset.withOptcr (protect false 0xF5))) State.result =
      some (.levels [0, 1, 0, 1, 0, 0, 0, 0]) := by decide
/-- P2, transaction 13. -/
theorem test_setProtection_bitmap :
    after (exec (.setProtection 1 0x0A) (standing (.setProtection 1 0x0A) 8 0x0FFFAAEC optOpened)) regvalOptcr = some 0x0FF5AAEC := by decide
/-- CMD-P7. -/
theorem test_setProtection_level :
    after (exec (.setProtection 3 1) State.reset) State.refused = some true := by decide
/-- CMD-Y1. -/
theorem test_waitUntilIdle_idle :
    after (exec .waitUntilIdle State.reset) (fun s => (s.rdata, s.run)) = some (0, none) := by decide
/-- CMD-Y2. -/
theorem test_waitUntilIdle_busy :
    after (exec .waitUntilIdle erasing) (fun s => (s.rdata, s.run.isSome)) = some (0x00010000, true) := by decide
/-- CMD-S1. -/
theorem test_isStatusBitSet :
    after (exec (.isStatusBitSet 16) erasing) State.result = some (.flag true) := by decide
/-- CMD-S4. -/
theorem test_isStatusBitSet_range :
    after (exec (.isStatusBitSet 32) State.reset) State.refused = some true := by decide

/-! ## Engine, reset and step -/

/-- ENG-1. -/
theorem test_complete_program :
    readBytes (engineStep (State.reset.withPend (.program 0x08008000 .word 0x12345678))).arr 0x08008000 5 =
      [0x78, 0x56, 0x34, 0x12, 0xFF] := by decide
/-- ENG-4, ENG-13. -/
theorem test_complete_sector_erase :
    (fun s => (readByte s.arr 0x08007FFF, readByte s.arr 0x08008000, readByte s.arr 0x0800C000,
      staleAt s.stale 0x08008000))
      (engineStep ((State.reset.withArr [(0x08007FFF, 0x33), (0x08008000, 0), (0x0800C000, 0x44)]).withPend
        (.sectorErase 2))) = (0x33, 0xFF, 0x44, [0]) := by decide
/-- ENG-12: not a weakening. -/
theorem test_complete_commit :
    (engineStep ((State.reset.withOb (protect true 0x05)).withPend (.optCommit (protect true 0x07)))).ob =
      protect true 0x07 := by decide
/-- ENG-8, IRQ-1. -/
theorem test_eop_interrupt :
    irq (engineStep ((State.reset.withCr (crOfWord Params.default 0x01000000)).withPend .massErase)) = true := by decide
/-- RST-2. -/
theorem test_reset_reloads_optcr :
    regvalOptcr (resetEvent (State.reset.withOb (protect false 0xF5))) = 0x0FF5AAED := by decide
/-- RST-6. -/
theorem test_reset_keeps_the_fault_mark :
    (fun s => (s.ks, s.fault)) (resetEvent ((State.reset.withKs .lockout).withFault (some 0x640023C04))) =
      (.wait1, some 0x640023C04) := by decide
theorem test_fetch_bus : after (step (State.reset.withFetchWord 40 (0x640023C04 + 0x45670123 * 2 ^ 40)))
    (fun s => (s.ks, s.program)) = some (.wait2, []) := by decide
theorem test_fetch_cmd : after (step (State.reset.withFetchWord 8 0x09)) (fun s => (s.ks, s.run.isSome)) =
    some (.wait2, true) := by decide

/-! ## The hypotheses of the obligations are met -/

/-- Parameters other than the defaults: four sectors of 64 KiB elsewhere, other register addresses, narrower fields,
an erased byte of 0, other keys. -/
def varied : Params :=
  { Params.default with
    nSectors := 4
    snbWidth := 3
    latencyWidth := 3
    wrpWidth := 4
    keyWidth := 16
    regBase := 0x50000000
    arrayBase := 0x10000000
    arrayLast := 0x1003FFFF
    erasedByte := 0
    sectorMap := (List.range 4).map (fun i => (0x10000000 + 0x10000 * i, 0x10000))
    key1 := 1
    key2 := 2 }
/-- A launch with them. -/
def elsewhere : State := State.launch varied (protect false 0x0F) []

/-- With other parameters: the rows lie at their bases, UNLOCK writes their keys (of which 16 bits count), a field keeps
the bits of its width, and an erase fills their sector with their erased byte. -/
theorem test_decode_other_bases :
    decode varied (.bus 0x650000010 5) = .ok (.crWr 5) ∧ decode varied (.bus 0x21003FFFC 0) = .ok (.arrRd32 0x1003FFFC) ∧
    decode varied (.bus 0x640023C10 5) = .ok (.notSelected true .word 0x40023C10 5) ∧
    decode varied (.bus 0x2500003FC 0) = .ok (.regOther false .word 0x500003FC 0) := by decide
theorem test_unlock_other_keys :
    after (exec .unlock elsewhere) State.ks = some .wait2 ∧
    after (exec (.keyrWr 0xABCD0001) elsewhere) State.ks = some .wait2 ∧
    after (exec (.keyrWr 0xABCD0003) elsewhere) State.fault = some (some 0x650000004) := by decide
theorem test_fields_other_widths :
    after (exec (.acrWr 0x00000FFF) elsewhere) regvalAcr = some 0x00000F07 ∧
    after (exec (.eraseSector 8) elsewhere) State.refused = some true ∧
    after (exec .getProtection elsewhere) State.result = some (.levels [0, 0, 0, 0]) := by decide
theorem test_erase_other_sectors :
    (fun s => (sectorOf s.params.sectorMap 0x10020000, sectorRange s.params.sectorMap 2,
      unitErased (fillRange s.arr 0x10020000 4 s.params.erasedByte) s.params.erasedByte 0x10020000 4))
      elsewhere = (some 2, (0x10020000, 0x10000), true) := by decide
/-- The masks of the default widths are those of rules R232, R240 and R243. -/
theorem test_field_masks :
    fieldMask 0 Params.default.latencyWidth = 0x0000000F ∧ fieldMask 8 Params.default.psizeWidth = 0x00000300 ∧
    fieldMask 3 Params.default.snbWidth = 0x00000078 ∧ fieldMask 16 Params.default.wrpWidth = 0x00FF0000 := by decide

theorem paramsOk_default : paramsOk Params.default := by constructor <;> decide
theorem paramsOk_varied : paramsOk varied := by constructor <;> decide
/-- The invariant of a state with the default parameters and nothing in its array or its cache. -/
theorem invariant_of {s : State} (hp : s.params = Params.default) (ha : s.arr = []) (hs : s.stale = [])
    (ho : pendingOk Params.default s.pend) (hl : s.acr.latency.toNat < 16) (hn : s.cr.snb.toNat < 16)
    (hz : s.cr.psize.toNat < 4) : Invariant s where
  params_ok := hp ▸ paramsOk_default
  arr_wf := by
    rw [ha]
    exact wf_nil _
  stale_ok r hr := absurd (hs ▸ hr) List.not_mem_nil
  pend_ok := by rwa [hp]
  latency_fits := by rwa [hp]
  snb_fits := by rwa [hp]
  psize_fits := by rwa [hp]
  nwrp_fits := by
    rw [hp]
    exact s.optcr.nwrp.isLt
  ob_fits := by
    rw [hp]
    exact s.ob.nwrp.isLt
theorem invariant_opened : Invariant opened := invariant_of rfl rfl rfl trivial (by decide) (by decide) (by decide)
theorem invariant_optOpened : Invariant optOpened :=
  invariant_of rfl rfl rfl trivial (by decide) (by decide) (by decide)
theorem invariant_erasing : Invariant erasing :=
  invariant_of rfl rfl rfl (by decide : (2 : BitVec 5).toNat < 2 ^ 4) (by decide) (by decide) (by decide)
/-- CR locked with PSIZE = x32, as INIT leaves it. -/
def initialised : State := State.reset.withCr (crOfWord Params.default 0x200)
theorem ready_initialised : Ready initialised := ⟨rfl, rfl, rfl⟩
theorem invariant_initialised : Invariant initialised :=
  invariant_of rfl rfl rfl trivial (by decide) (by decide) (by decide)

/-- The host can begin a command in the reset state, idle and with both locks closed. -/
theorem ready_reset : Ready State.reset := ⟨rfl, rfl, rfl⟩
theorem ready_erasing : Ready erasing := ⟨rfl, rfl, rfl⟩
theorem wellTimed_reset : WellTimed State.reset := (wellTimed_iff _).mpr (by decide)
/-- Well timed at the ceiling: 180 MHz with five wait states. -/
def fast (latency : BitVec 8) : State :=
  State.launch { Params.default with hclkHz := 180000000 } (protect true 0x04) []
    |>.withAcr ⟨latency, false, false, false, false, false⟩
/-- A request list of one descriptor for the host's next turn. -/
def request (d : Descriptor) (s : State) : State := (s.withProgram [d]).withSched [.host]

theorem test_witness_DecodeOfEncodeIsTheInstruction :
    WellFormed Params.default (.arrWr16 0x0807FFFE 0xBEEF) = true ∧ WellFormed Params.default (.regOther true .word 0x40023FFC 1) = true ∧
      WellFormed Params.default (.write 0 2 [1, 2]) = true ∧ paramsOk Params.default ∧ paramsOk varied ∧
      WellFormed varied (.regOther true .word 0x50000018 1) = true :=
  ⟨by decide, by decide, by decide, paramsOk_default, paramsOk_varied, by decide⟩
theorem test_witness_DecodedInstructionsAreWellFormed :
    decode Params.default (.bus 0x300000000 5) = .ok (.szRsvd false 0 0) ∧ decode Params.default (.cmd 0x08 [.u32 2]) = .ok (.eraseSector 2) := by
  decide
theorem test_witness_DecodingKeepsTheDescriptor :
    decode Params.default (.bus 0x408000003 0xABCD12) = .ok (.arrWr8 0x08000003 0x12) ∧
      decode Params.default (.cmd 0x0D [.u32 31]) = .ok (.isStatusBitSet 31) := by decide
/-- Each clause at a boundary: SZ = 3; offset 0x18, the window's ends, a misaligned and a sub-word register; the array's
ends misaligned; the addresses next to both spaces. -/
theorem test_witness_RefusedDescriptorsSetOnlyTheRefusalMark :
    (0x340023C10 / 2 ^ 32 % 4 = 3) ∧
    (0x240023C18 % 2 ^ 32 = 0x40023C18 ∧ ¬(0x40023C18 ≤ 0x40023C14)) ∧
    (0x540023C00 / 2 ^ 32 % 4 = 1 ∧ 0x540023C00 % 2 ^ 32 = 0x40023C00) ∧
    (0x240023C12 % 2 ^ 32 % 4 = 2) ∧ (0x640023FFF % 2 ^ 32 = 0x40023FFF) ∧
    (0x108000001 / 2 ^ 32 % 4 = 1 ∧ 0x08000001 % 2 ^ 1 ≠ 0) ∧ (0x20807FFFF % 2 ^ 32 = 0x0807FFFF ∧ 0x0807FFFF % 2 ^ 2 ≠ 0) ∧
    (0x007FFFFFF % 2 ^ 32 < 0x08000000) ∧ (0x008080000 % 2 ^ 32 = 0x0807FFFF + 1) ∧
    (0x240023BFC % 2 ^ 32 < 0x40023C00) ∧ (0x240024000 % 2 ^ 32 = 0x40023FFF + 1) ∧
    Params.default.regBase.toNat + 0x14 = 0x40023C14 ∧ Params.default.regBase.toNat + 0x3FF = 0x40023FFF := by decide
theorem test_witness_IllFormedCommandsAreRefused :
    State.reset.run = none ∧ (0x00 : BitVec 8).toNat = 0 ∧ 0x0E ≤ (0x0E : BitVec 8).toNat ∧
    0x0E ≤ (0xFF : BitVec 8).toNat ∧ 15 < (16 : Word).toNat ∧ 2 < (3 : Word).toNat ∧ 0xFF < (0x100 : Word).toNat ∧
    31 < (32 : Word).toNat ∧ ([1] : List Byte).length = (1 : Word).toNat ∧ (0x08008002 : Word).toNat % 4 ≠ 0 ∧
    (0x07FFFFFC : Word).toNat < 0x08000000 ∧
    0x0807FFFF < (0x08080000 : Word).toNat + 4 * (((1 : Word).toNat + 3) / 4) - 1 := by decide
theorem test_witness_StepRunsTheDecodedRequest :
    decode Params.default (.cmd 0x02 []) = .ok .unlock ∧ (request (.cmd 0x02 []) State.reset).fault = none ∧
    (request (.cmd 0x02 []) State.reset).refused = false ∧
    (request (.cmd 0x02 []) State.reset).program = .cmd 0x02 [] :: [] ∧
    (request (.cmd 0x02 []) State.reset).sched = .host :: [] ∧
    after (exec .unlock ((request (.cmd 0x02 []) State.reset).withSched [])) State.ks = some .wait2 ∧
    (State.reset.withProgram [.cmd 0x02 []]).sched = [] ∧ State.reset.pend = .none := by decide
/-- Each agent's turn, scheduled and by default; a marked run of either kind, an idle host and a request that is no
descriptor. -/
theorem test_witness_EachTurnStepsItsAgentOrStopsTheHost :
    erasing.sched = [] ∧ erasing.params.engineFair = true ∧ erasing.pend ≠ .none ∧
    (State.reset.withSched [.host]).sched = .host :: [] ∧ State.reset.sched = [] ∧ State.reset.pend = .none ∧
    State.reset.fault = none ∧ State.reset.refused = false ∧ State.reset.program = [] ∧
    decode Params.default (.cmd 0x02 [.u32 0]) = .error (.operandList 0x02) ∧
    ((State.reset.withFault (some 0x640023C04)).withSched [.host]).fault = some 0x640023C04 ∧
    ((State.reset.withRefused true).withSched [.host]).refused = true ∧
    ((State.reset.withRefused true).withSched [.host]).fault = none ∧
    (erasing.withSched [.engine]).sched = .engine :: [] ∧ (erasing.withSched [.reset]).sched = .reset :: [] := by decide
/-- With both kinds of engine. -/
theorem test_witness_WaitHangsOnlyWithAnUnfairEngine :
    Ready (erasing.withProgram [.cmd 0x0C []]) ∧ erasing.pend ≠ .none ∧ erasing.sched = [] ∧
      erasing.params.engineFair = true ∧
      ((State.launch { Params.default with engineFair := false } OptFields.factory []).withPend .massErase).pend ≠ .none ∧
      (State.launch { Params.default with engineFair := false } OptFields.factory []).params.engineFair = false :=
  ⟨⟨rfl, rfl, rfl⟩, by decide, rfl, rfl, by decide, rfl⟩
theorem test_witness_InvariantHoldsAtLaunch :
    paramsOk Params.default ∧ paramsOk varied ∧ Memory.wf [(0x08000000, 0x5A), (0x0807FFFF, 0)] Params.default ∧
    (protect false 0x0F).nwrp.toNat < 2 ^ varied.wrpWidth := ⟨paramsOk_default, paramsOk_varied, by decide, by decide⟩
theorem test_witness_StepKeepsTheInvariant :
    Invariant (erasing.withSched [.engine]) ∧ ∃ t, step (erasing.withSched [.engine]) = .next t ∧ t.pend = .none :=
  ⟨invariant_of rfl rfl rfl (by decide : (2 : BitVec 5).toNat < 2 ^ 4) (by decide) (by decide) (by decide),
    _, rfl, rfl⟩
/-- A program, an erase and a commit that each change what they may. -/
theorem test_witness_ArrayAndOptionBytesChangeOnlyByEngineOrReset :
    (∃ t, step ((State.reset.withPend (.program 0x08008000 .byte 0)).withSched [.engine]) = .next t ∧
      t.arr = [(0x08008000, 0)]) ∧
    (∃ t, step ((stored.withPend (.sectorErase 2)).withSched [.engine]) = .next t ∧ t.arr ≠ stored.arr) ∧
    (∃ t, step ((State.reset.withPend (.optCommit (protect false 0xF5))).withSched [.engine]) = .next t ∧
      t.ob = protect false 0xF5) ∧ exec .acrRd State.reset = .next State.reset :=
  ⟨⟨_, rfl, by decide⟩, ⟨_, rfl, by decide⟩, ⟨_, rfl, by decide⟩, rfl⟩
theorem test_witness_MarksAndParametersSurviveEveryStep :
    ∃ t, step (((State.reset.withFault (some 0x640023C08)).withRefused true).withSched [.reset]) = .next t ∧
      t.fault = some 0x640023C08 := ⟨_, rfl, rfl⟩
/-- The second key opens, the first moves on, and the lockout ends at a reset. -/
theorem test_witness_LocksOpenOnlyThroughTheirKeySequence :
    after (step (request (.bus 0x640023C04 0xCDEF89AB) (State.reset.withKs .wait2))) State.ks = some .opened ∧
    after (step (request (.bus 0x640023C04 0x45670123) State.reset)) State.ks = some .wait2 ∧
    after (step ((State.reset.withKs .lockout).withSched [.reset])) State.ks = some .wait1 ∧
    after (step (request (.bus 0x640023C08 0x4C5D6E7F) (State.reset.withOks .wait2))) State.oks = some .opened ∧
    after (step (request (.bus 0x640023C08 0x08192A3B) State.reset)) State.oks = some .wait2 ∧
    after (step ((State.reset.withOks .lockout).withSched [.reset])) State.oks = some .wait1 := by decide
theorem test_witness_KeyMachinesAreIndependent :
    exec (.keyrWr 0x45670123) State.reset = .next (State.reset.withKs .wait2) ∧
    after (exec (.crWr 0x80000000) opened) State.ks = some .wait1 ∧
    exec (.optkeyrWr 0x08192A3B) State.reset = .next (State.reset.withOks .wait2) ∧
    after (exec (.optcrWr 0x0FFFAAED) optOpened) State.oks = some .wait1 := ⟨rfl, by decide, rfl, by decide⟩
theorem test_witness_OperationsStartUnlockedAndRunUndisturbed :
    exec (.crWr 0) erasing = .next (erasing.withHeld true) ∧ erasing.pend ≠ .none ∧ opened.pend = .none ∧
    after (exec (.crWr 0x00010204) opened) State.pend = some .massErase ∧
    after (exec (.arrWr8 0x08008000 0x12) (crAt 0x001)) State.pend = some (.program 0x08008000 .byte 0x12) ∧
    after (exec (.optcrWr 0x0FF5AAEE) optOpened) State.pend = some (.optCommit (protect false 0xF5)) :=
  ⟨rfl, by decide, rfl, by decide, by decide, by decide⟩
theorem test_witness_KeyrWriteFollowsTheKeySequence :
    State.reset.ks = .wait1 ∧ (State.reset.withKs .wait2).ks = .wait2 ∧
    sameKey State.reset.params.keyWidth 0x45670123 State.reset.params.key1 = true ∧
    ¬(opened.ks = .wait1 ∧ sameKey opened.params.keyWidth 0x45670123 opened.params.key1 = true) ∧
    ¬(State.reset.ks = .wait1 ∧ sameKey State.reset.params.keyWidth 0xCDEF89AB State.reset.params.key1 = true) := by
  decide
theorem test_witness_OptkeyrWriteFollowsTheKeySequence :
    State.reset.oks = .wait1 ∧ (State.reset.withOks .wait2).oks = .wait2 ∧
    sameKey State.reset.params.keyWidth 0x08192A3B State.reset.params.optkey1 = true ∧
    ¬(optOpened.oks = .wait1 ∧ sameKey optOpened.params.keyWidth 0x08192A3B optOpened.params.optkey1 = true) ∧
    ¬(State.reset.oks = .wait1 ∧ sameKey State.reset.params.keyWidth 0x4C5D6E7F State.reset.params.optkey1 = true) := by
  decide
theorem invariant_elsewhere : Invariant elsewhere where
  params_ok := paramsOk_varied
  arr_wf := wf_nil _
  stale_ok r hr := absurd hr List.not_mem_nil
  pend_ok := trivial
  latency_fits := by decide
  snb_fits := by decide
  psize_fits := by decide
  nwrp_fits := by decide
  ob_fits := by decide
/-- A field narrower than its room, with the default widths and with others. -/
theorem test_witness_RegisterReadsReturnTheirFields :
    Invariant elsewhere ∧ elsewhere.params.wrpWidth ≤ 4 ∧ elsewhere.params.latencyWidth ≤ 3 ∧
    elsewhere.params.snbWidth ≤ 3 ∧ Invariant opened ∧ opened.params.latencyWidth ≤ 4 ∧ opened.params.snbWidth ≤ 4 ∧ opened.params.psizeWidth ≤ 2 ∧
    State.reset.params.latencyWidth ≤ 8 :=
  ⟨invariant_elsewhere, by decide, by decide, by decide, invariant_opened, by decide⟩
/-- Locked, under both values of the parameter, and open without STRT. -/
theorem test_witness_CrWriteWithoutStartStoresTheFields :
    State.reset.pend = .none ∧ State.reset.ks ≠ .opened ∧ State.reset.params.lockedCrWrite = .fieldsApplied ∧
    (State.launch { Params.default with lockedCrWrite := .ignored } OptFields.factory []).ks ≠ .opened ∧
    opened.pend = .none ∧ opened.ks = .opened ∧ (0x80000212 : Word).getLsbD 16 = false ∧
    crOfWord Params.default 0x80000212 = ⟨false, true, false, 2, 2, false, false⟩ := by decide
/-- Each of the five cases of the start check, and a sticky flag. -/
theorem test_witness_CrWriteWithStartIsCheckedOrDropped :
    opened.pend = .none ∧ opened.ks = .opened ∧ (0x00010212 : Word).getLsbD 16 = true ∧
    sticky (opened.withSr ⟨false, false, false, false, false, true, false⟩).sr = true ∧
    crOfWord Params.default 0x0001023A = ⟨false, true, false, 7, 2, false, false⟩ ∧ wprot (protect false 0x7F) 7 = true ∧
    crOfWord Params.default 0x00010242 = ⟨false, true, false, 8, 2, false, false⟩ ∧ ¬((8 : BitVec 5).toNat < opened.params.nSectors) ∧
    crOfWord Params.default 0x00010204 = ⟨false, false, true, 0, 2, false, false⟩ ∧
    (∀ i, i < opened.params.nSectors → wprot OptFields.factory i = false) ∧ (7 < opened.params.nSectors ∧ wprot (protect false 0x7F) 7 = true) ∧
    crOfWord Params.default 0x00010207 = ⟨true, true, true, 0, 2, false, false⟩ := by decide
theorem test_witness_OptcrWriteStoresCommitsAndLocks :
    erasing.pend ≠ .none ∧ State.reset.pend = .none ∧ State.reset.oks ≠ .opened ∧ optOpened.pend = .none ∧
    optOpened.oks = .opened ∧ optOfWord Params.default 0x0FF5AAEF = protect false 0xF5 := by decide
theorem test_witness_BusyTransactionsHold :
    (∃ p e u, expansionOf erasing.params .lock = some e ∧ (standing .lock 1 0 erasing).run = some p ∧ p.cmd = .lock ∧
      e.txnAt p.idx = some u ∧ HoldsWhileBusy erasing.params u ∧ microTxn u p erasing = none) ∧
    erasing.pend ≠ .none ∧ IsArrayRead (.arrRd16 0x0807FFFE) .half 0x0807FFFE ∧
    WellFormed Params.default (.arrRd16 0x0807FFFE) = true ∧ IsArrayWrite (.arrWr8 0x08000000 0x12) .byte 0x08000000 0x12 ∧
    WellFormed Params.default (.arrWr8 0x08000000 0x12) = true ∧ erasing.run = none ∧ 0x08000000 ≤ (0x0807FFFE : Word).toNat ∧
    (0x0807FFFE : Word).toNat + (1 : Word).toNat ≤ erasing.params.endAddr.toNat ∧ 0 < (1 : Word).toNat :=
  ⟨⟨_, _, _, rfl, rfl, rfl, rfl, .inr (.inl ⟨_, _, .inl rfl⟩), rfl⟩, by decide, .inr (.inl ⟨rfl, rfl⟩), by decide, .inl ⟨0x12, rfl, rfl, rfl⟩, by decide, rfl, by decide, by decide,
    by decide⟩
/-- Both table rows of each mode, at the first and the last sector. -/
theorem test_witness_ProtectionFollowsTheTruthTable :
    (0x7E : BitVec 8).getLsbD 0 = false ∧ (0x7E : BitVec 8).getLsbD 7 = false ∧ (0x81 : BitVec 8).getLsbD 0 = true ∧
    (0x81 : BitVec 8).getLsbD 7 = true := by decide
theorem test_witness_SectorsCoverTheArrayExactly :
    sectorMapOk varied = true ∧ sectorOf varied.sectorMap 0x1003FFFF = some 3 ∧
    sectorOf varied.sectorMap 0x10040000 = none ∧ varied.nSectors ≤ 4 := by decide
/-- DCEN = 0, and DCEN = 1 with nothing stale, at the clock's ceiling. -/
theorem test_witness_ArrayReadReturnsTheStoredBytes :
    IsArrayRead (.arrRd32 0x0807FFFC) .word 0x0807FFFC ∧ WellFormed Params.default (.arrRd32 0x0807FFFC) = true ∧
    (fast 5).pend = .none ∧ WellTimed (fast 5) ∧ (∀ j, j < nbytes .word → ¬ReadProtectedByte (fast 5) ((0x0807FFFC : Word).toNat + j)) ∧
    (fast 5).acr.dcen = false ∧ ∀ j, j < 4 → staleAt (fast 5).stale (0x0807FFFC + j) = [] :=
  ⟨.inr (.inr ⟨rfl, rfl⟩), by decide, rfl, (wellTimed_iff _).mpr (by decide),
    fun j hj => (readProtectedByte_iff _ _).not.mpr ((by decide : ∀ j, j < nbytes .word →
      ¬rprotAt (fast 5).params.sectorMap (fast 5).ob ((0x0807FFFC : Word).toNat + j) = true) j hj), rfl, fun _ _ => rfl⟩
theorem test_witness_CachedReadReturnsStoredOrStaleBytes :
    ∃ s : State, s = (stored.withAcr ⟨0, false, false, true, false, false⟩).withStale [⟨0x08008000, 1, []⟩] ∧
      IsArrayRead (.arrRd8 0x08008000) .byte 0x08008000 ∧ WellFormed Params.default (.arrRd8 0x08008000) = true ∧
      s.pend = .none ∧ WellTimed s ∧ (∀ j, j < nbytes .byte → ¬ReadProtectedByte s ((0x08008000 : Word).toNat + j)) ∧
      s.acr.dcen = true ∧
      staleAt s.stale 0x08008000 = [0xFF] :=
  ⟨_, rfl, .inl ⟨rfl, rfl⟩, by decide, rfl, (wellTimed_iff _).mpr (by decide),
    fun j hj => (readProtectedByte_iff _ _).not.mpr (by obtain rfl : j = 0 := Nat.lt_one_iff.mp hj; decide), rfl,
    by decide⟩
/-- A protected sector read in time, and one wait state too few. -/
theorem test_witness_ProtectedOrUnderclockedReadHidesTheBytes :
    IsArrayRead (.arrRd32 0x08008000) .word 0x08008000 ∧ WellFormed Params.default (.arrRd32 0x08008000) = true ∧
    (fast 5).pend = .none ∧ WellTimed (fast 5) ∧
    (∃ j, j < nbytes .word ∧ ReadProtectedByte (fast 5) ((0x08008000 : Word).toNat + j)) ∧ ¬WellTimed (fast 4) :=
  ⟨.inr (.inr ⟨rfl, rfl⟩), by decide, rfl, (wellTimed_iff _).mpr (by decide),
    ⟨3, by decide, (readProtectedByte_iff _ _).mpr (by decide)⟩, (wellTimed_iff _).not.mpr (by decide)⟩
/-- No error applies, and every error applies. -/
theorem test_witness_ProgramRequestStartsOrFlagsEveryError :
    IsArrayWrite (.arrWr32 0x08008000 0x12345678) .word 0x08008000 0x12345678 ∧
    WellFormed Params.default (.arrWr32 0x08008000 0x12345678) = true ∧ (crAt 0x201).pend = .none ∧ sticky (crAt 0x201).sr = false ∧
    ¬WriteProtectedByte (crAt 0x201) (0x08008000 : Word).toNat ∧ nbytes .word = 2 ^ (crAt 0x201).cr.psize.toNat ∧
    (crAt 0x201).ks = .opened ∧ ((crAt 0x201).cr.pg = true ∧ (crAt 0x201).cr.ser = false ∧ (crAt 0x201).cr.mer = false) ∧
    WriteProtectedByte (State.reset.withOb (protect false 0)) (0x08008000 : Word).toNat ∧
    nbytes .word ≠ 2 ^ State.reset.cr.psize.toNat ∧ State.reset.ks ≠ .opened :=
  ⟨.inr (.inr ⟨rfl, rfl⟩), by decide, rfl, by decide, (writeProtectedByte_iff _ _).not.mpr (by decide), by decide,
    rfl, by decide, (writeProtectedByte_iff _ _).mpr (by decide), by decide, by decide⟩
theorem test_witness_StickyProgramRequestIsDroppedOrChecked :
    IsArrayWrite (.arrWr16 0x08008000 0xBEEF) .half 0x08008000 0xBEEF ∧
    WellFormed Params.default (.arrWr16 0x08008000 0xBEEF) = true ∧ (crAt 0x101).pend = .none ∧
    sticky ((crAt 0x101).withSr ⟨false, false, false, false, true, false, false⟩).sr = true ∧
    ¬WriteProtectedByte (crAt 0x101) (0x08008000 : Word).toNat ∧ nbytes .half = 2 ^ (crAt 0x101).cr.psize.toNat :=
  ⟨.inr (.inl ⟨0xBEEF, rfl, rfl, rfl⟩), by decide, rfl, by decide, (writeProtectedByte_iff _ _).not.mpr (by decide),
    by decide⟩
/-- An erased unit and one that is not. -/
theorem test_witness_ProgramCompletionWritesOnlyItsUnit :
    (State.reset.withPend (.program 0x0807FFFF .byte 1)).pend = .program 0x0807FFFF .byte 1 ∧
    (∀ j, j < nbytes .byte → readByte State.reset.arr (0x0807FFFF + j) = State.reset.params.erasedByte) ∧
    readByte stored.arr 0x08008000 ≠ stored.params.erasedByte := by decide
/-- A sector of the map, the last of them, and a number above them. -/
theorem test_witness_SectorEraseCompletionErasesOnlyItsSector :
    erasing.pend = .sectorErase 2 ∧ InSector erasing (2 : BitVec 5).toNat 0x0800BFFF ∧ erasing.cr.psize.toNat < 3 ∧
    InSector erasing (7 : BitVec 5).toNat 0x0807FFFF ∧ ¬InSector erasing (2 : BitVec 5).toNat 0x0800C000 ∧
    sectorMapOk erasing.params = true ∧
    (State.reset.withPend (.sectorErase 8)).pend = .sectorErase 8 :=
  ⟨rfl, ⟨by decide, by decide⟩, by decide, ⟨by decide, by decide⟩, fun h => absurd h.2 (by decide), by decide, rfl⟩
theorem test_witness_MassEraseCompletionErasesTheArray :
    (stored.withPend .massErase).pend = .massErase ∧ stored.cr.psize.toNat < 3 := by decide
/-- A commit that weakens PCROP in each of the two ways, and one that does not. -/
theorem test_witness_OptionCommitTakesTheNewFieldsOrKeepsTheOld :
    ((State.reset.withOb (protect true 5)).withPend (.optCommit (protect false 5))).pend = .optCommit (protect false 5) ∧
    weakensPcrop Params.default (protect true 5) (protect false 5) = true ∧ weakensPcrop Params.default (protect true 5) (protect true 1) = true ∧
    weakensPcrop Params.default (protect true 5) (protect true 7) = false := by decide
/-- Two states that differ in CR's lock and mode, ACR and the error flags, an erase pending in both. -/
theorem test_witness_EngineReadsAndWritesOnlyItsOwnState :
    State.reset.pend = .none ∧ ∀ t, t = (erasing.withKs .lockout).withCr { erasing.cr with pg := true, snb := 7 } →
      t.pend = erasing.pend ∧ t.arr = erasing.arr ∧ t.ob = erasing.ob ∧ t.stale = erasing.stale ∧
      t.draws = erasing.draws ∧ t.params = erasing.params ∧ t.sr.eop = erasing.sr.eop ∧
      t.cr.psize = erasing.cr.psize ∧ t.cr.eopie = erasing.cr.eopie ∧ t ≠ erasing := by
  refine ⟨rfl, ?_⟩
  rintro _ rfl
  exact ⟨rfl, rfl, rfl, rfl, rfl, rfl, rfl, rfl, rfl, by decide⟩
theorem test_witness_ResetEventClearsVolatileStateOnly :
    State.reset.pend = .none ∧ erasing.pend = .sectorErase 2 ∧ (opened.withPend .massErase).pend = .massErase ∧
    (opened.withPend (.program 0 .half 0)).pend = .program 0 .half 0 ∧
    (opened.withPend (.optCommit (protect true 0))).pend = .optCommit (protect true 0) := by decide
theorem test_witness_LaunchRegistersReadTheirResetValues : Params.default.optcrRsvd = 0x0F000000 := rfl
theorem test_witness_CommandTransactionsAreBusInstructions :
    paramsOk erasing.params ∧ arrayAddressOk erasing.params .word 0x0807FFFC = true ∧
    microTxn (.wrData 0x0807FFFC [1]) ⟨.unlock, 0, 0, []⟩ erasing = none ∧
    (microTxn (.rdByte 0x0807FFFE) ⟨.unlock, 0, 0, []⟩ stored).isSome = true ∧
    microTxn (.rdByte 0x08080000) ⟨.unlock, 0, 0, []⟩ erasing = some (refuse erasing) :=
  ⟨paramsOk_default, by decide, rfl, rfl, rfl⟩
theorem test_witness_InterleavedCommandIsRefused :
    (standing .unlock 1 0 State.reset).run = some ⟨.unlock, 1, 0, []⟩ ∧ Instr.unlock ≠ .eraseSector 2 ∧
    decode Params.default (.cmd 0x08 [.u32 2]) = .ok (.eraseSector 2) ∧ decode Params.default (.cmd 0x01 [.u32 2]) = .ok (.init 2) ∧
    decode Params.default (.cmd 0x0D [.u32 2]) = .ok (.isStatusBitSet 2) := by decide
/-- WRITE's last word may end at the array's last byte, and an empty WRITE needs no address in it. -/
theorem test_witness_CommandsBeginWithTheirFirstTransaction :
    Ready State.reset ∧ (15 : Word).toNat < 2 ^ State.reset.params.snbWidth ∧ (0x0807FFFC : Word).toNat % 4 = 0 ∧
    ([1, 2, 3, 4] : List Byte).length = (4 : Word).toNat ∧
    (0x0807FFFC : Word).toNat + 4 * (((4 : Word).toNat + 3) / 4) - 1 ≤ 0x0807FFFF ∧
    ([] : List Byte).length = (0 : Word).toNat ∧ (2 : Word).toNat ≤ 2 ∧ (0xFF : Word).toNat < 2 ^ State.reset.params.wrpWidth :=
  ⟨ready_reset, by decide⟩
theorem test_witness_InitWritesWaitStatesAndParallelism :
    Ready initialised ∧ Invariant initialised ∧ initialised.pend = .none :=
  ⟨ready_initialised, invariant_initialised, rfl⟩
theorem test_witness_UnlockOpensTheControlRegister :
    Ready State.reset ∧ State.reset.ks = .wait1 ∧ State.reset.pend = .none ∧
    Ready (State.reset.withPend .massErase) ∧ (State.reset.withPend .massErase).pend ≠ .none ∧
    Ready opened ∧ opened.ks ≠ .wait1 ∧ 
    ¬(opened.ks = .wait2 ∧ sameKey opened.params.keyWidth opened.params.key1 opened.params.key2 = true) :=
  ⟨ready_reset, rfl, rfl, ⟨rfl, rfl, rfl⟩, by decide, ⟨rfl, rfl, rfl⟩, by decide, by decide⟩
theorem test_witness_OptionLockOpensAndCloses :
    (Ready initialised ∧ Invariant initialised ∧ initialised.pend = .none ∧ initialised.oks = .wait1) ∧
    Ready optOpened ∧ Invariant optOpened ∧ optOpened.pend = .none ∧
    optOpened.oks ≠ .wait1 ∧ 
    ¬(optOpened.oks = .wait2 ∧
      sameKey optOpened.params.keyWidth optOpened.params.optkey1 optOpened.params.optkey2 = true) :=
  ⟨⟨ready_initialised, invariant_initialised, rfl, rfl⟩, ⟨rfl, rfl, rfl⟩, invariant_optOpened, rfl, by decide, by decide⟩
theorem test_witness_UnlockThenLockLeavesTheControlRegister :
    (Ready initialised ∧ Invariant initialised ∧ initialised.pend = .none ∧ initialised.ks = .wait1) ∧
    Ready opened ∧ Invariant opened ∧ opened.pend = .none :=
  ⟨⟨ready_initialised, invariant_initialised, rfl, rfl⟩, ⟨rfl, rfl, rfl⟩, invariant_opened, rfl⟩
/-- A pending erase of a sector, and of the array. -/
def massErasing : State := (crAt 0x204).withPend .massErase
theorem test_witness_LockAcrossBusyRestartsTheErase :
    (Ready massErasing ∧ Invariant massErasing ∧ massErasing.ks = .opened ∧ massErasing.pend = .massErase ∧ massErasing.cr.pg = false ∧
      sticky massErasing.sr = false ∧ massErasing.cr.ser = false ∧ massErasing.cr.mer = true ∧
      ∀ i, i < massErasing.params.nSectors → wprot massErasing.ob i = false) ∧
    Ready erasing ∧ Invariant erasing ∧ erasing.ks = .opened ∧ erasing.pend = .sectorErase 2 ∧ erasing.cr.pg = false ∧
    erasing.cr.ser = true ∧ erasing.cr.mer = false ∧ erasing.cr.snb = 2 ∧
    ¬((2 : BitVec 5).toNat < erasing.params.nSectors ∧ wprot erasing.ob (2 : BitVec 5).toNat = true) ∧ sticky erasing.sr = false :=
  ⟨⟨⟨rfl, rfl, rfl⟩, invariant_of rfl rfl rfl trivial (by decide) (by decide) (by decide), by decide⟩, ready_erasing,
    invariant_erasing, by decide⟩
/-- One below, one past, one range that ends at the last byte, and the empty range there. -/
theorem test_witness_ReadOutOfRangeIssuesNothing :
    State.reset.run = none ∧ State.reset.params.endAddr.toNat = 0x0807FFFF ∧
    State.reset.params.arrayBase = 0x08000000 ∧ ¬(0x08000000 ≤ (0x07FFFFFF : Word).toNat) ∧ ¬((0x08080000 : Word).toNat ≤ 0x0807FFFF) ∧
    ¬((0x0807FFFF : Word).toNat + (1 : Word).toNat ≤ 0x0807FFFF) ∧ 0x08000000 ≤ (0x0807FFFF : Word).toNat ∧
    (0x0807FFFF : Word).toNat ≤ 0x0807FFFF ∧ (0 : Word).toNat = 0 := by decide
theorem test_witness_ReadReturnsTheStoredRange :
    Ready stored ∧ stored.pend = .none ∧ WellTimed stored ∧ stored.params.arrayBase ≤ (0x08008000 : Word).toNat ∧
    (0x08008000 : Word).toNat + (4 : Word).toNat ≤ stored.params.endAddr.toNat ∧
    (0x08008000 : Word).toNat + (4 : Word).toNat ≤ stored.params.arrayLast + 1 ∧ 0 < (4 : Word).toNat ∧
    (∀ j, j < (4 : Word).toNat → ¬ReadProtectedByte stored ((0x08008000 : Word).toNat + j)) ∧
    stored.acr.dcen = false ∧ ∀ j, j < (4 : Word).toNat → staleAt stored.stale ((0x08008000 : Word).toNat + j) = [] :=
  ⟨⟨rfl, rfl, rfl⟩, rfl, wellTimed_reset, by decide, by decide, by decide, by decide,
    fun j hj => (readProtectedByte_iff _ _).not.mpr ((by decide : ∀ j, j < (4 : Word).toNat →
      ¬rprotAt stored.params.sectorMap stored.ob ((0x08008000 : Word).toNat + j) = true) j hj), rfl, fun _ _ => rfl⟩
/-- A WRITE of six bytes and an empty one. -/
theorem test_witness_WriteProgramsItsData :
    Ready initialised ∧ Invariant initialised ∧ initialised.pend = .none ∧ initialised.ks = .wait1 ∧ sticky initialised.sr = false ∧
    initialised.cr.psize = 2 ∧ (0x08008000 : Word).toNat % 4 = 0 ∧
    ([1, 2, 3, 4, 5, 6] : List Byte).length = (6 : Word).toNat ∧ 2 = ((6 : Word).toNat + 3) / 4 ∧
    initialised.params.arrayBase ≤ (0x08008000 : Word).toNat ∧
    (0x08008000 : Word).toNat + 4 * 2 - 1 ≤ initialised.params.arrayLast ∧
    (∀ j, j < 4 * 2 → readByte initialised.arr ((0x08008000 : Word).toNat + j) = initialised.params.erasedByte ∧
      ¬WriteProtectedByte initialised ((0x08008000 : Word).toNat + j)) ∧
    ([] : List Byte).length = (0 : Word).toNat ∧ 0 = ((0 : Word).toNat + 3) / 4 :=
  ⟨ready_initialised, invariant_initialised, rfl, rfl, by decide, by decide, by decide, by decide, by decide, by decide, by decide,
    fun j hj => ⟨rfl, (writeProtectedByte_iff _ _).not.mpr ((by decide : ∀ j, j < 4 * 2 →
      ¬wprotAt initialised.params.sectorMap initialised.ob ((0x08008000 : Word).toNat + j) = true) j hj)⟩, by decide, by decide⟩
/-- A free sector, a number above the map, and a protected sector. -/
theorem test_witness_EraseSectorErasesItsSectorOrFlags :
    Ready initialised ∧ Invariant initialised ∧ initialised.pend = .none ∧ initialised.ks = .wait1 ∧ sticky initialised.sr = false ∧
    (2 : Word).toNat < 2 ^ initialised.params.snbWidth ∧ ¬((2 : Word).toNat < initialised.params.nSectors ∧ wprot initialised.ob (2 : Word).toNat = true) ∧
    (15 : Word).toNat < 2 ^ initialised.params.snbWidth ∧ ¬((15 : Word).toNat < initialised.params.nSectors) ∧ initialised.cr.psize.toNat < 3 ∧
    ((7 : Word).toNat < initialised.params.nSectors ∧ wprot (protect false 0x7F) (7 : Word).toNat = true) := ⟨ready_initialised, invariant_initialised, by decide⟩
theorem test_witness_EraseAllErasesTheArrayOrFlags :
    Ready initialised ∧ Invariant initialised ∧ initialised.pend = .none ∧ initialised.ks = .wait1 ∧ sticky initialised.sr = false ∧
    (∀ i, i < initialised.params.nSectors → wprot initialised.ob i = false) ∧ initialised.cr.psize.toNat < 3 ∧
    (7 < initialised.params.nSectors ∧ wprot (protect false 0x7F) 7 = true) := ⟨ready_initialised, invariant_initialised, by decide⟩
/-- The three levels, and option bytes from which a commit may keep the old fields. -/
theorem test_witness_SetProtectionCommitsItsBranch :
    Ready initialised ∧ Invariant initialised ∧ initialised.pend = .none ∧ initialised.oks = .wait1 ∧
    (0 : Word).toNat ≤ 2 ∧ (1 : Word).toNat ≤ 2 ∧ (2 : Word).toNat ≤ 2 ∧
    (0xFF : Word).toNat < 2 ^ initialised.params.wrpWidth ∧ initialised.ob.sprmod = false ∧
    (initialised.withOb (protect true 5)).ob.sprmod = true ∧ initialised.params.pcropWeaken = .either :=
  ⟨ready_initialised, invariant_initialised, by decide⟩
theorem test_witness_GetProtectionReportsWhatWasSet :
    Ready initialised ∧ Invariant initialised ∧ initialised.pend = .none ∧ initialised.oks = .wait1 ∧
    (0x0A : Word).toNat < 2 ^ initialised.params.wrpWidth := ⟨ready_initialised, invariant_initialised, by decide⟩
theorem test_witness_StatusQueriesReadOnce :
    Ready State.reset ∧ State.reset.pend = .none ∧ (31 : Word).toNat ≤ 31 ∧ Ready erasing ∧ erasing.pend ≠ .none :=
  ⟨ready_reset, rfl, by decide, ready_erasing, by decide⟩
theorem test_witness_EraseWriteReadReturnsTheData :
    Ready initialised ∧ Invariant initialised ∧ WellTimed initialised ∧ initialised.pend = .none ∧ initialised.ks = .wait1 ∧
    sticky initialised.sr = false ∧ initialised.cr.psize = 2 ∧ initialised.acr.dcen = false ∧ (2 : Word).toNat < initialised.params.nSectors ∧
    wprot initialised.ob (2 : Word).toNat = false ∧ rprot initialised.ob (2 : Word).toNat = false ∧
    (0x0800BFFC : Word).toNat % 4 = 0 ∧ (4 : Word).toNat % 4 = 0 ∧
    ([1, 2, 3, 4] : List Byte).length = (4 : Word).toNat ∧ initialised.params.arrayBase ≤ (0x0800BFFC : Word).toNat ∧
    (0x0800BFFC : Word).toNat ≤ initialised.params.arrayLast ∧
    (0x0800BFFC : Word).toNat + (4 : Word).toNat ≤ initialised.params.arrayLast + 1 ∧
    (0x0800BFFC : Word).toNat + (4 : Word).toNat ≤ initialised.params.endAddr.toNat ∧
    ∀ j, j < (4 : Word).toNat → sectorOf initialised.params.sectorMap ((0x0800BFFC : Word).toNat + j) = some (2 : Word).toNat :=
  ⟨ready_initialised, invariant_initialised, wellTimed_reset, by decide⟩

end Sys2Proof.Tests
end

/-! # The decoder's rows, and the encoder undone (rules R110 to R118) -/

namespace Sys2Proof

open Machine

/-! ## Descriptors put together from their fields -/

/-- A row's test reads the three fields of the descriptor (rule R113). -/
theorem rowAdmits_busKey (r : BusRow) (w : Bool) (sz : BitVec 2) (a : Word) :
    rowAdmits r (busKey w sz a) = (r.w.all (fun x => x = w) && r.sz.all (fun x => x = sz) && r.addr a) := by
  simp [rowAdmits]

/-- The rows of the second list are looked at when no row of the first matches. -/
theorem firstRow_append (k : BusKey) (d : Word) (other : Instr) (xs ys : List BusRow) :
    firstRow k d other (xs ++ ys) = firstRow k d (firstRow k d other ys) xs := by
  induction xs with
  | nil => rfl
  | cons r xs ih => simp only [List.cons_append, firstRow, ih]

@[simp] theorem sizeOfBits_bitsOfSize (sz : AccessSize) : sizeOfBits (bitsOfSize sz) = sz := by cases sz <;> rfl

theorem bitsOfSize_ne_three (sz : AccessSize) : bitsOfSize sz ≠ 3 := by cases sz <;> decide

theorem bitsOfSize_eq_two_iff (sz : AccessSize) : bitsOfSize sz = 2 ↔ sz = .word := by cases sz <;> decide

/-- Every size code but the reserved one is the code of a size (rule R111). -/
theorem exists_bitsOfSize {c : BitVec 2} (h : c ≠ 3) : ∃ sz, c = bitsOfSize sz := by
  have codes : ∀ c : BitVec 2, c ≠ 3 → c = 0 ∨ c = 1 ∨ c = 2 := by decide
  rcases codes c h with rfl | rfl | rfl
  · exact ⟨.byte, rfl⟩
  · exact ⟨.half, rfl⟩
  · exact ⟨.word, rfl⟩

/-- A refused row keeps the whole data word of a well-formed term. -/
theorem keptData_of_readHasNoData {w : Bool} {x : Word} (h : readHasNoData w x = true) : keptData w x = x := by
  cases w with
  | false => exact (of_decide_eq_true h).symm
  | true => rfl

/-! ## The register rows -/

/-- The six registers, in the order of rule R33. -/
def registers : List FlashReg := [.acr, .keyr, .optkeyr, .sr, .cr, .optcr]

theorem mem_registers (r : FlashReg) : r ∈ registers := by cases r <;> decide

/-- The offset of a register in its window (rule R33). -/
def regOffset : FlashReg → Word
  | .acr => 0x00
  | .keyr => 0x04
  | .optkeyr => 0x08
  | .sr => 0x0C
  | .cr => 0x10
  | .optcr => 0x14

theorem regAddr_eq (p : Params) (r : FlashReg) : regAddr p r = p.regBase + regOffset r := by
  cases r with
  | acr => exact (BitVec.add_zero p.regBase).symm
  | keyr | optkeyr | sr | cr | optcr => rfl

theorem regOffset_injective {q r : FlashReg} (h : regOffset q = regOffset r) : q = r :=
  List.inj_on_of_nodup_map (f := regOffset) (l := registers) (by decide) (mem_registers q) (mem_registers r) h

/-- No two registers share an address, whatever the base. -/
theorem regAddr_inj {p : Params} {q r : FlashReg} : regAddr p q = regAddr p r ↔ q = r := by
  constructor
  · intro h
    rw [regAddr_eq, regAddr_eq] at h
    exact regOffset_injective (BitVec.add_right_inj p.regBase |>.mp h)
  · rintro rfl
    rfl

/-- The offsets are whole words up to 0x14. -/
theorem regOffset_toNat (r : FlashReg) : (regOffset r).toNat % 4 = 0 ∧ (regOffset r).toNat ≤ 0x14 := by
  cases r <;> decide

/-- In an admitted window a register's address is the base and its offset, as naturals. -/
theorem regAddr_toNat {p : Params} (hp : paramsOk p) (r : FlashReg) :
    (regAddr p r).toNat = p.regBase.toNat + (regOffset r).toNat := by
  have hwin := hp.window_last
  have hoff := (regOffset_toNat r).2
  rw [regAddr_eq, BitVec.toNat_add, Nat.mod_eq_of_lt (by omega)]

theorem isRegister_iff (p : Params) (a : Word) : isRegister p a = true ↔ ∃ r, a = regAddr p r := by
  simp only [isRegister, Bool.or_eq_true, decide_eq_true_eq]
  constructor
  · rintro (((((h | h) | h) | h) | h) | h)
    · exact ⟨.acr, h⟩
    · exact ⟨.keyr, h⟩
    · exact ⟨.optkeyr, h⟩
    · exact ⟨.sr, h⟩
    · exact ⟨.cr, h⟩
    · exact ⟨.optcr, h⟩
  · rintro ⟨r, h⟩
    cases r <;> simp [h, regAddr]

/-- The registers lie in the register window (rules R33, R80). -/
theorem inRegisterWindow_of_isRegister {p : Params} (hp : paramsOk p) {a : Word} (h : isRegister p a = true) :
    inRegisterWindow p a = true := by
  obtain ⟨r, rfl⟩ := (isRegister_iff p a).mp h
  have hoff := (regOffset_toNat r).2
  rw [inRegisterWindow_iff, regAddr_toNat hp]
  omega

/-- No array address lies in the register window (rule R80). -/
theorem not_inRegisterWindow_of_inArray {p : Params} (hp : paramsOk p) {a : Word} (h : inArray p a = true) :
    inRegisterWindow p a = false := by
  have harr := (inArray_iff p a).mp h
  have hdisj := hp.disjoint
  rw [Bool.eq_false_iff, Ne, inRegisterWindow_iff]
  omega

theorem not_isRegister_of_not_window {p : Params} (hp : paramsOk p) {a : Word} (h : inRegisterWindow p a = false) :
    isRegister p a = false :=
  Bool.eq_false_iff.mpr fun hr => by simp [inRegisterWindow_of_isRegister hp hr] at h

/-- The read of a register as an instruction (rule R113). -/
def registerRead : FlashReg → Instr
  | .acr => .acrRd
  | .keyr => .keyrRd
  | .optkeyr => .optkeyrRd
  | .sr => .srRd
  | .cr => .crRd
  | .optcr => .optcrRd

/-- The write of a register as an instruction (rule R113). -/
def registerWrite : FlashReg → Word → Instr
  | .acr => .acrWr
  | .keyr => .keyrWr
  | .optkeyr => .optkeyrWr
  | .sr => .srWr
  | .cr => .crWr
  | .optcr => .optcrWr

/-- The two rows of a register. -/
def rowsOf (p : Params) (r : FlashReg) : List BusRow :=
  [readRow (regAddr p r) (registerRead r), writeRow (regAddr p r) (registerWrite r)]

/-- Rows 1 to 13 are the reserved size and two rows for each register. -/
theorem registerRows_eq (p : Params) :
    registerRows p =
      ⟨none, some 3, fun _ => true, fun k d => .szRsvd (keyW k) (keyAddr k) (keptData (keyW k) d)⟩ ::
        registers.flatMap (rowsOf p) := rfl

/-- A word transaction at a register's address finds that register's row. -/
theorem firstRow_registers (p : Params) (w : Bool) (r : FlashReg) (d : Word) (other : Instr) {rs : List FlashReg}
    (hr : r ∈ rs) :
    firstRow (busKey w 2 (regAddr p r)) d other (rs.flatMap (rowsOf p)) =
      if w then registerWrite r d else registerRead r := by
  induction rs with
  | nil => cases hr
  | cons q rs ih =>
    rw [List.flatMap_cons, firstRow_append]
    by_cases hq : r = q
    · subst hq
      cases w <;> simp [rowsOf, firstRow, rowAdmits_busKey, readRow, writeRow]
    · have hne : regAddr p r ≠ regAddr p q := mt regAddr_inj.mp hq
      simpa [rowsOf, firstRow, rowAdmits_busKey, readRow, writeRow, hne] using
        ih (List.mem_of_ne_of_mem hq hr)

/-- A transaction of another size or address passes the registers' rows. -/
theorem firstRow_registers_of_other {p : Params} {w : Bool} {sz : BitVec 2} {a : Word} (d : Word) (other : Instr)
    (h : sz = 2 → isRegister p a = false) (rs : List FlashReg) :
    firstRow (busKey w sz a) d other (rs.flatMap (rowsOf p)) = other := by
  induction rs with
  | nil => rfl
  | cons q rs ih =>
    rw [List.flatMap_cons, firstRow_append, ih]
    by_cases hsz : 2#2 = sz
    · have hne : a ≠ regAddr p q := fun ha =>
        absurd ((isRegister_iff p a).mpr ⟨q, ha⟩) (by simp [h hsz.symm])
      simp [rowsOf, firstRow, rowAdmits_busKey, readRow, writeRow, hne]
    · simp [rowsOf, firstRow, rowAdmits_busKey, readRow, writeRow, hsz]

/-! ## What each kind of bus descriptor decodes to (rule R113) -/

/-- Row 1: the reserved size. -/
theorem decodeBus_reservedSize (p : Params) (w : Bool) (a d : Word) :
    decodeBus p (busKey w 3 a) d = .szRsvd w a (keptData w d) := by
  simp [decodeBus, registerRows_eq, firstRow, rowAdmits_busKey]

/-- Rows 2 to 13: a word transaction at a register's address. -/
theorem decodeBus_register (p : Params) (w : Bool) (r : FlashReg) (d : Word) :
    decodeBus p (busKey w 2 (regAddr p r)) d = if w then registerWrite r d else registerRead r := by
  rw [decodeBus, firstRow_append, registerRows_eq, firstRow, if_neg (by simp [rowAdmits_busKey]),
    firstRow_registers p w r d _ (mem_registers r)]

/-- Every other transaction is looked up in rows 14 to 22. -/
theorem decodeBus_past_registers {p : Params} {w : Bool} {sz : AccessSize} {a : Word} (d : Word)
    (h : sz = .word → isRegister p a = false) :
    decodeBus p (busKey w (bitsOfSize sz) a) d =
      firstRow (busKey w (bitsOfSize sz) a) d (.notSelected w sz a (keptData w d)) (arrayRows p) := by
  have h3 : ¬ 3#2 = bitsOfSize sz := fun h => bitsOfSize_ne_three sz h.symm
  rw [decodeBus, firstRow_append, registerRows_eq, firstRow, if_neg (by simp [rowAdmits_busKey, h3]),
    firstRow_registers_of_other d _ (fun h2 => h ((bitsOfSize_eq_two_iff sz).mp h2))]
  simp [notSelectedRow]

/-- Row 14: the rest of the register window. -/
theorem decodeBus_regOther {p : Params} {w : Bool} {sz : AccessSize} {a : Word} (d : Word)
    (hwin : inRegisterWindow p a = true) (h : sz = .word → isRegister p a = false) :
    decodeBus p (busKey w (bitsOfSize sz) a) d = .regOther w sz a (keptData w d) := by
  simp [decodeBus_past_registers d h, arrayRows, firstRow, rowAdmits_busKey, hwin]

/-- The array read of a size as an instruction. -/
def arrayRead : AccessSize → Word → Instr
  | .byte, a => .arrRd8 a
  | .half, a => .arrRd16 a
  | .word, a => .arrRd32 a

/-- The array write of a size as an instruction, with the bits of WDATA that it keeps (rule R112). -/
def arrayWrite : AccessSize → Word → Word → Instr
  | .byte, a, d => .arrWr8 a (d.setWidth 8)
  | .half, a, d => .arrWr16 a (d.setWidth 16)
  | .word, a, d => .arrWr32 a d

section Array

variable {p : Params} {sz : AccessSize} {a : Word} (hp : paramsOk p)
include hp

/-- Rows 15 to 20: an aligned transaction in the array. -/
theorem decodeBus_array (w : Bool) (d : Word) (ha : arrayAddressOk p sz a = true) :
    decodeBus p (busKey w (bitsOfSize sz) a) d = if w then arrayWrite sz a d else arrayRead sz a := by
  have hin : inArray p a = true := (Bool.and_eq_true_iff.mp ha).1
  have hwin := not_inRegisterWindow_of_inArray hp hin
  rw [decodeBus_past_registers d fun _ => not_isRegister_of_not_window hp hwin]
  cases sz <;> cases w <;>
    simp [arrayRows, firstRow, rowAdmits_busKey, hwin, ha, bitsOfSize, arrayRead, arrayWrite]

/-- Row 21: a misaligned transaction in the array. -/
theorem decodeBus_misaligned (w : Bool) (d : Word) (hin : inArray p a = true) (hal : aligned sz a = false) :
    decodeBus p (busKey w (bitsOfSize sz) a) d = .arrMisaligned w sz a (keptData w d) := by
  have hwin := not_inRegisterWindow_of_inArray hp hin
  have haddr : arrayAddressOk p sz a = false := by simp [arrayAddressOk, hal]
  rw [decodeBus_past_registers d fun _ => not_isRegister_of_not_window hp hwin]
  cases sz <;> simp [arrayRows, firstRow, rowAdmits_busKey, hwin, haddr, hin, bitsOfSize, sizeOfBits]

/-- Row 22: an address outside both spaces. -/
theorem decodeBus_notSelected (w : Bool) (d : Word) (hin : inArray p a = false)
    (hwin : inRegisterWindow p a = false) :
    decodeBus p (busKey w (bitsOfSize sz) a) d = .notSelected w sz a (keptData w d) := by
  rw [decodeBus_past_registers d fun _ => not_isRegister_of_not_window hp hwin]
  simp [arrayRows, firstRow, rowAdmits_busKey, hwin, hin, arrayAddressOk]

end Array

/-! ## The encoder undone -/

/-- The encoding of a register transaction decodes to it. -/
theorem decode_encode_register (p : Params) (r : FlashReg) (v : Word) :
    decode p (encodeRead .word (regAddr p r)) = .ok (registerRead r) ∧
      decode p (encodeWrite .word (regAddr p r) v) = .ok (registerWrite r v) :=
  ⟨congrArg Except.ok (decodeBus_register p false r 0), congrArg Except.ok (decodeBus_register p true r v)⟩

/-- The encoding of an array read decodes to it. -/
theorem decode_encodeRead_array {p : Params} (hp : paramsOk p) {sz : AccessSize} {a : Word}
    (ha : arrayAddressOk p sz a = true) : decode p (encodeRead sz a) = .ok (arrayRead sz a) :=
  congrArg Except.ok (decodeBus_array hp false 0 ha)

/-- The encoding of an array write decodes to it, with the bits of the word that it keeps. -/
theorem decode_encodeWrite_array {p : Params} (hp : paramsOk p) {sz : AccessSize} {a : Word} (d : Word)
    (ha : arrayAddressOk p sz a = true) : decode p (encodeWrite sz a d) = .ok (arrayWrite sz a d) :=
  congrArg Except.ok (decodeBus_array hp true d ha)

theorem decodeCmd_reserved0E (low : BitVec 1) :
    decodeCmd (0x0E ||| low.setWidth 8) [] = .ok (.cmdReserved0E low) := by decide +revert

theorem decodeCmd_reserved10 (low : BitVec 4) :
    decodeCmd (0x10 ||| low.setWidth 8) [] = .ok (.cmdReserved10 low) := by decide +revert

theorem decodeCmd_reserved20 (low : BitVec 5) :
    decodeCmd (0x20 ||| low.setWidth 8) [] = .ok (.cmdReserved20 low) := by decide +revert

theorem decodeCmd_reserved40 (low : BitVec 6) :
    decodeCmd (0x40 ||| low.setWidth 8) [] = .ok (.cmdReserved40 low) := by decide +revert

theorem decodeCmd_reserved80 (low : BitVec 7) :
    decodeCmd (0x80 ||| low.setWidth 8) [] = .ok (.cmdReserved80 low) := by decide +revert

/-- A row that the decoder finds for the encoding of a refused bus descriptor keeps the whole term. -/
theorem decode_bus_of_kept {p : Params} {k : BusKey} {w : Bool} {x : Word} {f : Word → Instr}
    (hx : readHasNoData w x = true) (h : decodeBus p k x = f (keptData w x)) : decode p (.bus k x) = .ok (f x) := by
  rw [keptData_of_readHasNoData hx] at h
  exact congrArg Except.ok h

/-- Settles O1: row by row, each kind of descriptor finds its own row. -/
theorem decodeOfEncodeIsTheInstruction : Obligations.DecodeOfEncodeIsTheInstruction := by
  unfold Obligations.DecodeOfEncodeIsTheInstruction
  intro p i hp hi
  cases i
  case szRsvd w a x => exact decode_bus_of_kept hi (decodeBus_reservedSize p w a x)
  case acrRd => exact (decode_encode_register p .acr 0).1
  case keyrRd => exact (decode_encode_register p .keyr 0).1
  case optkeyrRd => exact (decode_encode_register p .optkeyr 0).1
  case srRd => exact (decode_encode_register p .sr 0).1
  case crRd => exact (decode_encode_register p .cr 0).1
  case optcrRd => exact (decode_encode_register p .optcr 0).1
  case acrWr v => exact (decode_encode_register p .acr v).2
  case keyrWr v => exact (decode_encode_register p .keyr v).2
  case optkeyrWr v => exact (decode_encode_register p .optkeyr v).2
  case srWr v => exact (decode_encode_register p .sr v).2
  case crWr v => exact (decode_encode_register p .cr v).2
  case optcrWr v => exact (decode_encode_register p .optcr v).2
  case regOther w sz a x =>
    simp only [WellFormed, Bool.and_eq_true, Bool.not_eq_true', Bool.and_eq_false_iff, decide_eq_false_iff_not] at hi
    obtain ⟨⟨hwin, hreg⟩, hx⟩ := hi
    exact decode_bus_of_kept hx (decodeBus_regOther x hwin fun hsz => hreg.resolve_left (not_not_intro hsz))
  case arrRd8 a => exact decode_encodeRead_array hp hi
  case arrRd16 a => exact decode_encodeRead_array hp hi
  case arrRd32 a => exact decode_encodeRead_array hp hi
  case arrWr8 a v => simpa [arrayWrite, encode] using decode_encodeWrite_array hp (v.setWidth 32) hi
  case arrWr16 a v => simpa [arrayWrite, encode] using decode_encodeWrite_array hp (v.setWidth 32) hi
  case arrWr32 a v => exact decode_encodeWrite_array hp v hi
  case arrMisaligned w sz a x =>
    simp only [WellFormed, Bool.and_eq_true, Bool.not_eq_true'] at hi
    obtain ⟨⟨hin, hal⟩, hx⟩ := hi
    exact decode_bus_of_kept hx (decodeBus_misaligned hp w x hin hal)
  case notSelected w sz a x =>
    simp only [WellFormed, Bool.and_eq_true, Bool.not_eq_true'] at hi
    obtain ⟨⟨hin, hwin⟩, hx⟩ := hi
    exact decode_bus_of_kept hx (decodeBus_notSelected hp w x hin hwin)
  case write a n d => exact if_pos (of_decide_eq_true hi)
  case cmdReserved0E low => exact decodeCmd_reserved0E low
  case cmdReserved10 low => exact decodeCmd_reserved10 low
  case cmdReserved20 low => exact decodeCmd_reserved20 low
  case cmdReserved40 low => exact decodeCmd_reserved40 low
  case cmdReserved80 low => exact decodeCmd_reserved80 low
  all_goals rfl

end Sys2Proof

/-! # The invariant: what each operation on the state keeps of it (rules R5, R41, R45, R52, R53) -/

namespace Sys2Proof.Machine

/-! ## Updates of the state -/

/-- The fields that the invariant does not speak of may change in any way. -/
theorem Invariant.of_frame {s t : State} (h : Invariant s)
    (ht : t = { s with
      sr := t.sr
      ks := t.ks
      oks := t.oks
      fault := t.fault
      refused := t.refused
      run := t.run
      held := t.held
      rdata := t.rdata
      result := t.result
      program := t.program
      sched := t.sched
      draws := t.draws }) : Invariant t := by
  rw [ht]
  exact { h with }

theorem Invariant.ite {c : Prop} [Decidable c] {s t : State} (hs : Invariant s) (ht : Invariant t) :
    Invariant (if c then s else t) := by
  split
  · exact hs
  · exact ht

/-- A transaction that holds while busy keeps the invariant when what it does on an idle block keeps it. -/
theorem invariant_of_unlessBusy {f : State → State} {s t : State} (ht : unlessBusy f s = some t)
    (hf : Invariant (f s)) : Invariant t := by
  cases hb : busy s with
  | true => simp [unlessBusy_busy hb] at ht
  | false =>
    rw [unlessBusy_idle hb] at ht
    cases ht
    exact hf

section Updates

variable {s : State} (h : Invariant s)
include h

theorem Invariant.withAcr {x : AcrFields} (hx : x.latency.toNat < 2 ^ s.params.latencyWidth) :
    Invariant (s.withAcr x) := { h with latency_fits := hx }

theorem Invariant.withCr {x : CrFields} (hsnb : x.snb.toNat < 2 ^ s.params.snbWidth)
    (hpsize : x.psize.toNat < 2 ^ s.params.psizeWidth) : Invariant (s.withCr x) :=
  { h with snb_fits := hsnb, psize_fits := hpsize }

theorem Invariant.withOptcr {x : OptFields} (hx : x.nwrp.toNat < 2 ^ s.params.wrpWidth) :
    Invariant (s.withOptcr x) := { h with nwrp_fits := hx }

theorem Invariant.withOb {x : OptFields} (hx : x.nwrp.toNat < 2 ^ s.params.wrpWidth) : Invariant (s.withOb x) :=
  { h with ob_fits := hx }

theorem Invariant.withKs (x : KeyState) : Invariant (s.withKs x) := h.of_frame rfl

theorem Invariant.withOks (x : KeyState) : Invariant (s.withOks x) := h.of_frame rfl

theorem Invariant.withPend {x : Pending} (hx : pendingOk s.params x) : Invariant (s.withPend x) :=
  { h with pend_ok := hx }

theorem Invariant.withArr {m : Memory} (hm : m.wf s.params) : Invariant (s.withArr m) := { h with arr_wf := hm }

theorem Invariant.withStale {x : List StaleRange} (hx : ∀ r ∈ x, staleRangeOk s.params r) :
    Invariant (s.withStale x) := { h with stale_ok := hx }

/-! ## Requests -/

theorem Invariant.reject (e : Errors) : Invariant (reject e s) := h.of_frame rfl

theorem Invariant.refuse : Invariant (refuse s) := h.of_frame rfl

theorem Invariant.afterDrop : Invariant (afterDrop s) := h.of_frame (by rw [afterDrop_frame])

/-- A program that starts has the target that its row admits (rule R184). -/
theorem Invariant.programRequest {sz : AccessSize} {a : Word} (v : Word) (ha : arrayAddressOk s.params sz a = true) :
    Invariant (programRequest sz a v s) := by
  rcases programRequest_cases sz a v s with ⟨-, e⟩ | ⟨-, e⟩ | ⟨-, e⟩ <;> rw [e]
  · exact h.afterDrop
  · exact h.afterDrop.reject _
  · refine h.afterDrop.withPend ?_
    rw [afterDrop_frame]
    exact ha

/-- An erase that starts has the sector number that SNB holds (rule R151). -/
theorem Invariant.startErase : Invariant (startErase s) := by
  rcases startErase_cases s with ⟨errs, e⟩ | ⟨-, e⟩ | ⟨-, e⟩ <;> rw [e]
  · exact h.reject errs
  · exact h.withPend h.snb_fits
  · exact h.withPend trivial

theorem Invariant.eraseRequest : Invariant (eraseRequest s) := by
  rcases eraseRequest_cases s with ⟨-, e⟩ | e <;> rw [e]
  · exact h.afterDrop
  · exact h.afterDrop.startErase

/-- A commit that starts carries OPTCR's fields (rule R154). -/
theorem Invariant.optionCommitRequest : Invariant (optionCommitRequest s) := h.withPend h.nwrp_fits

/-! ## Transactions -/

theorem Invariant.storeCr (v : Word) : Invariant (s.withCr (crOfWord s.params v)) :=
  h.withCr (field_lt v 3 s.params.snbWidth) (field_lt v 8 s.params.psizeWidth)

theorem Invariant.crWriteLocked (v : Word) : Invariant (crWriteLocked v s) := by
  unfold Machine.crWriteLocked
  split
  · exact h.storeCr v
  · exact h

/-- The fields are stored, then the erase is requested, then CR is locked, each only if its bit is written 1. -/
theorem Invariant.crWriteOpen (v : Word) : Invariant (crWriteOpen v s) := by
  have started : Invariant (if v.getLsbD 16 then Machine.eraseRequest (s.withCr (crOfWord s.params v))
      else s.withCr (crOfWord s.params v)) := (h.storeCr v).eraseRequest.ite (h.storeCr v)
  exact (started.withKs .wait1).ite started

/-- The fields are stored, then their commit is requested, then OPTCR is locked, each only if its bit is written 1. -/
theorem Invariant.optcrWriteOpen (v : Word) : Invariant (optcrWriteOpen v s) := by
  have stored : Invariant (s.withOptcr (optOfWord s.params v)) := h.withOptcr (field_lt v 16 s.params.wrpWidth)
  have started : Invariant (if v.getLsbD 1 then Machine.optionCommitRequest (s.withOptcr (optOfWord s.params v))
      else s.withOptcr (optOfWord s.params v)) := stored.optionCommitRequest.ite stored
  exact (started.withOks .wait1).ite started

theorem Invariant.acrWrite {v : Word} {t : State} (ht : acrWrite v s = some t) : Invariant t := by
  have stored : Invariant (s.withAcr (acrOfWord s.params v)) := h.withAcr (field_lt v 0 s.params.latencyWidth)
  cases ht
  exact (stored.withStale (x := []) fun _ hr => nomatch hr).ite stored

theorem Invariant.crWrite {v : Word} {t : State} (ht : crWrite v s = some t) : Invariant t :=
  invariant_of_unlessBusy ht ((h.crWriteLocked v).ite (h.crWriteOpen v))

theorem Invariant.optcrWrite {v : Word} {t : State} (ht : optcrWrite v s = some t) : Invariant t :=
  invariant_of_unlessBusy ht (h.ite (h.optcrWriteOpen v))

theorem Invariant.readReg {r : FlashReg} {t : State} (ht : readReg r s = some t) : Invariant t :=
  h.of_frame (by rw [readReg_frame ht])

theorem Invariant.writeReg {r : FlashReg} {v : Word} {t : State} (ht : writeReg r v s = some t) : Invariant t := by
  cases r with
  | acr => exact h.acrWrite ht
  | keyr =>
    cases ht
    exact h.of_frame (by rw [presentKey_frame])
  | optkeyr =>
    cases ht
    exact h.of_frame (by rw [presentOptKey_frame])
  | sr =>
    cases ht
    exact h.of_frame rfl
  | cr => exact h.crWrite ht
  | optcr => exact h.optcrWrite ht

theorem Invariant.arrRead {sz : AccessSize} {a : Word} {t : State} (ht : arrRead sz a s = some t) : Invariant t :=
  h.of_frame (by rw [arrRead_frame ht])

theorem Invariant.arrWrite {sz : AccessSize} {a v : Word} {t : State} (ht : arrWrite sz a v s = some t) :
    Invariant t := by
  rcases arrWrite_cases ht with ⟨ha, -, rfl⟩ | ⟨-, rfl⟩
  · exact h.programRequest v ha
  · exact h.refuse

/-! ## Instructions -/

theorem Invariant.microTxn {u : Micro} {p : Position} {t : State} (ht : microTxn u p s = some t) : Invariant t := by
  cases u with
  | rd r => exact h.readReg ht
  | wr r v => exact h.writeReg ht
  | wrMod r c x => exact h.writeReg ht
  | poll r m => exact h.readReg ht
  | rdByte a => exact h.arrRead ht
  | wrData a data => exact h.arrWrite ht

theorem Invariant.afterTxn (e : Expansion) (u : Micro) (p : Position) : Invariant (afterTxn e u p s) :=
  h.of_frame (by rw [afterTxn_frame])

theorem Invariant.continueAt (e : Expansion) (p : Position) : Invariant (continueAt e p s) := by
  rcases continueAt_cases e p s with ⟨-, he⟩ | ⟨u, -, -, he⟩ | ⟨u, s', -, hm, he⟩ <;> rw [he]
  · exact h.of_frame rfl
  · exact h.of_frame rfl
  · exact ((h.microTxn hm).afterTxn e u p).of_frame rfl

theorem Invariant.runCommand (i : Instr) (ok : Bool) (e : Expansion) : Invariant (runCommand i ok e s) := by
  rcases runCommand_cases i ok e s with ⟨-, -, he⟩ | ⟨p, -, -, he⟩ | ⟨-, he⟩ <;> rw [he]
  · exact h.continueAt e _
  · exact h.continueAt e p
  · exact h.of_frame rfl

/-- An issued transaction keeps the invariant when its completion does; a hold changes only `held`. -/
theorem Invariant.issue {x : Txn} {t : State} (hx : ∀ s', x s = some s' → Invariant s')
    (ht : issue x s = .next t) : Invariant t := by
  rcases issue_cases x s with ⟨s', hs, he⟩ | ⟨-, he⟩ <;> rw [he] at ht <;> cases ht
  · exact (hx s' hs).of_frame rfl
  · exact h.of_frame rfl

/-- Every instruction keeps the invariant. -/
theorem Invariant.exec {i : Instr} {t : State} (ht : exec i s = .next t) : Invariant t := by
  rcases exec_cases i s with ⟨r, e⟩ | ⟨r, v, e⟩ | ⟨sz, a, e⟩ | ⟨sz, a, v, e⟩ | e | ⟨ok, ex, e⟩ <;> rw [e] at ht
  · exact h.issue (fun _ => h.readReg) ht
  · exact h.issue (fun _ => h.writeReg) ht
  · exact h.issue (fun _ => h.arrRead) ht
  · exact h.issue (fun _ => h.arrWrite) ht
  · cases ht
    exact h.of_frame rfl
  · cases ht
    exact h.runCommand i ok ex

theorem Invariant.retire : Invariant (retire s) :=
  h.ite (h.of_frame rfl)

theorem Invariant.hostTurn {t : State} (ht : hostTurn s = .next t) : Invariant t := by
  obtain ⟨-, -, ⟨-, rfl⟩ | ⟨d, rest, i, u, -, -, hu, rfl⟩⟩ := hostTurn_next ht
  · exact h
  · exact (h.exec hu).retire

end Updates

/-! ## The engine -/

/-- The bytes `lo .. lo+n-1` lie in the array; an empty range does everywhere. -/
def RangeInArray (p : Params) (lo n : Nat) : Prop :=
  ∀ b, lo ≤ b → b < lo + n → p.arrayBase ≤ b ∧ b ≤ p.arrayLast

theorem rangeInArray_program {p : Params} (hp : paramsOk p) {sz : AccessSize} {a : Word}
    (ha : arrayAddressOk p sz a = true) : RangeInArray p a.toNat (nbytes sz) := fun b h1 h2 => by
  have hr := arrayAddressOk_range hp.array_end_word ha
  omega

theorem rangeInArray_sector {p : Params} (hp : paramsOk p) (i : Nat) :
    RangeInArray p (sectorRange p.sectorMap i).1 (sectorRange p.sectorMap i).2 :=
  fun _ h1 h2 => sectorRange_in_array hp.sectors h1 h2

theorem rangeInArray_all (p : Params) : RangeInArray p p.arrayBase (arraySize p) := fun b h1 h2 => by
  simp only [arraySize] at h2
  omega

/-- A completion over a range of the array remembers a range that the invariant admits (rule R206). -/
theorem staleUpdate_ok {p : Params} {st : List StaleRange} {m : Memory} {lo n : Nat}
    (hst : ∀ r ∈ st, staleRangeOk p r) (hm : m.wf p) (hr : RangeInArray p lo n) :
    ∀ r ∈ staleUpdate st m lo n, staleRangeOk p r := by
  unfold staleUpdate
  split
  · exact hst
  · next hn =>
    intro r hmem
    rcases List.mem_cons.mp hmem with rfl | hold
    · have hfirst := hr lo (Nat.le_refl lo) (by omega)
      have hlast := hr (lo + n - 1) (by omega) (by omega)
      exact ⟨wf_restrict hm lo n, hfirst.1, show lo + n ≤ p.arrayLast + 1 by omega⟩
    · exact hst r hold

section Engine

variable {s : State} (h : Invariant s)
include h

theorem Invariant.rememberStale {lo n : Nat} (hr : RangeInArray s.params lo n) : Invariant (rememberStale lo n s) :=
  h.withStale (staleUpdate_ok h.stale_ok h.arr_wf hr)

theorem Invariant.setRange {lo n : Nat} (f : Nat → Byte) (hr : RangeInArray s.params lo n) :
    Invariant (s.withArr (setRange s.arr lo n f)) := h.withArr (wf_setRange h.arr_wf f hr)

theorem Invariant.drawRange {lo n : Nat} (hr : RangeInArray s.params lo n) : Invariant (drawRange lo n s) :=
  (h.setRange _ hr).of_frame rfl

theorem Invariant.programUnit {a n : Nat} (v : Word) (hr : RangeInArray s.params a n) :
    Invariant (programUnit a n v s) :=
  (h.setRange _ hr).ite (h.drawRange hr)

theorem Invariant.eraseTarget {lo n : Nat} (hr : RangeInArray s.params lo n) : Invariant (eraseTarget lo n s) :=
  (h.drawRange hr).ite (h.withArr (wf_fillRange h.arr_wf _ hr))

theorem Invariant.finishFlashOp : Invariant (finishFlashOp s) :=
  (h.withPend (x := .none) trivial).of_frame rfl

theorem Invariant.completeProgram {a : Word} {sz : AccessSize} (v : Word)
    (hr : RangeInArray s.params a.toNat (nbytes sz)) : Invariant (completeProgram a sz v s) :=
  ((h.rememberStale hr).programUnit v hr).finishFlashOp

theorem Invariant.eraseAndFinish {lo n : Nat} (hr : RangeInArray s.params lo n) : Invariant (eraseAndFinish lo n s) :=
  ((h.rememberStale hr).eraseTarget hr).finishFlashOp

/-- A commit leaves the fields committed, or the old ones. -/
theorem Invariant.completeOptionCommit {f : OptFields} (hf : f.nwrp.toNat < 2 ^ s.params.wrpWidth) :
    Invariant (completeOptionCommit f s) := by
  unfold Machine.completeOptionCommit
  split
  · have hob : (if Config.drawBool s.draws then f else s.ob).nwrp.toNat < 2 ^ s.params.wrpWidth := by
      split
      · exact hf
      · exact h.ob_fits
    have drawn : Invariant ((s.withOb (if Config.drawBool s.draws then f else s.ob)).withDraws (s.draws + 1)) :=
      (h.withOb hob).of_frame rfl
    exact drawn.withPend trivial
  · exact (h.withOb hf).withPend trivial

/-- The engine's step keeps the invariant: what was pending was in range. -/
theorem Invariant.engineStep : Invariant (engineStep s) := by
  have hpend := h.pend_ok
  rcases engineStep_cases s with ⟨-, e⟩ | ⟨a, sz, v, hp, e⟩ | ⟨n, -, e⟩ | ⟨-, e⟩ | ⟨f, hp, e⟩ <;> rw [e]
  · exact h
  · rw [hp] at hpend
    exact h.completeProgram v (rangeInArray_program h.params_ok hpend)
  · exact h.eraseAndFinish (rangeInArray_sector h.params_ok n.toNat)
  · exact h.eraseAndFinish (rangeInArray_all s.params)
  · rw [hp] at hpend
    exact h.completeOptionCommit hpend

/-! ## Reset -/

/-- An interrupted target is drawn inside the array, and drawn option bytes fit their width (rule R322). -/
theorem Invariant.interruptTarget : Invariant (interruptTarget s) := by
  have hpend := h.pend_ok
  unfold Machine.interruptTarget
  cases hp : s.pend with
  | none => exact h
  | program a sz v =>
    rw [hp] at hpend
    exact h.drawRange (rangeInArray_program h.params_ok hpend)
  | sectorErase n => exact h.drawRange (rangeInArray_sector h.params_ok n.toNat)
  | massErase => exact h.drawRange (rangeInArray_all s.params)
  | optCommit f =>
    have drawn : Invariant (s.withOb (drawnOptFields s.params s.draws)) :=
      h.withOb (field_lt (Config.drawWord s.draws) 0 s.params.wrpWidth)
    exact drawn.of_frame rfl

theorem Invariant.resetVolatile : Invariant (resetVolatile s) :=
  { h with
    stale_ok := fun _ hr => nomatch hr
    pend_ok := trivial
    latency_fits := Nat.two_pow_pos _
    snb_fits := Nat.two_pow_pos _
    psize_fits := Nat.two_pow_pos _
    nwrp_fits := h.ob_fits }

theorem Invariant.abandonCommand : Invariant (abandonCommand s) :=
  Invariant.ite (h.of_frame rfl) (h.of_frame rfl)

theorem Invariant.resetEvent : Invariant (resetEvent s) := h.interruptTarget.resetVolatile.abandonCommand

end Engine

/-! ## Steps and launch -/

/-- Every step keeps the invariant: it is a turn of one of the three agents. -/
theorem Invariant.step {s t : State} (h : Invariant s) (ht : step s = .next t) : Invariant t := by
  obtain ⟨s', hs', hturn⟩ := step_next ht
  have h' : Invariant s' := by
    rcases hs' with rfl | ⟨q, rest, -, rfl⟩
    · exact h
    · exact h.of_frame rfl
  rcases hturn with hhost | rfl | rfl
  · exact h'.hostTurn hhost
  · exact h'.engineStep
  · exact h'.resetEvent

/-- The launch state has the invariant when its parameters, option bytes and array are admitted. -/
theorem invariant_launch {p : Params} {ob : OptFields} {m : Memory} (hp : paramsOk p) (hm : m.wf p)
    (hob : ob.nwrp.toNat < 2 ^ p.wrpWidth) : Invariant (State.launch p ob m) where
  params_ok := hp
  arr_wf := hm
  stale_ok := fun _ hr => nomatch hr
  pend_ok := trivial
  latency_fits := Nat.two_pow_pos _
  snb_fits := Nat.two_pow_pos _
  psize_fits := Nat.two_pow_pos _
  nwrp_fits := hob
  ob_fits := hob

/-- The defaults of rule R5 are admitted. -/
theorem admitted_default : paramsOk Params.default := by constructor <;> decide

end Sys2Proof.Machine

namespace Sys2Proof

open Machine

/-- Settles O11: the host's, the engine's and the reset's turn each keep the invariant. -/
theorem stepKeepsTheInvariant : Obligations.StepKeepsTheInvariant := by
  unfold Obligations.StepKeepsTheInvariant
  exact fun _ _ h ht => h.step ht

/-- Settles O10: the reset state is the launch state with the defaults, which are admitted. -/
theorem invariantHoldsAtLaunch : Obligations.InvariantHoldsAtLaunch := by
  unfold Obligations.InvariantHoldsAtLaunch
  exact ⟨invariant_launch admitted_default (wf_nil _) (by decide), fun _ _ _ => invariant_launch⟩

end Sys2Proof

/-! # Refused descriptors and commands (rules R115, R118) -/

namespace Sys2Proof

open Machine

/-! ## Refused bus descriptors -/

theorem keySz_toNat (k : BusKey) : (keySz k).toNat = (k.toNat / 2 ^ 32) % 4 := by
  rw [keySz, BitVec.extractLsb'_toNat, Nat.shiftRight_eq_div_pow]

theorem keyAddr_toNat (k : BusKey) : (keyAddr k).toNat = k.toNat % 2 ^ 32 := by
  rw [keyAddr, BitVec.extractLsb'_toNat, Nat.shiftRight_zero]

theorem two_pow_bitsOfSize (sz : AccessSize) : 2 ^ (bitsOfSize sz).toNat = nbytes sz := by cases sz <;> rfl

/-- A register's address is a word address among the first six of the window (rule R33). -/
theorem isRegister_bounds {p : Params} (hp : paramsOk p) {a : Word} (h : isRegister p a = true) :
    a.toNat % 4 = 0 ∧ a.toNat ≤ p.regBase.toNat + 0x14 := by
  obtain ⟨r, rfl⟩ := (isRegister_iff p a).mp h
  have hbase := hp.window_word
  obtain ⟨hword, hlast⟩ := regOffset_toNat r
  rw [regAddr_toNat hp]
  omega

/-- The four rows of rule R115. -/
inductive RefusedRow : Instr → Prop where
  | szRsvd (w : Bool) (a x : Word) : RefusedRow (.szRsvd w a x)
  | regOther (w : Bool) (sz : AccessSize) (a x : Word) : RefusedRow (.regOther w sz a x)
  | arrMisaligned (w : Bool) (sz : AccessSize) (a x : Word) : RefusedRow (.arrMisaligned w sz a x)
  | notSelected (w : Bool) (sz : AccessSize) (a x : Word) : RefusedRow (.notSelected w sz a x)

theorem RefusedRow.exec {i : Instr} (h : RefusedRow i) (s : State) :
    exec i s = .next { s with refused := true, held := false } := by
  cases h <;> rfl

/-- The address ranges of the refused rows (rules R113, R115, log entry 18): a transaction of a size in one of them
decodes to a refused row. -/
theorem decodeBus_refusedRow {p : Params} (hp : paramsOk p) (w : Bool) (sz : AccessSize) (a x : Word)
    (h : (inRegisterWindow p a = true ∧ (sz = .word → isRegister p a = false)) ∨
      (inArray p a = true ∧ aligned sz a = false) ∨ (inRegisterWindow p a = false ∧ inArray p a = false)) :
    RefusedRow (decodeBus p (busKey w (bitsOfSize sz) a) x) := by
  rcases h with ⟨hwin, hreg⟩ | ⟨hin, hal⟩ | ⟨hwin, hin⟩
  · rw [decodeBus_regOther x hwin hreg]
    exact .regOther _ _ _ _
  · rw [decodeBus_misaligned hp w x hin hal]
    exact .arrMisaligned _ _ _ _
  · rw [decodeBus_notSelected hp w x hin hwin]
    exact .notSelected _ _ _ _

/-- The same with the ranges written as numbers, the reserved size among them. -/
theorem decodeBus_refusedRow_of_ranges {p : Params} (hp : paramsOk p) (w : Bool) (c : BitVec 2) (a x : Word)
    (h : c.toNat = 3 ∨
      (p.regBase.toNat ≤ a.toNat ∧ a.toNat ≤ p.regBase.toNat + 0x3FF ∧
        ¬(c.toNat = 2 ∧ a.toNat % 4 = 0 ∧ a.toNat ≤ p.regBase.toNat + 0x14)) ∨
      (p.arrayBase ≤ a.toNat ∧ a.toNat ≤ p.arrayLast ∧ a.toNat % 2 ^ c.toNat ≠ 0) ∨
      (¬(p.regBase.toNat ≤ a.toNat ∧ a.toNat ≤ p.regBase.toNat + 0x3FF) ∧
        ¬(p.arrayBase ≤ a.toNat ∧ a.toNat ≤ p.arrayLast))) :
    RefusedRow (decodeBus p (busKey w c a) x) := by
  by_cases hc : c = 3
  · rw [hc, decodeBus_reservedSize]
    exact .szRsvd _ _ _
  · obtain ⟨sz, rfl⟩ := exists_bitsOfSize hc
    apply decodeBus_refusedRow hp
    rw [two_pow_bitsOfSize] at h
    rcases h with h3 | ⟨hlo, hhi, hword⟩ | ⟨hlo, hhi, hal⟩ | ⟨hwin, hin⟩
    · exact absurd (BitVec.eq_of_toNat_eq h3) hc
    · refine .inl ⟨(inRegisterWindow_iff p a).mpr ⟨hlo, hhi⟩, ?_⟩
      rintro rfl
      exact Bool.eq_false_iff.mpr fun hreg => hword ⟨rfl, isRegister_bounds hp hreg⟩
    · exact .inr (.inl ⟨(inArray_iff p a).mpr ⟨hlo, hhi⟩, Bool.eq_false_iff.mpr (mt (aligned_iff sz a).mp hal)⟩)
    · exact .inr (.inr ⟨Bool.eq_false_iff.mpr (mt (inRegisterWindow_iff p a).mp hwin),
        Bool.eq_false_iff.mpr (mt (inArray_iff p a).mp hin)⟩)

/-- Settles O5: a refused row sets the mark, and each of the ranges decodes to a refused row. -/
theorem refusedDescriptorsSetOnlyTheRefusalMark : Obligations.RefusedDescriptorsSetOnlyTheRefusalMark := by
  unfold Obligations.RefusedDescriptorsSetOnlyTheRefusalMark
  refine ⟨⟨rfl, rfl, rfl⟩, fun s w a x => (RefusedRow.szRsvd w a x).exec s, fun s w sz a x =>
    ⟨(RefusedRow.regOther w sz a x).exec s, (RefusedRow.arrMisaligned w sz a x).exec s,
      (RefusedRow.notSelected w sz a x).exec s⟩, ?_⟩
  rintro k x s hp sz a base rfl rfl rfl h
  rw [← keySz_toNat, ← keyAddr_toNat] at h
  have hrow := decodeBus_refusedRow_of_ranges hp (keyW k) (keySz k) (keyAddr k) x h
  rw [busKey_fields] at hrow
  exact ⟨_, rfl, hrow.exec s⟩

/-! ## Reserved opcodes -/

/-- The six rows CMD_RESERVED (rule R118). -/
def ReservedRow (i : Instr) : Prop :=
  i = .cmdReserved00 ∨ (∃ x, i = .cmdReserved0E x) ∨ (∃ x, i = .cmdReserved10 x) ∨ (∃ x, i = .cmdReserved20 x) ∨
    (∃ x, i = .cmdReserved40 x) ∨ ∃ x, i = .cmdReserved80 x

theorem ReservedRow.exec {i : Instr} (h : ReservedRow i) (s : State) :
    exec i s = .next { s with refused := true, held := false } := by
  rcases h with rfl | ⟨_, rfl⟩ | ⟨_, rfl⟩ | ⟨_, rfl⟩ | ⟨_, rfl⟩ | ⟨_, rfl⟩ <;> rfl

/-- The masks of the six rows cover the reserved opcodes. -/
theorem reservedOpcode_matches : ∀ op : BitVec 8, op.toNat = 0 ∨ 0x0E ≤ op.toNat →
    op = 0x00 ∨ op &&& 0xFE = 0x0E ∨ op &&& 0xF0 = 0x10 ∨ op &&& 0xE0 = 0x20 ∨ op &&& 0xC0 = 0x40 ∨
      op &&& 0x80 = 0x80 := by decide

/-- An opcode that matches a row of the six decodes to such a row. -/
theorem decodeReserved_row {op : BitVec 8}
    (h : op = 0x00 ∨ op &&& 0xFE = 0x0E ∨ op &&& 0xF0 = 0x10 ∨ op &&& 0xE0 = 0x20 ∨ op &&& 0xC0 = 0x40 ∨
      op &&& 0x80 = 0x80) : ∃ i, decodeReserved op = .ok i ∧ ReservedRow i := by
  unfold decodeReserved
  split_ifs with h00 h0E h10 h20 h40 h80
  · exact ⟨_, rfl, .inl rfl⟩
  · exact ⟨_, rfl, .inr (.inl ⟨_, rfl⟩)⟩
  · exact ⟨_, rfl, .inr (.inr (.inl ⟨_, rfl⟩))⟩
  · exact ⟨_, rfl, .inr (.inr (.inr (.inl ⟨_, rfl⟩)))⟩
  · exact ⟨_, rfl, .inr (.inr (.inr (.inr (.inl ⟨_, rfl⟩))))⟩
  · exact ⟨_, rfl, .inr (.inr (.inr (.inr (.inr ⟨_, rfl⟩))))⟩
  · tauto

/-- The thirteen command rows leave the other opcodes to the reserved rows (rules R117, R118). -/
theorem decodeCmd_of_reserved {op : BitVec 8} (h : op.toNat = 0 ∨ 0x0E ≤ op.toNat) (xs : List Operand) :
    decodeCmd op xs = decodeReserved op := by
  have other : ∀ c : BitVec 8, 1 ≤ c.toNat → c.toNat ≤ 0x0D → op ≠ c := by
    rintro c h1 h2 rfl
    omega
  simp only [decodeCmd, other 0x01 (by decide) (by decide), other 0x02 (by decide) (by decide),
    other 0x03 (by decide) (by decide), other 0x04 (by decide) (by decide), other 0x05 (by decide) (by decide),
    other 0x06 (by decide) (by decide), other 0x07 (by decide) (by decide), other 0x08 (by decide) (by decide),
    other 0x09 (by decide) (by decide), other 0x0A (by decide) (by decide), other 0x0B (by decide) (by decide),
    other 0x0C (by decide) (by decide), other 0x0D (by decide) (by decide), if_false]

/-! ## Commands whose operands fail their check -/

/-- A command whose check fails is refused before its first transaction (rule R118). -/
theorem runCommand_unchecked {i : Instr} {ok : Bool} {e : Expansion} {s : State} (hrun : s.run = none)
    (hok : ok = false) : runCommand i ok e s = { s with refused := true, held := false } := by
  rcases runCommand_cases i ok e s with ⟨-, h, -⟩ | ⟨p, h, -⟩ | ⟨-, h⟩
  · simp [hok] at h
  · simp [hrun] at h
  · exact h

theorem eraseSectorOk_eq_false {p : Params} {n : Word} (h : 2 ^ p.snbWidth - 1 < n.toNat) :
    eraseSectorOk p n = false :=
  decide_eq_false (by omega)

theorem setProtectionOk_eq_false {p : Params} {l m : Word} (h : 2 < l.toNat ∨ 2 ^ p.wrpWidth - 1 < m.toNat) :
    setProtectionOk p l m = false := by
  rw [Bool.eq_false_iff, setProtectionOk, Ne, Bool.and_eq_true, levelOfCode_isSome_iff, decide_eq_true_eq]
  omega

theorem statusBitOk_eq_false {pos : Word} (h : 31 < pos.toNat) : statusBitOk pos = false :=
  decide_eq_false (by omega)

theorem writeOk_eq_false {p : Params} {a n : Word} {d : List Byte}
    (h : a.toNat % 4 ≠ 0 ∨
      (0 < n.toNat ∧ (a.toNat < p.arrayBase ∨ p.arrayLast < a.toNat + 4 * ((n.toNat + 3) / 4) - 1))) :
    writeOk p a n d = false := by
  rw [Bool.eq_false_iff]
  simp only [writeOk, ne_eq, Bool.and_eq_true, Bool.or_eq_true, decide_eq_true_eq]
  rintro ⟨⟨halign, -⟩, hrange⟩
  rcases hrange with hn | ⟨hlo, hhi⟩
  · have hlen : n.toNat = 0 := congrArg BitVec.toNat hn
    omega
  · rw [writeWords] at hhi
    omega

/-- Settles O6: every reserved opcode decodes to a row CMD_RESERVED, and each failed check refuses its command. -/
theorem illFormedCommandsAreRefused : Obligations.IllFormedCommandsAreRefused := by
  unfold Obligations.IllFormedCommandsAreRefused
  refine ⟨⟨rfl, rfl, rfl, rfl⟩, fun op xs s hop => ?_, fun i s hi => ReservedRow.exec hi s, fun s hrun =>
    ⟨fun n hn => ?_, fun l m hlm => ?_, fun pos hpos => ?_, fun a n d _ hw => ?_⟩⟩
  · obtain ⟨i, hi, hrow⟩ := decodeReserved_row (reservedOpcode_matches op hop)
    exact ⟨i, (decodeCmd_of_reserved hop xs).trans hi, hrow.exec s⟩
  · exact congrArg Host.Outcome.next (runCommand_unchecked hrun (eraseSectorOk_eq_false hn))
  · exact congrArg Host.Outcome.next (runCommand_unchecked hrun (setProtectionOk_eq_false hlm))
  · exact congrArg Host.Outcome.next (runCommand_unchecked hrun (statusBitOk_eq_false hpos))
  · exact congrArg Host.Outcome.next (runCommand_unchecked hrun (writeOk_eq_false hw))

end Sys2Proof

/-! # Turns: whose step it is, and what stops the host (rules R92, R200, R287, R321) -/

namespace Sys2Proof.Machine

/-! ## The agent of a step -/

/-- A scheduled turn is its agent's, on the state with the schedule entry taken off. -/
theorem step_scheduled {s : State} {t : Turn} {q : List Turn} (h : s.sched = t :: q) :
    step s = takeTurn t (s.withSched q) := by
  simp only [step, h]

/-- With nothing scheduled a fair engine takes the turn while an operation is pending (rule R200). -/
theorem step_default_engine {s : State} (hs : s.sched = []) (hfair : s.params.engineFair = true)
    (hp : s.pend ≠ .none) : step s = .next (engineStep s) := by
  simp only [step, hs, defaultTurn, hfair, (busy_eq_true_iff s).mpr hp]
  rfl

/-- With nothing scheduled the host takes the turn when the engine is unfair or has no work. -/
theorem step_default_host {s : State} (hs : s.sched = []) (h : s.params.engineFair = false ∨ s.pend = .none) :
    step s = hostTurn s := by
  have idle : (s.params.engineFair && busy s) = false := by
    rcases h with hfair | hp
    · simp [hfair]
    · simp [(busy_eq_false_iff s).mpr hp]
  simp only [step, hs, defaultTurn, idle]
  rfl

/-- It is the host's turn, and `u` is the state it takes it in. -/
def HostTakesTurnIn (s u : State) (q : List Turn) : Prop :=
  (s.sched = .host :: q ∧ u = s.withSched q) ∨
    (s.sched = [] ∧ (s.params.engineFair = false ∨ s.pend = .none) ∧ u = s)

theorem HostTakesTurnIn.step {s u : State} {q : List Turn} (h : HostTakesTurnIn s u q) : step s = hostTurn u := by
  rcases h with ⟨hs, rfl⟩ | ⟨hs, hd, rfl⟩
  · exact step_scheduled hs
  · exact step_default_host hs hd

/-- The host sees the same marks, requests and parameters. -/
theorem HostTakesTurnIn.fields {s u : State} {q : List Turn} (h : HostTakesTurnIn s u q) :
    u.fault = s.fault ∧ u.refused = s.refused ∧ u.program = s.program ∧ u.params = s.params := by
  rcases h with ⟨-, rfl⟩ | ⟨-, -, rfl⟩ <;> exact ⟨rfl, rfl, rfl, rfl⟩

/-! ## The host's stops -/

theorem hostTurn_faulted {s : State} {k : BusKey} (hf : s.fault = some k) : hostTurn s = .fault (.busError k) := by
  simp only [hostTurn, hf]

theorem hostTurn_refused {s : State} (hf : s.fault = none) (hr : s.refused = true) :
    hostTurn s = .refused .runRefused := by
  simp only [hostTurn, hf, hr, if_true]

theorem hostTurn_idle {s : State} (hf : s.fault = none) (hr : s.refused = false) (hp : s.program = []) :
    hostTurn s = .next s := by
  simp only [hostTurn, hf, hr, hp, Bool.false_eq_true, if_false]

theorem hostTurn_request {s : State} {d : Descriptor} {rest : List Descriptor} (hf : s.fault = none)
    (hr : s.refused = false) (hp : s.program = d :: rest) : hostTurn s = issueRequest d s := by
  simp only [hostTurn, hf, hr, hp, Bool.false_eq_true, if_false]

theorem issueRequest_malformed {s : State} {d : Descriptor} {op : BitVec 8}
    (h : decode s.params d = .error (.operandList op)) : issueRequest d s = .refused (.malformedCommand op) := by
  simp only [issueRequest, h]

end Sys2Proof.Machine

namespace Sys2Proof

open Machine

/-- Settles O8: the turn's agent steps, and the host's turn is read off its marks and requests. -/
theorem eachTurnStepsItsAgentOrStopsTheHost : Obligations.EachTurnStepsItsAgentOrStopsTheHost := by
  unfold Obligations.EachTurnStepsItsAgentOrStopsTheHost
  intro s u q
  refine ⟨fun hs hu => ?_, fun hs hu => ?_, step_default_engine, fun (h : HostTakesTurnIn s u q) => ?_⟩
  · subst hu
    refine ⟨step_scheduled hs, ?_⟩
    rw [engineStep_frame]
    exact ⟨rfl, rfl, rfl, rfl⟩
  · subst hu
    refine ⟨step_scheduled hs, ?_⟩
    rw [resetEvent_eq]
    exact ⟨rfl, rfl, rfl, rfl, rfl, rfl⟩
  · obtain ⟨hf, hr, hp, hparams⟩ := h.fields
    rw [h.step, ← hf, ← hr, ← hp, ← hparams]
    exact ⟨fun _ => hostTurn_faulted, hostTurn_refused, hostTurn_idle,
      fun _ _ _ hf hr hp hd => (hostTurn_request hf hr hp).trans (issueRequest_malformed hd)⟩

end Sys2Proof

/-! # Key and option registers: reads and writes (rules R141 to R146, R149, R152 to R154) -/

namespace Sys2Proof.Machine

/-! ## Key writes -/

/-- With all 32 bits compared, a candidate is a key exactly when the words are equal (rules R35, R36). -/
theorem sameKey_default_iff (v k : Word) : sameKey Params.default.keyWidth v k = true ↔ v = k := by
  simp [sameKey, Params.default]

theorem keyNext_wait1 {width : Nat} {k1 k2 v : Word} (h : sameKey width v k1 = true) :
    keyNext width k1 k2 v .wait1 = some .wait2 := if_pos h

theorem keyNext_wait2 {width : Nat} {k1 k2 v : Word} (h : sameKey width v k2 = true) :
    keyNext width k1 k2 v .wait2 = some .opened := if_pos h

/-- A write that is no expected key moves the machine nowhere (rule R144). -/
theorem keyNext_eq_none {width : Nat} {k1 k2 v : Word} {k : KeyState}
    (h1 : ¬(k = .wait1 ∧ sameKey width v k1 = true)) (h2 : ¬(k = .wait2 ∧ sameKey width v k2 = true)) :
    keyNext width k1 k2 v k = none := by
  cases k with
  | wait1 => exact if_neg fun h => h1 ⟨rfl, h⟩
  | wait2 => exact if_neg fun h => h2 ⟨rfl, h⟩
  | opened => rfl
  | lockout => rfl

theorem exec_keyrWr_some {v : Word} {s : State} {k : KeyState}
    (h : keyNext s.params.keyWidth s.params.key1 s.params.key2 v s.ks = some k) :
    exec (.keyrWr v) s = .next { s with ks := k, held := false } := by
  have hk : keyrWrite v s = some (s.withKs k) := by simp only [keyrWrite, presentKey, h]
  exact issue_of_some hk

theorem exec_keyrWr_none {v : Word} {s : State}
    (h : keyNext s.params.keyWidth s.params.key1 s.params.key2 v s.ks = none) :
    exec (.keyrWr v) s = .next { s with ks := .lockout, fault := some (keyrKey s.params), held := false } := by
  have hk : keyrWrite v s = some (raiseBusError (keyrKey s.params) (s.withKs .lockout)) := by
    simp only [keyrWrite, presentKey, h]
  exact issue_of_some hk

theorem exec_optkeyrWr_some {v : Word} {s : State} {k : KeyState}
    (h : keyNext s.params.keyWidth s.params.optkey1 s.params.optkey2 v s.oks = some k) :
    exec (.optkeyrWr v) s = .next { s with oks := k, held := false } := by
  have hk : optkeyrWrite v s = some (s.withOks k) := by simp only [optkeyrWrite, presentOptKey, h]
  exact issue_of_some hk

theorem exec_optkeyrWr_none {v : Word} {s : State}
    (h : keyNext s.params.keyWidth s.params.optkey1 s.params.optkey2 v s.oks = none) :
    exec (.optkeyrWr v) s = .next { s with oks := .lockout, fault := some (optkeyrKey s.params), held := false } := by
  have hk : optkeyrWrite v s = some (raiseBusError (optkeyrKey s.params) (s.withOks .lockout)) := by
    simp only [optkeyrWrite, presentOptKey, h]
  exact issue_of_some hk

/-! ## Reserved bits of a read word -/

/-- A range of bits that are all 0 reads 0. -/
theorem extractLsb'_eq_zero {v : Word} {lo n : Nat} (h : ∀ i, i < n → v.getLsbD (lo + i) = false) :
    v.extractLsb' lo n = 0 := by
  apply BitVec.eq_of_getLsbD_eq
  intro i hi
  simp [hi, h i hi]

/-- The bits of a field's room above its width read 0 when the value fits the width (rule R41, log entry 18). -/
theorem getLsbD_of_room {room n lo : Nat} {v : Word} {x : BitVec room} (hv : v.extractLsb' lo room = x)
    (hx : x.toNat < 2 ^ n) {i : Nat} (hn : n ≤ i) (hi : i < room) : v.getLsbD (lo + i) = false := by
  subst hv
  have hbit := getLsbD_of_toNat_lt hx hn
  rwa [BitVec.getLsbD_extractLsb', decide_eq_true hi, Bool.true_and] at hbit

/-- Bits 30:24 of OPTCR as read are those of `OPTCR_RSVD` (rule R41). -/
theorem rsvd_regvalOptcr (s : State) :
    (regvalOptcr s).extractLsb' 24 7 = s.params.optcrRsvd.extractLsb' 24 7 := by
  apply BitVec.eq_of_getLsbD_eq
  intro i hi
  simp only [BitVec.getLsbD_extractLsb', getLsbD_regvalOptcr]
  interval_cases i <;> rfl

theorem isLocked_iff (k : KeyState) : isLocked k = true ↔ k ≠ .opened := by simp [isLocked]

theorem strtBit_iff (s : State) : strtBit s = true ↔ (∃ n, s.pend = .sectorErase n) ∨ s.pend = .massErase := by
  unfold strtBit
  cases s.pend <;> simp

theorem optstrtBit_iff (s : State) : optstrtBit s = true ↔ ∃ f, s.pend = .optCommit f := by
  unfold optstrtBit
  cases s.pend <;> simp

/-! ## ACR writes -/

/-- The bits of ACR that a write keeps (rules R34, R41): LATENCY's and the five flags'. -/
theorem acrMask_eq {n : Nat} (h : n ≤ 8) : BitVec.ofNat 32 (0x1F00 + (2 ^ n - 1)) = fieldMask 8 5 ||| fieldMask 0 n := by
  interval_cases n <;> decide

/-- A word written to ACR reads back with its reserved bits 0 (rules R41, R142). -/
theorem regvalAcr_of_acrOfWord {s : State} {v : Word} (h : s.acr = acrOfWord s.params v)
    (hw : s.params.latencyWidth ≤ 8) :
    regvalAcr s = v &&& BitVec.ofNat 32 (0x1F00 + (2 ^ s.params.latencyWidth - 1)) := by
  apply BitVec.eq_of_getLsbD_eq
  intro i hi
  rw [acrMask_eq hw, BitVec.getLsbD_and, BitVec.getLsbD_or, getLsbD_fieldMask, getLsbD_fieldMask, getLsbD_regvalAcr, h]
  by_cases hlat : i < 8
  · rw [if_pos hlat, acrOfWord, getLsbD_field v 0 _ i hlat]
    simp [hi, Bool.and_comm, show ¬ 8 ≤ i by omega]
  · have hout : ¬ i < s.params.latencyWidth := by omega
    rw [if_neg hlat, Nat.zero_add, decide_eq_false hout, Bool.and_false, Bool.or_false]
    interval_cases i <;> simp [acrOfWord]

end Sys2Proof.Machine

namespace Sys2Proof

open Machine

/-- Settles O17: the key machine's transition decides between its next state and the lockout. -/
theorem keyrWriteFollowsTheKeySequence : Obligations.KeyrWriteFollowsTheKeySequence := by
  unfold Obligations.KeyrWriteFollowsTheKeySequence
  refine ⟨⟨rfl, rfl, rfl, sameKey_default_iff⟩, fun v s isKey hkey => ?_⟩
  simp only [hkey]
  refine ⟨fun hks h1 => exec_keyrWr_some ?_, fun hks h2 => exec_keyrWr_some ?_,
    fun h1 h2 => exec_keyrWr_none (keyNext_eq_none h1 h2)⟩
  · rw [hks, keyNext_wait1 h1]
  · rw [hks, keyNext_wait2 h2]

/-- Settles O18: the same argument for the option key machine. -/
theorem optkeyrWriteFollowsTheKeySequence : Obligations.OptkeyrWriteFollowsTheKeySequence := by
  unfold Obligations.OptkeyrWriteFollowsTheKeySequence
  refine ⟨⟨rfl, rfl, rfl, sameKey_default_iff⟩, fun v s isKey hkey => ?_⟩
  simp only [hkey]
  refine ⟨fun hoks h1 => exec_optkeyrWr_some ?_, fun hoks h2 => exec_optkeyrWr_some ?_,
    fun h1 h2 => exec_optkeyrWr_none (keyNext_eq_none h1 h2)⟩
  · rw [hoks, keyNext_wait1 h1]
  · rw [hoks, keyNext_wait2 h2]

/-- Settles O19, bit by bit. -/
theorem acrAndKeyReadsReturnTheirFields : Obligations.AcrAndKeyReadsReturnTheirFields := by
  unfold Obligations.AcrAndKeyReadsReturnTheirFields
  refine ⟨rfl, fun s => ⟨rfl, rfl, regvalAcr s, rfl, latencyRoom_regvalAcr s, fun h i hn hi => ?_,
    getLsbD_regvalAcr s 8, getLsbD_regvalAcr s 9, getLsbD_regvalAcr s 10, getLsbD_regvalAcr s 11,
    getLsbD_regvalAcr s 12, extractLsb'_eq_zero fun i hi => ?_⟩⟩
  · simpa using getLsbD_of_room (latencyRoom_regvalAcr s) h.latency_fits hn hi
  · rw [getLsbD_regvalAcr]
    interval_cases i <;> rfl

/-- Settles O21, bit by bit. -/
theorem crReadReturnsFieldsLockAndStart : Obligations.CrReadReturnsFieldsLockAndStart := by
  unfold Obligations.CrReadReturnsFieldsLockAndStart
  refine ⟨⟨rfl, rfl⟩, fun s => ⟨regvalCr s, rfl, getLsbD_regvalCr s 0, getLsbD_regvalCr s 1,
    getLsbD_regvalCr s 2, snbRoom_regvalCr s, psizeRoom_regvalCr s, fun h i =>
    ⟨getLsbD_of_room (snbRoom_regvalCr s) h.snb_fits, getLsbD_of_room (psizeRoom_regvalCr s) h.psize_fits⟩, ?_,
    extractLsb'_eq_zero fun i hi => ?_, getLsbD_regvalCr s 24, getLsbD_regvalCr s 25,
    extractLsb'_eq_zero fun i hi => ?_, ?_⟩⟩
  · rw [getLsbD_regvalCr]
    exact strtBit_iff s
  · rw [getLsbD_regvalCr]
    interval_cases i <;> rfl
  · rw [getLsbD_regvalCr]
    interval_cases i <;> rfl
  · rw [getLsbD_regvalCr]
    exact isLocked_iff s.ks

/-- Settles O22, bit by bit. -/
theorem optcrReadReturnsFieldsLockAndStart : Obligations.OptcrReadReturnsFieldsLockAndStart := by
  unfold Obligations.OptcrReadReturnsFieldsLockAndStart
  refine ⟨rfl, fun s => ⟨regvalOptcr s, rfl, ?_, ?_, borLev_regvalOptcr s, getLsbD_regvalOptcr s 4,
    getLsbD_regvalOptcr s 5, getLsbD_regvalOptcr s 6, getLsbD_regvalOptcr s 7, rdp_regvalOptcr s,
    bitmap_regvalOptcr s, fun h i => getLsbD_of_room (bitmap_regvalOptcr s) h.nwrp_fits, rsvd_regvalOptcr s,
    getLsbD_regvalOptcr s 31⟩⟩
  · rw [getLsbD_regvalOptcr]
    exact isLocked_iff s.oks
  · rw [getLsbD_regvalOptcr]
    exact optstrtBit_iff s

/-- Settles O23: the write's own two cases, then the read of what it stored. -/
theorem acrWriteStoresFieldsAndResetsTheCache : Obligations.AcrWriteStoresFieldsAndResetsTheCache := by
  unfold Obligations.AcrWriteStoresFieldsAndResetsTheCache
  refine ⟨rfl, fun v s => ⟨_, _, ?_, rfl, rfl, fun hw => regvalAcr_of_acrOfWord rfl hw⟩⟩
  have hcache : (v.getLsbD 12 = true ∧ v.getLsbD 10 = false) ↔ resetsDataCache v = true := by simp [resetsDataCache]
  have hwrite : acrWrite v s = some { s with
      acr := acrOfWord s.params v
      stale := if v.getLsbD 12 = true ∧ v.getLsbD 10 = false then [] else s.stale } := by
    simp only [acrWrite, hcache]
    split <;> rfl
  exact issue_of_some hwrite

/-- Settles O27: the hold, the locked and the open case of the write. -/
theorem optcrWriteStoresCommitsAndLocks : Obligations.OptcrWriteStoresCommitsAndLocks := by
  unfold Obligations.OptcrWriteStoresCommitsAndLocks
  rintro v s f rfl
  refine ⟨fun hp => ?_, fun hp hk => ?_, fun hp hk => ?_⟩
  · exact issue_of_none (unlessBusy_busy ((busy_eq_true_iff s).mpr hp))
  · have hlocked : optcrWrite v s = some s := by
      rw [optcrWrite, unlessBusy_idle ((busy_eq_false_iff s).mpr hp), if_pos ((isLocked_iff s.oks).mpr hk)]
    exact issue_of_some hlocked
  · exact issue_of_some (optcrWrite_open hp hk)

end Sys2Proof

/-! # What a step can do to the state (rules R42 to R44, R51, R52, R82, R321, R326) -/

namespace Sys2Proof.Machine

/-! ## The transaction inside an instruction -/

/-- `s` becomes `t` by the one bus transaction that an instruction performs: none (it holds, or a command has none
left), a register's or the array's, or the refusal. -/
inductive Performs (s : State) : State → Prop where
  | nothing : Performs s s
  | readReg {r : FlashReg} {t : State} (h : readReg r s = some t) : Performs s t
  | writeReg {r : FlashReg} {v : Word} {t : State} (h : writeReg r v s = some t) : Performs s t
  | arrRead {sz : AccessSize} {a : Word} {t : State} (h : arrRead sz a s = some t) : Performs s t
  | arrWrite {sz : AccessSize} {a v : Word} {t : State} (h : arrWrite sz a v s = some t) : Performs s t
  | refuse : Performs s (refuse s)

theorem performs_of_microTxn {u : Micro} {p : Position} {s t : State} (h : microTxn u p s = some t) :
    Performs s t := by
  cases u with
  | rd r => exact .readReg h
  | wr r v => exact .writeReg h
  | wrMod r c x => exact .writeReg h
  | poll r m => exact .readReg h
  | rdByte a => exact .arrRead h
  | wrData a data => exact .arrWrite h

/-- `t` is `u` but for the host's notes of its position, its hold, its result and the draws counted. -/
def SameButNotes (u t : State) : Prop :=
  t = { u with run := t.run, held := t.held, result := t.result, draws := t.draws }

theorem continueAt_performs (e : Expansion) (p : Position) (s : State) :
    ∃ u, Performs s u ∧ SameButNotes u (continueAt e p s) := by
  rcases continueAt_cases e p s with ⟨-, he⟩ | ⟨m, -, -, he⟩ | ⟨m, u, -, hm, he⟩ <;> rw [he]
  · exact ⟨s, .nothing, rfl⟩
  · exact ⟨s, .nothing, rfl⟩
  · refine ⟨u, performs_of_microTxn hm, ?_⟩
    rw [afterTxn_frame]
    rfl

theorem runCommand_performs (i : Instr) (ok : Bool) (e : Expansion) (s : State) :
    ∃ u, Performs s u ∧ SameButNotes u (runCommand i ok e s) := by
  rcases runCommand_cases i ok e s with ⟨-, -, he⟩ | ⟨p, -, -, he⟩ | ⟨-, he⟩ <;> rw [he]
  · exact continueAt_performs e _ s
  · exact continueAt_performs e p s
  · exact ⟨refuse s, .refuse, rfl⟩

theorem issue_performs {x : Txn} {s t : State} (hx : ∀ u, x s = some u → Performs s u) (h : issue x s = .next t) :
    ∃ u, Performs s u ∧ SameButNotes u t := by
  rcases issue_cases x s with ⟨u, hu, he⟩ | ⟨-, he⟩ <;> rw [he] at h <;> cases h
  · exact ⟨u, hx u hu, rfl⟩
  · exact ⟨s, .nothing, rfl⟩

/-- An instruction performs at most one transaction, and besides it only the host's notes change. -/
theorem exec_performs {i : Instr} {s t : State} (h : exec i s = .next t) :
    ∃ u, Performs s u ∧ SameButNotes u t := by
  rcases exec_cases i s with ⟨r, e⟩ | ⟨r, v, e⟩ | ⟨sz, a, e⟩ | ⟨sz, a, v, e⟩ | e | ⟨ok, ex, e⟩ <;> rw [e] at h
  · exact issue_performs (fun _ => .readReg) h
  · exact issue_performs (fun _ => .writeReg) h
  · exact issue_performs (fun _ => .arrRead) h
  · exact issue_performs (fun _ => .arrWrite) h
  · cases h
    exact ⟨refuse s, .refuse, rfl⟩
  · cases h
    exact runCommand_performs i ok ex s

/-- No transaction writes the parameters, the array or the option bytes. -/
theorem Performs.kept {s t : State} (h : Performs s t) : t.params = s.params ∧ t.arr = s.arr ∧ t.ob = s.ob := by
  cases h with
  | nothing => exact ⟨rfl, rfl, rfl⟩
  | readReg h => rw [readReg_frame h]; exact ⟨rfl, rfl, rfl⟩
  | writeReg h => rw [writeReg_frame h]; exact ⟨rfl, rfl, rfl⟩
  | arrRead h => rw [arrRead_frame h]; exact ⟨rfl, rfl, rfl⟩
  | arrWrite h => rw [arrWrite_frame h]; exact ⟨rfl, rfl, rfl⟩
  | refuse => exact ⟨rfl, rfl, rfl⟩

theorem exec_kept {i : Instr} {s t : State} (h : exec i s = .next t) :
    t.params = s.params ∧ t.arr = s.arr ∧ t.ob = s.ob := by
  obtain ⟨u, hu, ht⟩ := exec_performs h
  rw [ht]
  exact hu.kept

/-! ## The key machines -/

/-- The transitions of a key machine that a transaction can make (rules R42, R43, R150, R153): on to the next state of
the key sequence, to the lockout, and from the open state back to the first. -/
inductive KeyStep : KeyState → KeyState → Prop where
  | stay (k : KeyState) : KeyStep k k
  | firstKey : KeyStep .wait1 .wait2
  | secondKey : KeyStep .wait2 .opened
  | lockOut (k : KeyState) : KeyStep k .lockout
  | relock : KeyStep .opened .wait1

theorem presentKey_keyStep (v : Word) (s : State) : KeyStep s.ks (presentKey v s).ks := by
  rcases presentKey_cases v s with ⟨hk, -, h⟩ | ⟨hk, -, h⟩ | ⟨-, h⟩ <;> rw [h]
  · rw [hk]; exact .firstKey
  · rw [hk]; exact .secondKey
  · exact .lockOut _

theorem presentOptKey_keyStep (v : Word) (s : State) : KeyStep s.oks (presentOptKey v s).oks := by
  rcases presentOptKey_cases v s with ⟨hk, -, h⟩ | ⟨hk, -, h⟩ | ⟨-, h⟩ <;> rw [h]
  · rw [hk]; exact .firstKey
  · rw [hk]; exact .secondKey
  · exact .lockOut _

/-- A write of CR with LOCK = 1 locks it, and no other write of CR moves its key machine (rule R150). -/
theorem crWriteOpen_ks (v : Word) (s : State) : (crWriteOpen v s).ks = if v.getLsbD 31 then .wait1 else s.ks := by
  have started : (eraseRequest (s.withCr (crOfWord s.params v))).ks = s.ks := by rw [eraseRequest_frame]; rfl
  unfold crWriteOpen
  cases v.getLsbD 16 <;> cases v.getLsbD 31
  · rfl
  · rfl
  · exact started
  · rfl

/-- A write of OPTCR with OPTLOCK = 1 locks it, and no other write of OPTCR moves its key machine (rule R153). -/
theorem optcrWriteOpen_oks (v : Word) (s : State) :
    (optcrWriteOpen v s).oks = if v.getLsbD 0 then .wait1 else s.oks := by
  unfold optcrWriteOpen
  cases v.getLsbD 1 <;> cases v.getLsbD 0 <;> rfl

/-- An open machine is locked again, or stays. -/
theorem keyStep_relock_of {k : KeyState} (h : isLocked k = false) (b : Bool) :
    KeyStep k (if b then .wait1 else k) := by
  rw [isLocked_eq_false_iff] at h
  subst h
  cases b
  · exact .stay _
  · exact .relock

theorem unlessBusy_some {f : State → State} {s t : State} (h : unlessBusy f s = some t) : t = f s := by
  cases hb : busy s with
  | true => simp [unlessBusy_busy hb] at h
  | false =>
    rw [unlessBusy_idle hb] at h
    exact (Option.some.inj h).symm

theorem crWrite_keyStep {v : Word} {s t : State} (h : crWrite v s = some t) :
    KeyStep s.ks t.ks ∧ t.oks = s.oks := by
  rw [unlessBusy_some h]
  cases hl : isLocked s.ks
  · rw [if_neg (by simp), crWriteOpen_ks, crWriteOpen_frame]
    exact ⟨keyStep_relock_of hl _, rfl⟩
  · rw [if_pos rfl, crWriteLocked_frame]
    exact ⟨.stay _, rfl⟩

theorem optcrWrite_keyStep {v : Word} {s t : State} (h : optcrWrite v s = some t) :
    t.ks = s.ks ∧ KeyStep s.oks t.oks := by
  rw [unlessBusy_some h]
  cases hl : isLocked s.oks
  · rw [if_neg (by simp), optcrWriteOpen_oks, optcrWriteOpen_frame]
    exact ⟨rfl, keyStep_relock_of hl _⟩
  · rw [if_pos rfl]
    exact ⟨rfl, .stay _⟩

theorem writeReg_keyStep {r : FlashReg} {v : Word} {s t : State} (h : writeReg r v s = some t) :
    KeyStep s.ks t.ks ∧ KeyStep s.oks t.oks := by
  cases r with
  | acr =>
    cases h
    split <;> exact ⟨.stay _, .stay _⟩
  | keyr =>
    cases h
    refine ⟨presentKey_keyStep v s, ?_⟩
    rw [presentKey_frame]
    exact .stay _
  | optkeyr =>
    cases h
    refine ⟨?_, presentOptKey_keyStep v s⟩
    rw [presentOptKey_frame]
    exact .stay _
  | sr =>
    cases h
    exact ⟨.stay _, .stay _⟩
  | cr =>
    obtain ⟨hks, hoks⟩ := crWrite_keyStep h
    exact ⟨hks, hoks ▸ .stay _⟩
  | optcr =>
    obtain ⟨hks, hoks⟩ := optcrWrite_keyStep h
    exact ⟨hks ▸ .stay _, hoks⟩

theorem Performs.keyStep {s t : State} (h : Performs s t) : KeyStep s.ks t.ks ∧ KeyStep s.oks t.oks := by
  cases h with
  | nothing => exact ⟨.stay _, .stay _⟩
  | readReg h => rw [readReg_frame h]; exact ⟨.stay _, .stay _⟩
  | writeReg h => exact writeReg_keyStep h
  | arrRead h => rw [arrRead_frame h]; exact ⟨.stay _, .stay _⟩
  | arrWrite h => rw [arrWrite_frame h]; exact ⟨.stay _, .stay _⟩
  | refuse => exact ⟨.stay _, .stay _⟩

theorem exec_keyStep {i : Instr} {s t : State} (h : exec i s = .next t) :
    KeyStep s.ks t.ks ∧ KeyStep s.oks t.oks := by
  obtain ⟨u, hu, ht⟩ := exec_performs h
  rw [ht]
  exact hu.keyStep

/-- What the transitions of a key machine say of its lock, `reset` being the one other way to leave the lockout (rules
R42, R326). -/
theorem lock_of_keyStep {k k' : KeyState} {reset : Prop} (h : KeyStep k k' ∨ (k' = .wait1 ∧ reset)) :
    (k' = .opened → k = .opened ∨ k = .wait2) ∧ (k' = .wait2 → k = .wait2 ∨ k = .wait1) ∧
      (k = .lockout → k' = .lockout ∨ (k' = .wait1 ∧ reset)) := by
  rcases h with h | ⟨rfl, hreset⟩
  · cases h with
    | stay => exact ⟨.inl, .inl, .inl⟩
    | lockOut => exact ⟨nofun, nofun, fun _ => .inl rfl⟩
    | firstKey | secondKey | relock => simp
  · simp [hreset]

/-! ## The host's turn -/

@[simp] theorem retire_params (s : State) : (retire s).params = s.params := by unfold retire; split <;> rfl
@[simp] theorem retire_arr (s : State) : (retire s).arr = s.arr := by unfold retire; split <;> rfl
@[simp] theorem retire_ob (s : State) : (retire s).ob = s.ob := by unfold retire; split <;> rfl
@[simp] theorem retire_ks (s : State) : (retire s).ks = s.ks := by unfold retire; split <;> rfl
@[simp] theorem retire_oks (s : State) : (retire s).oks = s.oks := by unfold retire; split <;> rfl

theorem hostTurn_kept {s t : State} (h : hostTurn s = .next t) :
    t.params = s.params ∧ t.arr = s.arr ∧ t.ob = s.ob := by
  obtain ⟨-, -, ⟨-, rfl⟩ | ⟨d, rest, i, u, -, -, hu, rfl⟩⟩ := hostTurn_next h
  · exact ⟨rfl, rfl, rfl⟩
  · simpa using exec_kept hu

theorem hostTurn_keyStep {s t : State} (h : hostTurn s = .next t) : KeyStep s.ks t.ks ∧ KeyStep s.oks t.oks := by
  obtain ⟨-, -, ⟨-, rfl⟩ | ⟨d, rest, i, u, -, -, hu, rfl⟩⟩ := hostTurn_next h
  · exact ⟨.stay _, .stay _⟩
  · simpa using exec_keyStep hu

/-! ## The ends of a pending operation -/

/-- The operations whose target is the array (rules R45, R82). -/
def TargetsArray (p : Pending) : Prop :=
  (∃ a sz v, p = .program a sz v) ∨ (∃ n, p = .sectorErase n) ∨ p = .massErase

theorem engineStep_arr_ne {s : State} (h : (engineStep s).arr ≠ s.arr) : TargetsArray s.pend := by
  rcases engineStep_cases s with ⟨-, e⟩ | ⟨a, sz, v, hp, -⟩ | ⟨n, hp, -⟩ | ⟨hp, -⟩ | ⟨f, -, e⟩
  · exact absurd (congrArg State.arr e) h
  · exact .inl ⟨a, sz, v, hp⟩
  · exact .inr (.inl ⟨n, hp⟩)
  · exact .inr (.inr hp)
  · rw [e, completeOptionCommit_frame] at h
    exact absurd rfl h

theorem engineStep_ob_ne {s : State} (h : (engineStep s).ob ≠ s.ob) : ∃ f, s.pend = .optCommit f := by
  rcases engineStep_cases s with ⟨-, e⟩ | ⟨a, sz, v, -, e⟩ | ⟨n, -, e⟩ | ⟨-, e⟩ | ⟨f, hp, -⟩
  · exact absurd (congrArg State.ob e) h
  · rw [e, completeProgram_eq] at h
    exact absurd rfl h
  · rw [e, completeSectorErase_eq] at h
    exact absurd rfl h
  · rw [e, completeMassErase_eq] at h
    exact absurd rfl h
  · exact ⟨f, hp⟩

/-- What a reset leaves of the target of the operation it interrupts (rule R322), by the operation. -/
theorem interruptTarget_cases (s : State) :
    (s.pend = .none ∧ interruptTarget s = s) ∨
      (∃ a sz v, s.pend = .program a sz v ∧ interruptTarget s = drawRange a.toNat (nbytes sz) s) ∨
      (∃ n, s.pend = .sectorErase n ∧ interruptTarget s =
        drawRange (sectorRange s.params.sectorMap n.toNat).1 (sectorRange s.params.sectorMap n.toNat).2 s) ∨
      (s.pend = .massErase ∧ interruptTarget s = drawRange s.params.arrayBase (arraySize s.params) s) ∨
      (∃ f, s.pend = .optCommit f ∧ interruptTarget s =
        (s.withOb (drawnOptFields s.params s.draws)).withDraws (s.draws + 1)) := by
  unfold interruptTarget
  cases s.pend with
  | none => exact .inl ⟨rfl, rfl⟩
  | program a sz v => exact .inr (.inl ⟨a, sz, v, rfl, rfl⟩)
  | sectorErase n => exact .inr (.inr (.inl ⟨n, rfl, rfl⟩))
  | massErase => exact .inr (.inr (.inr (.inl ⟨rfl, rfl⟩)))
  | optCommit f => exact .inr (.inr (.inr (.inr ⟨f, rfl, rfl⟩)))

theorem interruptTarget_arr_ne {s : State} (h : (interruptTarget s).arr ≠ s.arr) : TargetsArray s.pend := by
  rcases interruptTarget_cases s with ⟨-, e⟩ | ⟨a, sz, v, hp, -⟩ | ⟨n, hp, -⟩ | ⟨hp, -⟩ | ⟨f, -, e⟩
  · exact absurd (congrArg State.arr e) h
  · exact .inl ⟨a, sz, v, hp⟩
  · exact .inr (.inl ⟨n, hp⟩)
  · exact .inr (.inr hp)
  · exact absurd (congrArg State.arr e) h

theorem interruptTarget_ob_ne {s : State} (h : (interruptTarget s).ob ≠ s.ob) : ∃ f, s.pend = .optCommit f := by
  rcases interruptTarget_cases s with ⟨-, e⟩ | ⟨a, sz, v, -, e⟩ | ⟨n, -, e⟩ | ⟨-, e⟩ | ⟨f, hp, -⟩
  · exact absurd (congrArg State.ob e) h
  · exact absurd (congrArg State.ob e) h
  · exact absurd (congrArg State.ob e) h
  · exact absurd (congrArg State.ob e) h
  · exact ⟨f, hp⟩

/-- Outside a drawn range the bytes stay. -/
theorem readByte_drawRange {lo n b : Nat} (s : State) (h : ¬(lo ≤ b ∧ b < lo + n)) :
    readByte (drawRange lo n s).arr b = readByte s.arr b := by
  rw [drawRange, State.withDraws_arr, State.withArr_arr, readByte_setRange, if_neg h]

/-! ## Steps -/

/-- A step is a turn of one of the three agents on the state with its schedule entry taken off; a reset's turn is
always a scheduled one. -/
theorem step_cases {s t : State} (h : step s = .next t) :
    hostTurn (s.withSched s.sched.tail) = .next t ∨ t = engineStep (s.withSched s.sched.tail) ∨
      ((∃ q, s.sched = .reset :: q) ∧ t = resetEvent (s.withSched s.sched.tail)) := by
  cases hs : s.sched with
  | nil =>
    have hself : s.withSched [] = s := by rw [State.withSched, ← hs]
    simp only [List.tail_nil, hself]
    simp only [step, hs, defaultTurn] at h
    split at h
    · exact .inr (.inl (by cases h; rfl))
    · exact .inl h
  | cons q rest =>
    rw [step_scheduled hs] at h
    rw [List.tail_cons]
    cases q with
    | host => exact .inl h
    | engine => exact .inr (.inl (by cases h; rfl))
    | reset => exact .inr (.inr ⟨⟨rest, rfl⟩, by cases h; rfl⟩)

end Sys2Proof.Machine

namespace Sys2Proof

open Machine

/-- Settles O12: the host's turn keeps both memories, and the engine and the reset write them only for the operation
that they end. -/
theorem arrayAndOptionBytesChangeOnlyByEngineOrReset : Obligations.ArrayAndOptionBytesChangeOnlyByEngineOrReset := by
  unfold Obligations.ArrayAndOptionBytesChangeOnlyByEngineOrReset
  refine ⟨fun i s t h => (exec_kept h).2, fun s t h => ?_⟩
  rcases step_cases h with hhost | rfl | ⟨-, rfl⟩
  · obtain ⟨-, harr, hob⟩ := hostTurn_kept hhost
    exact ⟨absurd harr, absurd hob⟩
  · have hidle : (engineStep (s.withSched s.sched.tail)).pend = .none := by rw [engineStep_frame]
    exact ⟨fun hne => ⟨hidle, engineStep_arr_ne (s := s.withSched s.sched.tail) hne⟩,
      fun hne => ⟨hidle, engineStep_ob_ne (s := s.withSched s.sched.tail) hne⟩⟩
  · rw [resetEvent_eq]
    exact ⟨fun hne => ⟨rfl, interruptTarget_arr_ne (s := s.withSched s.sched.tail) hne⟩,
      fun hne => ⟨rfl, interruptTarget_ob_ne (s := s.withSched s.sched.tail) hne⟩⟩

/-- Settles O13: the host steps only in an unmarked run, and the engine and the reset write neither mark. -/
theorem marksAndParametersSurviveEveryStep : Obligations.MarksAndParametersSurviveEveryStep := by
  unfold Obligations.MarksAndParametersSurviveEveryStep
  intro s t h
  rcases step_cases h with hhost | rfl | ⟨-, rfl⟩
  · obtain ⟨hfault, hrefused, -⟩ := hostTurn_next hhost
    refine ⟨(hostTurn_kept hhost).1, fun hne => absurd hfault hne, fun hr => ?_⟩
    exact absurd (hrefused.symm.trans hr) Bool.false_ne_true
  · rw [engineStep_frame]
    exact ⟨rfl, fun _ => rfl, id⟩
  · rw [resetEvent_eq]
    exact ⟨rfl, fun _ => rfl, id⟩

/-- Settles O14: each key machine makes one of its transitions, or a reset puts it in its first state. -/
theorem locksOpenOnlyThroughTheirKeySequence : Obligations.LocksOpenOnlyThroughTheirKeySequence := by
  unfold Obligations.LocksOpenOnlyThroughTheirKeySequence
  intro s t h
  have hmoves : (KeyStep s.ks t.ks ∨ (t.ks = .wait1 ∧ ∃ q, s.sched = .reset :: q)) ∧
      (KeyStep s.oks t.oks ∨ (t.oks = .wait1 ∧ ∃ q, s.sched = .reset :: q)) := by
    rcases step_cases h with hhost | rfl | ⟨hreset, rfl⟩
    · obtain ⟨hks, hoks⟩ := hostTurn_keyStep hhost
      exact ⟨.inl hks, .inl hoks⟩
    · rw [engineStep_frame]
      exact ⟨.inl (.stay _), .inl (.stay _)⟩
    · rw [resetEvent_eq]
      exact ⟨.inr ⟨rfl, hreset⟩, .inr ⟨rfl, hreset⟩⟩
  obtain ⟨hopened, hwait2, hlockout⟩ := lock_of_keyStep hmoves.1
  exact ⟨hopened, hwait2, hlockout, lock_of_keyStep hmoves.2⟩

/-- Settles O41: the target of the interrupted operation is all that the reset draws. -/
theorem resetEventClearsVolatileStateOnly : Obligations.ResetEventClearsVolatileStateOnly := by
  unfold Obligations.ResetEventClearsVolatileStateOnly
  intro s
  have hstate := resetEvent_eq s
  have hprogram : (if s.run.isSome then s.program.tail else s.program) =
      if s.run = none then s.program else s.program.tail := by cases s.run <;> rfl
  rw [hprogram] at hstate
  refine ⟨(interruptTarget s).arr, (interruptTarget s).ob, (interruptTarget s).draws, hstate, ?_⟩
  rcases interruptTarget_cases s with ⟨hp, e⟩ | ⟨a, sz, v, hp, e⟩ | ⟨n, hp, e⟩ | ⟨hp, e⟩ | ⟨f, hp, e⟩ <;>
    simp only [hp, e, reduceCtorEq, false_implies, implies_true, and_true, true_and, forall_const,
      Pending.program.injEq, Pending.sectorErase.injEq, Pending.optCommit.injEq]
  · rintro a sz v ⟨rfl, rfl, rfl⟩
    exact ⟨rfl, fun b => readByte_drawRange s⟩
  · rintro n rfl
    exact ⟨rfl, fun b => readByte_drawRange s⟩
  · refine ⟨rfl, fun b hb => readByte_drawRange s ?_⟩
    rw [arraySize]
    omega
  · exact fun _ _ => rfl

end Sys2Proof

/-! # Key machines apart, protection, sectors and the launch registers (rules R33, R43, R46, R47, R49, R50) -/

namespace Sys2Proof.Machine

/-! ## Transactions that commute with a change of a field they neither read nor write -/

/-- A transaction that commutes with `f` issues alike on both sides of it, when `f` leaves the host's note of a hold. -/
theorem issue_commute {x : Txn} {f : State → State} {s t : State} (hheld : ∀ u b, (f u).withHeld b = f (u.withHeld b))
    (hx : x (f s) = (x s).map f) (h : issue x s = .next t) : issue x (f s) = .next (f t) := by
  rcases issue_cases x s with ⟨u, hu, he⟩ | ⟨hu, he⟩ <;> rw [he] at h <;> cases h
  · rw [hu] at hx
    rw [issue_of_some hx, hheld]
  · rw [hu] at hx
    rw [issue_of_none hx, hheld]

/-- A transaction that commutes with every change of `OKS` neither writes nor reads it. -/
theorem issue_ignores_oks {x : Txn} {s t : State} (hx : ∀ k, x (s.withOks k) = (x s).map (·.withOks k))
    (h : issue x s = .next t) : t.oks = s.oks ∧ ∀ k, issue x (s.withOks k) = .next (t.withOks k) := by
  have hcomm : ∀ k, issue x (s.withOks k) = .next (t.withOks k) := fun k =>
    issue_commute (f := (·.withOks k)) (fun _ _ => rfl) (hx k) h
  have hsame : t = t.withOks s.oks := Host.Outcome.next.inj (h.symm.trans (hcomm s.oks))
  have hoks : t.oks = (t.withOks s.oks).oks := congrArg State.oks hsame
  exact ⟨hoks, hcomm⟩

/-- The same for `KS`. -/
theorem issue_ignores_ks {x : Txn} {s t : State} (hx : ∀ k, x (s.withKs k) = (x s).map (·.withKs k))
    (h : issue x s = .next t) : t.ks = s.ks ∧ ∀ k, issue x (s.withKs k) = .next (t.withKs k) := by
  have hcomm : ∀ k, issue x (s.withKs k) = .next (t.withKs k) := fun k =>
    issue_commute (f := (·.withKs k)) (fun _ _ => rfl) (hx k) h
  have hsame : t = t.withKs s.ks := Host.Outcome.next.inj (h.symm.trans (hcomm s.ks))
  have hks : t.ks = (t.withKs s.ks).ks := congrArg State.ks hsame
  exact ⟨hks, hcomm⟩

theorem presentKey_withOks (v : Word) (s : State) (k : KeyState) :
    presentKey v (s.withOks k) = (presentKey v s).withOks k := by
  simp only [presentKey, State.withOks_params, State.withOks_ks]
  split <;> rfl

theorem presentOptKey_withKs (v : Word) (s : State) (k : KeyState) :
    presentOptKey v (s.withKs k) = (presentOptKey v s).withKs k := by
  simp only [presentOptKey, State.withKs_params, State.withKs_oks]
  split <;> rfl

theorem afterDrop_withOks (s : State) (k : KeyState) : afterDrop (s.withOks k) = (afterDrop s).withOks k := by
  unfold afterDrop
  rw [apply_ite (State.withOks · k)]
  rfl

theorem startErase_withOks (s : State) (k : KeyState) : startErase (s.withOks k) = (startErase s).withOks k := by
  simp only [startErase, State.withOks_cr, State.withOks_params, State.withOks_ob]
  cases crMode s.cr with
  | idle | program | invalid => rfl
  | sectorErase | massErase =>
    dsimp only
    rw [apply_ite (State.withOks · k)]
    rfl

theorem eraseRequest_withOks (s : State) (k : KeyState) : eraseRequest (s.withOks k) = (eraseRequest s).withOks k := by
  have hdrop : dropped (s.withOks k) = dropped s := rfl
  simp only [eraseRequest, hdrop, afterDrop_withOks, startErase_withOks]
  split <;> rfl

theorem crWriteLocked_withOks (v : Word) (s : State) (k : KeyState) :
    crWriteLocked v (s.withOks k) = (crWriteLocked v s).withOks k := by
  simp only [crWriteLocked, State.withOks_params]
  split <;> rfl

theorem crWriteOpen_withOks (v : Word) (s : State) (k : KeyState) :
    crWriteOpen v (s.withOks k) = (crWriteOpen v s).withOks k := by
  have hstore : (s.withOks k).withCr (crOfWord s.params v) = (s.withCr (crOfWord s.params v)).withOks k := rfl
  simp only [crWriteOpen, State.withOks_params, hstore, eraseRequest_withOks]
  cases v.getLsbD 16 <;> cases v.getLsbD 31 <;> rfl

/-- A transaction held while busy commutes with a change of the state that the busy bit does not see. -/
theorem unlessBusy_commute {g : State → State} {f : State → State} {s : State} (hbusy : busy (f s) = busy s)
    (hg : g (f s) = f (g s)) : unlessBusy g (f s) = (unlessBusy g s).map f := by
  simp only [unlessBusy, hbusy, hg]
  split <;> rfl

theorem crWrite_withOks (v : Word) (s : State) (k : KeyState) :
    crWrite v (s.withOks k) = (crWrite v s).map (·.withOks k) := by
  refine unlessBusy_commute (f := (·.withOks k)) rfl ?_
  simp only [State.withOks_ks, crWriteLocked_withOks, crWriteOpen_withOks]
  split <;> rfl

theorem optcrWriteOpen_withKs (v : Word) (s : State) (k : KeyState) :
    optcrWriteOpen v (s.withKs k) = (optcrWriteOpen v s).withKs k := by
  unfold optcrWriteOpen
  cases v.getLsbD 1 <;> cases v.getLsbD 0 <;> rfl

theorem optcrWrite_withKs (v : Word) (s : State) (k : KeyState) :
    optcrWrite v (s.withKs k) = (optcrWrite v s).map (·.withKs k) := by
  refine unlessBusy_commute (f := (·.withKs k)) rfl ?_
  simp only [State.withKs_oks, optcrWriteOpen_withKs]
  split <;> rfl

/-! ## Protection levels -/

/-- The truth table of rule R49. -/
theorem level_eq (m : Bool) (b : BitVec 8) (i : Nat) :
    level m b i = if b.getLsbD i = m then (if m then .readWrite else .write) else .none := by
  unfold level
  cases m <;> cases b.getLsbD i <;> rfl

theorem wprot_iff (ob : OptFields) (i : Nat) : wprot ob i = true ↔ ob.nwrp.getLsbD i = ob.sprmod := by
  rw [wprot, eff, level_eq]
  cases ob.sprmod <;> cases ob.nwrp.getLsbD i <;> decide

theorem rprot_iff (ob : OptFields) (i : Nat) :
    rprot ob i = true ↔ ob.sprmod = true ∧ ob.nwrp.getLsbD i = true := by
  rw [rprot, eff, level_eq]
  cases ob.sprmod <;> cases ob.nwrp.getLsbD i <;> decide

/-! ## The sectors cover the array -/

/-- Sectors that cover from `lo` to `hi` leave no address out. -/
theorem sectorsCover_covers {m : SectorMap} {lo hi a : Nat} (h : sectorsCover m lo hi = true) (hlo : lo ≤ a)
    (hhi : a < hi) : ∃ i, sectorOf m a = some i := by
  induction m generalizing lo with
  | nil =>
    have heq : lo = hi := of_decide_eq_true h
    omega
  | cons r m ih =>
    have hcover := h
    simp only [sectorsCover, Bool.and_eq_true, decide_eq_true_eq] at h
    obtain ⟨⟨rfl, hpos⟩, hm⟩ := h
    by_cases hr : a < r.1 + r.2
    · exact ⟨0, (sectorsCover_sectorOf hcover a 0).mpr ⟨Nat.succ_pos _, hlo, hr⟩⟩
    · obtain ⟨i, hi⟩ := ih hm (Nat.not_lt.mp hr)
      obtain ⟨hlen, hrange⟩ := (sectorsCover_sectorOf hm a i).mp hi
      exact ⟨i + 1, (sectorsCover_sectorOf hcover a (i + 1)).mpr ⟨Nat.succ_lt_succ hlen, hrange⟩⟩

/-- The bytes of the array are those of its sectors (rules R46, R47). -/
theorem in_array_iff_sectorOf {p : Params} (h : sectorMapOk p = true) (a : Nat) :
    p.arrayBase ≤ a ∧ a ≤ p.arrayLast ↔ ∃ i, sectorOf p.sectorMap a = some i := by
  have hcover : sectorsCover p.sectorMap p.arrayBase (p.arrayLast + 1) = true := (Bool.and_eq_true_iff.mp h).2
  constructor
  · rintro ⟨hlo, hhi⟩
    exact sectorsCover_covers hcover hlo (Nat.lt_succ_of_le hhi)
  · rintro ⟨i, hi⟩
    obtain ⟨hlo, hhi⟩ := range_of_sectorOf hi
    exact sectorRange_in_array h hlo hhi

/-! ## The launch registers -/

/-- ACR as the launch state reads it. -/
theorem regvalAcr_launch (p : Params) (ob : OptFields) (m : Memory) : regvalAcr (State.launch p ob m) = 0 := by
  simp only [regvalAcr, State.launch_acr]
  decide

/-- SR as the launch state reads it: no flag, and not busy. -/
theorem regvalSr_launch (p : Params) (ob : OptFields) (m : Memory) : regvalSr (State.launch p ob m) = 0 := by
  simp only [regvalSr, State.launch_sr, busy, State.launch_pend]
  decide

/-- CR as the launch state reads it: LOCK alone. -/
theorem regvalCr_launch (p : Params) (ob : OptFields) (m : Memory) : regvalCr (State.launch p ob m) = 0x80000000 := by
  simp only [regvalCr, State.launch_cr, State.launch_ks, strtBit, State.launch_pend]
  decide

/-- OPTCR as the launch state reads it with the factory option bytes: `OPTCR_RSVD` is all that the parameters give. -/
theorem regvalOptcr_launch_factory {p : Params} (m : Memory) (h : p.optcrRsvd = 0x0F000000) :
    regvalOptcr (State.launch p OptFields.factory m) = 0x0FFFAAED := by
  simp only [regvalOptcr, State.launch_params, h, State.launch_optcr, State.launch_oks, optstrtBit, State.launch_pend]
  decide

end Sys2Proof.Machine

namespace Sys2Proof

open Machine

/-- Settles O15: each of the four transactions commutes with every change of the other machine. -/
theorem keyMachinesAreIndependent : Obligations.KeyMachinesAreIndependent := by
  unfold Obligations.KeyMachinesAreIndependent
  intro v x s t
  refine ⟨fun h => ?_, fun h => ?_, fun h => ?_, fun h => ?_⟩
  · have hkeyr : ∀ k, keyrWrite v (s.withOks k) = (keyrWrite v s).map (·.withOks k) := fun k =>
      congrArg some (presentKey_withOks v s k)
    obtain ⟨hoks, hcomm⟩ := issue_ignores_oks hkeyr h
    exact ⟨hoks, hcomm x⟩
  · obtain ⟨hoks, hcomm⟩ := issue_ignores_oks (crWrite_withOks v s) h
    exact ⟨hoks, hcomm x⟩
  · have hoptkeyr : ∀ k, optkeyrWrite v (s.withKs k) = (optkeyrWrite v s).map (·.withKs k) := fun k =>
      congrArg some (presentOptKey_withKs v s k)
    obtain ⟨hks, hcomm⟩ := issue_ignores_ks hoptkeyr h
    exact ⟨hks, hcomm x⟩
  · obtain ⟨hks, hcomm⟩ := issue_ignores_ks (optcrWrite_withKs v s) h
    exact ⟨hks, hcomm x⟩

/-- Settles O29: the four rows of the truth table, and the two protections read off it. -/
theorem protectionFollowsTheTruthTable : Obligations.ProtectionFollowsTheTruthTable := by
  unfold Obligations.ProtectionFollowsTheTruthTable
  refine ⟨fun b i _ => ?_, fun ob i _ => ⟨wprot_iff ob i, rprot_iff ob i⟩⟩
  refine ⟨fun hb => ?_, fun hb => ?_, fun hb => ?_, fun hb => ?_⟩ <;> rw [level_eq, hb] <;> rfl

/-- Settles O30: a sector map that is admitted covers the array, by induction on its rows. -/
theorem sectorsCoverTheArrayExactly : Obligations.SectorsCoverTheArrayExactly := by
  unfold Obligations.SectorsCoverTheArrayExactly
  refine ⟨?_, ?_⟩
  · rintro p rfl
    exact ⟨sectorMapOk_default, rfl, rfl, rfl, rfl⟩
  · rintro p m h rfl
    exact ⟨fun i => sectorRange_size_of_ge h, fun a => ⟨in_array_iff_sectorOf h a, sectorOf_eq_some_iff h a⟩⟩

/-- Settles O42: every read is evaluated on the launch state. -/
theorem launchRegistersReadTheirResetValues : Obligations.LaunchRegistersReadTheirResetValues := by
  unfold Obligations.LaunchRegistersReadTheirResetValues
  rintro p m s rfl hrsvd
  refine ⟨rfl, rfl, rfl, rfl, rfl, ?_, rfl, rfl, ?_, ?_, ?_⟩
  · rw [← regvalAcr_launch p OptFields.factory m]
    rfl
  · rw [← regvalSr_launch p OptFields.factory m]
    rfl
  · rw [← regvalCr_launch p OptFields.factory m]
    rfl
  · rw [← regvalOptcr_launch_factory m hrsvd]
    rfl

end Sys2Proof

/-! # How commands begin (rules R54, R118, R230) -/

namespace Sys2Proof.Machine

/-! ## Operand checks that pass (rules R118, R239, R240, R243) -/

theorem eraseSectorOk_eq_true {p : Params} {n : Word} (h : n.toNat < 2 ^ p.snbWidth) : eraseSectorOk p n = true :=
  decide_eq_true h

theorem setProtectionOk_eq_true {p : Params} {l m : Word} (hl : l.toNat ≤ 2) (hm : m.toNat < 2 ^ p.wrpWidth) :
    setProtectionOk p l m = true :=
  Bool.and_eq_true_iff.mpr ⟨(levelOfCode_isSome_iff l).mpr hl, decide_eq_true hm⟩

theorem writeOk_eq_true {p : Params} {a n : Word} {d : List Byte} (ha : a.toNat % 4 = 0) (hd : d.length = n.toNat)
    (hr : n.toNat = 0 ∨ (p.arrayBase ≤ a.toNat ∧ a.toNat + 4 * ((n.toNat + 3) / 4) - 1 ≤ p.arrayLast)) :
    writeOk p a n d = true := by
  have hn : n = 0 ↔ n.toNat = 0 := by rw [← BitVec.toNat_inj]; rfl
  simp only [writeOk, writeWords, Bool.and_eq_true, Bool.or_eq_true, decide_eq_true_eq, hn]
  exact ⟨⟨ha, hd⟩, hr.imp_right fun ⟨hlo, hhi⟩ => ⟨hlo, decide_eq_true hhi⟩⟩

/-! ## First transactions -/

theorem Ready.unmarked {s : State} (h : Ready s) : marked s = false := marked_eq_false h.1 h.2.1

/-- A command that begins with a register read goes on, with the word read as its `t`. -/
theorem begins_with_read {i : Instr} {e : Expansion} {r : FlashReg} {s t : State} (hs : Ready s)
    (hi : exec i s = .next (runCommand i true e s)) (h0 : e.txnAt 0 = some (.rd r)) (h1 : (e.txnAt 1).isSome = true)
    (ht : readReg r s = some t) :
    exec i s = .next { t with run := some ⟨i, 1, t.rdata, []⟩, held := false } := by
  have hm : marked t = false := by rw [readReg_frame ht]; exact hs.unmarked
  obtain ⟨-, -, hrun⟩ := hs
  rw [hi, runCommand_start hrun, continueAt_goes (p := ⟨i, 0, 0, []⟩) h0 ht hm h1]
  rfl

/-- A command that begins with a register write goes on, or stops at it when the write raised BusError. -/
theorem begins_with_write {i : Instr} {e : Expansion} {r : FlashReg} {v : Word} {s t : State} (hs : Ready s)
    (hi : exec i s = .next (runCommand i true e s)) (h0 : e.txnAt 0 = some (.wr r v))
    (h1 : (e.txnAt 1).isSome = true) (ht : writeReg r v s = some t) :
    exec i s = .next { t with run := some ⟨i, if t.fault = none then 1 else 0, 0, []⟩, held := false } := by
  obtain ⟨-, hrefused, hrun⟩ := hs
  have hr : t.refused = false := by rw [writeReg_frame ht]; exact hrefused
  rw [hi, runCommand_start hrun]
  cases hf : t.fault with
  | none =>
    rw [continueAt_goes (p := ⟨i, 0, 0, []⟩) h0 ht (marked_eq_false hf hr) h1]
    simp only [hf]
    rfl
  | some k =>
    have hm : marked t = true := by simp [marked, hf]
    rw [continueAt_marked (p := ⟨i, 0, 0, []⟩) h0 ht hm]
    simp only [hf]
    rfl

/-- The commands that begin with UNLOCK's first write (rules R233, R239 to R241), with their operand checks. -/
def BeginsWithUnlock (p : Params) (i : Instr) : Prop :=
  i = .unlock ∨ i = .eraseAll ∨ (∃ n : Word, n.toNat < 2 ^ p.snbWidth ∧ i = .eraseSector n) ∨
    ∃ (a n : Word) (d : List Byte), i = .write a n d ∧ a.toNat % 4 = 0 ∧ d.length = n.toNat ∧
      (n.toNat = 0 ∨ (p.arrayBase ≤ a.toNat ∧ a.toNat + 4 * ((n.toNat + 3) / 4) - 1 ≤ p.arrayLast))

/-- The commands that begin with OPT_UNLOCK's first write (rules R235, R243), with their operand checks. -/
def BeginsWithOptUnlock (p : Params) (i : Instr) : Prop :=
  i = .optUnlock ∨ ∃ l m : Word, l.toNat ≤ 2 ∧ m.toNat < 2 ^ p.wrpWidth ∧ i = .setProtection l m

theorem BeginsWithUnlock.exec {i : Instr} {s : State} (h : BeginsWithUnlock s.params i) :
    ∃ e : Expansion, exec i s = .next (runCommand i true e s) ∧ e.txnAt 0 = some (.wr .keyr s.params.key1) ∧
      (e.txnAt 1).isSome = true := by
  rcases h with rfl | rfl | ⟨n, hn, rfl⟩ | ⟨a, n, d, rfl, ha, hd, hr⟩
  · exact ⟨_, rfl, rfl, rfl⟩
  · exact ⟨_, rfl, rfl, rfl⟩
  · refine ⟨Expansion.ofList (eraseSectorTxns s.params n), ?_, rfl, rfl⟩
    rw [← eraseSectorOk_eq_true hn]
    rfl
  · refine ⟨writeExpansion s.params a n d, ?_, rfl, rfl⟩
    rw [← writeOk_eq_true ha hd hr]
    rfl

theorem exec_setProtection {l m : Word} {s : State} (hl : l.toNat ≤ 2) (hm : m.toNat < 2 ^ s.params.wrpWidth) :
    exec (.setProtection l m) s =
      .next (runCommand (.setProtection l m) true (Expansion.ofList (setProtectionTxns s.params l m)) s) := by
  rw [← setProtectionOk_eq_true hl hm]
  rfl

theorem BeginsWithOptUnlock.exec {i : Instr} {s : State} (h : BeginsWithOptUnlock s.params i) :
    ∃ e : Expansion, exec i s = .next (runCommand i true e s) ∧ e.txnAt 0 = some (.wr .optkeyr s.params.optkey1) ∧
      (e.txnAt 1).isSome = true := by
  rcases h with rfl | ⟨l, m, hl, hm, rfl⟩
  · exact ⟨_, rfl, rfl, rfl⟩
  · exact ⟨_, exec_setProtection hl hm, rfl, rfl⟩

end Sys2Proof.Machine

namespace Sys2Proof

open Machine

/-- Settles O46: the first transaction is a register read or a key write, and the command goes on or stops at it. -/
theorem commandsBeginWithTheirFirstTransaction : Obligations.CommandsBeginWithTheirFirstTransaction := by
  unfold Obligations.CommandsBeginWithTheirFirstTransaction
  intro s hs
  refine ⟨⟨_, rfl, fun f => begins_with_read hs (t := s.withRdata (regvalAcr s)) rfl rfl rfl rfl⟩,
    ⟨_, rfl, begins_with_read hs (t := s.withRdata (regvalCr s)) rfl rfl rfl rfl⟩,
    ⟨_, rfl, begins_with_read hs (t := s.withRdata (regvalOptcr s)) rfl rfl rfl rfl⟩,
    ⟨_, rfl, fun i (hi : BeginsWithUnlock s.params i) => ?_⟩,
    ⟨_, rfl, fun i (hi : BeginsWithOptUnlock s.params i) => ?_⟩⟩
  · obtain ⟨e, hexec, h0, h1⟩ := hi.exec
    exact begins_with_write hs hexec h0 h1 (t := presentKey s.params.key1 s) rfl
  · obtain ⟨e, hexec, h0, h1⟩ := hi.exec
    exact begins_with_write hs hexec h0 h1 (t := presentOptKey s.params.optkey1 s) rfl

end Sys2Proof

/-! # The run of SET_PROTECTION, and what GET_PROTECTION reports after it (rules R204, R235, R242, R243) -/

namespace Sys2Proof.Machine

/-! ## One cycle of a command -/

theorem engineStep_idle {s : State} (h : s.pend = .none) : engineStep s = s := by simp only [engineStep, h]

theorem cycles_succ {n : Nat} {i : Instr} {s u : State} (h : exec i s = .next u) :
    cycles (n + 1) i s = cycles n i (engineStep u) := by
  simp only [cycles, h]

/-- A command under way runs the transaction at its position. -/
theorem exec_under_way {i : Instr} {e : Expansion} {p : Position} {s : State} (hi : expansionOf s.params i = some e)
    (hrun : s.run = some p) (hp : p.cmd = i) : exec i s = .next (continueAt e p s) := by
  obtain ⟨ok, h⟩ := exec_of_expansionOf hi
  rw [h, runCommand_at hrun hp]

theorem txnAt_ofList_of_drop {us rest : List Micro} {u : Micro} {k : Nat} (h : us.drop k = u :: rest) :
    (Expansion.ofList us).txnAt k = some u := by
  show us[k]? = some u
  rw [← List.head?_drop, h]
  rfl

theorem drop_succ_of_drop {us rest : List Micro} {u : Micro} {k : Nat} (h : us.drop k = u :: rest) :
    us.drop (k + 1) = rest := by
  rw [← List.tail_drop, h]
  rfl

theorem drop_length_of_drop {us xs rest : List Micro} {k : Nat} (h : us.drop k = xs ++ rest) :
    us.drop (k + xs.length) = rest := by
  rw [← List.drop_drop, h, List.drop_left]

section Cycle

variable {i : Instr} {us rest : List Micro} {u w : Micro} {p q : Position} {s t : State}
  (n : Nat) (hi : expansionOf s.params i = some (Expansion.ofList us)) (hrun : s.run = some p) (hp : p.cmd = i)
  (hrem : us.drop p.idx = u :: w :: rest) (ht : microTxn u p s = some t) (hm : marked t = false)
  (hpad : padDraws u = 0) (hq : advance u t.rdata p = q) (hidx : q.idx = p.idx + 1)
include hi hrun hp hrem ht hm hpad hq hidx

/-- A cycle whose transaction `u` completes, with `w` left after it: the command goes on, then the engine steps. -/
theorem cycles_goes : cycles (n + 1) i s = cycles n i (engineStep { t with run := some q, held := false }) := by
  have hnext : ((Expansion.ofList us).txnAt (advance u t.rdata p).idx).isSome = true := by
    rw [hq, hidx, txnAt_ofList_of_drop (drop_succ_of_drop hrem)]
    rfl
  have hgo := continueAt_goes (txnAt_ofList_of_drop hrem) ht hm hnext
  rw [hpad, hq] at hgo
  rw [cycles_succ (exec_under_way hi hrun hp), hgo]
  rfl

/-- The same when the transaction leaves nothing pending. -/
theorem cycles_goes_idle (hidle : t.pend = .none) :
    cycles (n + 1) i s = cycles n i { t with run := some q, held := false } := by
  have hengine := engineStep_idle (s := { t with run := some q, held := false }) hidle
  rw [cycles_goes n hi hrun hp hrem ht hm hpad hq hidx, hengine]

end Cycle

/-! ## Read-modify-writes of OPTCR -/

/-- A mask or value that names none of the low 16 bits of OPTCR: it reaches nWRP and SPRMOD alone (rule R40). -/
def HighOnly (c : Word) : Prop := ∀ j, j < 16 → c.getLsbD j = false

/-- The option fields after a read-modify-write of nWRP and SPRMOD (rules R122, R153). -/
def OptFields.modify (p : Params) (f : OptFields) (c m : Word) : OptFields :=
  { f with
    nwrp := f.nwrp &&& ~~~((c.extractLsb' 16 p.wrpWidth).setWidth 8) ||| (m.extractLsb' 16 p.wrpWidth).setWidth 8
    sprmod := (f.sprmod && !c.getLsbD 31) || m.getLsbD 31 }

/-- Read back from OPTCR, modified above bit 15 or in the two lock and start bits, and written: the other fields
stay. -/
theorem optOfWord_modify {s : State} {c m : Word} (hf : s.optcr.nwrp.toNat < 2 ^ s.params.wrpWidth)
    (hc : ∀ j, 2 ≤ j → j < 16 → c.getLsbD j = false) (hm : ∀ j, 2 ≤ j → j < 16 → m.getLsbD j = false) :
    optOfWord s.params (regvalOptcr s &&& ~~~c ||| m) = s.optcr.modify s.params c m := by
  have zero : ∀ {x : Word}, (∀ j, 2 ≤ j → j < 16 → x.getLsbD j = false) →
      x.extractLsb' 8 8 = 0 ∧ x.extractLsb' 2 2 = 0 ∧ x.getLsbD 5 = false ∧ x.getLsbD 6 = false ∧
        x.getLsbD 7 = false := fun hx =>
    ⟨extractLsb'_eq_zero fun j hj => hx (8 + j) (by omega) (by omega),
      extractLsb'_eq_zero fun j hj => hx (2 + j) (by omega) (by omega), hx 5 (by decide) (by decide),
      hx 6 (by decide) (by decide), hx 7 (by decide) (by decide)⟩
  obtain ⟨hc8, hc2, hc5, hc6, hc7⟩ := zero hc
  obtain ⟨hm8, hm2, hm5, hm6, hm7⟩ := zero hm
  have h31 : (regvalOptcr s).getLsbD 31 = s.optcr.sprmod := getLsbD_regvalOptcr s 31
  have h5 : (regvalOptcr s).getLsbD 5 = s.optcr.wdgSw := getLsbD_regvalOptcr s 5
  have h6 : (regvalOptcr s).getLsbD 6 = s.optcr.nrstStop := getLsbD_regvalOptcr s 6
  have h7 : (regvalOptcr s).getLsbD 7 = s.optcr.nrstStdby := getLsbD_regvalOptcr s 7
  rw [optOfWord_mod, nwrp_regvalOptcr hf, rdp_regvalOptcr, borLev_regvalOptcr, h31, h5, h6, h7, hc8, hc2, hc5, hc6,
    hc7, hm8, hm2, hm5, hm6, hm7]
  simp only [OptFields.modify, BitVec.ofNat_eq_ofNat, BitVec.not_zero, BitVec.and_allOnes, BitVec.or_zero,
    Bool.not_false, Bool.and_true, Bool.or_false]

/-- What a modification leaves in nWRP, bit by bit (rule R40). -/
theorem OptFields.getLsbD_modify_nwrp (p : Params) (f : OptFields) (c m : Word) {i : Nat} (hi : i < 8) :
    (f.modify p c m).nwrp.getLsbD i =
      ((f.nwrp.getLsbD i && !(decide (i < p.wrpWidth) && c.getLsbD (16 + i))) ||
        (decide (i < p.wrpWidth) && m.getLsbD (16 + i))) := by
  simp only [OptFields.modify, BitVec.getLsbD_or, BitVec.getLsbD_and, BitVec.getLsbD_not, getLsbD_field _ _ _ _ hi,
    decide_eq_true hi, Bool.true_and]

/-- Setting the start or the lock bit modifies no field. -/
theorem OptFields.modify_of_low (p : Params) (f : OptFields) {m : Word} (hm : m.toNat < 2 ^ 2) :
    f.modify p 0 m = f := by
  have hbit : ∀ j, 2 ≤ j → m.getLsbD j = false := fun j hj => getLsbD_of_toNat_lt hm hj
  have hnwrp : (f.modify p 0 m).nwrp = f.nwrp := by
    apply BitVec.eq_of_getLsbD_eq
    intro i hi
    rw [getLsbD_modify_nwrp p f 0 m hi, hbit (16 + i) (by omega)]
    simp
  have hsprmod : (f.modify p 0 m).sprmod = f.sprmod := by
    rw [modify, hbit 31 (by decide)]
    simp
  change { f with nwrp := (f.modify p 0 m).nwrp, sprmod := (f.modify p 0 m).sprmod } = f
  rw [hnwrp, hsprmod]

/-- A bitmap that fits its width still fits after a modification (rule R5). -/
theorem OptFields.modify_fits {p : Params} {f : OptFields} (hf : f.nwrp.toNat < 2 ^ p.wrpWidth) (c m : Word) :
    (f.modify p c m).nwrp.toNat < 2 ^ p.wrpWidth := by
  simp only [modify, BitVec.toNat_or, BitVec.toNat_and]
  exact Nat.or_lt_two_pow (Nat.lt_of_le_of_lt Nat.and_le_left hf) (field_lt m 16 p.wrpWidth)

/-- A read-modify-write of an open and idle OPTCR, from the word it reads as (rules R122, R153). -/
theorem optcrWrite_modify {s : State} {c m : Word} (hp : s.pend = .none) (hk : s.oks = .opened)
    (hf : s.optcr.nwrp.toNat < 2 ^ s.params.wrpWidth) (hc : ∀ j, 2 ≤ j → j < 16 → c.getLsbD j = false)
    (hm : ∀ j, 2 ≤ j → j < 16 → m.getLsbD j = false) :
    optcrWrite (regvalOptcr s &&& ~~~c ||| m) s = some { s with
      optcr := s.optcr.modify s.params c m
      pend := if m.getLsbD 1 = true then .optCommit (s.optcr.modify s.params c m) else .none
      oks := if m.getLsbD 0 = true then .wait1 else .opened } := by
  have h0 : (regvalOptcr s).getLsbD 0 = false :=
    (getLsbD_regvalOptcr s 0).trans ((isLocked_eq_false_iff s.oks).mpr hk)
  have hstart : optstrtBit s = false := by simp only [optstrtBit, hp]
  have h1 : (regvalOptcr s).getLsbD 1 = false := (getLsbD_regvalOptcr s 1).trans hstart
  rw [optcrWrite_open hp hk, optOfWord_modify hf hc hm, getLsbD_mod _ _ _ (show 0 < 32 by decide),
    getLsbD_mod _ _ _ (show 1 < 32 by decide), h0, h1]
  rfl

/-- The same for a write that names the start and the lock bit alone. -/
theorem optcrWrite_low {s : State} {m : Word} (hp : s.pend = .none) (hk : s.oks = .opened)
    (hf : s.optcr.nwrp.toNat < 2 ^ s.params.wrpWidth) (hm : m.toNat < 2 ^ 2) :
    optcrWrite (regvalOptcr s &&& ~~~0 ||| m) s = some { s with
      pend := if m.getLsbD 1 = true then .optCommit s.optcr else .none
      oks := if m.getLsbD 0 = true then .wait1 else .opened } := by
  rw [optcrWrite_modify (c := 0) hp hk hf (fun j _ _ => BitVec.getLsbD_zero) (fun j hj _ => getLsbD_of_toNat_lt hm hj),
    OptFields.modify_of_low s.params s.optcr hm]

/-! ## A command with OPTCR open -/

/-- `s` with OPTCR open and holding the fields `f`, and the command `i` standing at its transaction `k` with `v` as the
word it last read. -/
def optionStage (s : State) (i : Instr) (k : Nat) (f : OptFields) (v : Word) : State :=
  { s with optcr := f, oks := .opened, rdata := v, run := some ⟨i, k, v, []⟩, held := false }

/-- OPTCR's word while it is open and holds the fields `f`. -/
def openOptcr (s : State) (f : OptFields) : Word := regvalOptcr { s with optcr := f, oks := .opened }

/-- `s` with the option key machine in state `k`, and a command standing at `p`. -/
def keyStage (s : State) (k : KeyState) (p : Position) : State := { s with oks := k, run := some p, held := false }

/-- The transactions of some read-modify-writes of OPTCR, each a mask to clear and a value to set (rule R122). -/
def modsTxns (qs : List (Word × Word)) : List Micro := qs.flatMap fun q => mod32 .optcr q.1 q.2

/-- The fields that those read-modify-writes leave. -/
def OptFields.modifyAll (p : Params) (f : OptFields) (qs : List (Word × Word)) : OptFields :=
  qs.foldl (fun g q => g.modify p q.1 q.2) f

theorem modsTxns_length (qs : List (Word × Word)) : (modsTxns qs).length = 2 * qs.length := by
  induction qs with
  | nil => rfl
  | cons q qs ih =>
    have hcons : modsTxns (q :: qs) = mod32 .optcr q.1 q.2 ++ modsTxns qs := rfl
    rw [hcons, List.length_append, ih, List.length_cons, mod32]
    simp only [List.length_cons, List.length_nil]
    omega

theorem OptFields.modifyAll_fits {p : Params} (qs : List (Word × Word)) {f : OptFields}
    (hf : f.nwrp.toNat < 2 ^ p.wrpWidth) : (f.modifyAll p qs).nwrp.toNat < 2 ^ p.wrpWidth := by
  induction qs generalizing f with
  | nil => exact hf
  | cons q qs ih => exact ih (modify_fits hf q.1 q.2)

/-- The option bytes and the count of draws after the commit of `f` (rule R204). -/
def afterCommit (s : State) (f : OptFields) : State :=
  { s with ob := (completeOptionCommit f s).ob, draws := (completeOptionCommit f s).draws }

/-- A commit looks at the parameters, the option bytes and the draws alone (rule R204). -/
theorem completeOptionCommit_congr {s t : State} (f : OptFields) (hparams : t.params = s.params) (hob : t.ob = s.ob)
    (hdraws : t.draws = s.draws) :
    (completeOptionCommit f t).ob = (completeOptionCommit f s).ob ∧
      (completeOptionCommit f t).draws = (completeOptionCommit f s).draws := by
  simp only [completeOptionCommit, hparams, hob, hdraws]
  split
  · exact ⟨rfl, rfl⟩
  · exact ⟨rfl, hdraws⟩

/-- The engine completes a commit. -/
theorem engineStep_optCommit {s : State} {f : OptFields} (h : s.pend = .optCommit f) :
    engineStep s = { s with
      pend := .none, ob := (completeOptionCommit f s).ob, draws := (completeOptionCommit f s).draws } := by
  simp only [engineStep, h]
  exact completeOptionCommit_frame f s

section Option

variable {i : Instr} {us rest : List Micro} {s : State} {f : OptFields} {k : Nat} {v c m : Word} {w : Micro}
  (n : Nat) (hi : expansionOf s.params i = some (Expansion.ofList us)) (hm : marked s = false) (hp : s.pend = .none)
include hi hm hp

/-- OPT_UNLOCK's three transactions, at the beginning of a command (rule R235). -/
theorem cycles_optUnlock (hstart : exec i s = .next (runCommand i true (Expansion.ofList us) s)) (hrun : s.run = none)
    (hoks : s.oks = .wait1) (hus : us = optUnlockTxns s.params ++ w :: rest) :
    cycles (n + 3) i s = cycles n i (optionStage s i 3 s.optcr (regvalSr s)) := by
  subst hus
  have same : ∀ x, sameKey s.params.keyWidth x x = true := fun x => decide_eq_true rfl
  have hkey1 : microTxn (.wr .optkeyr s.params.optkey1) ⟨i, 0, 0, []⟩ s = some (s.withOks .wait2) :=
    microTxn_optkeyr (by rw [hoks, keyNext_wait1 (same _)])
  have hfirst : exec i s = .next (keyStage s .wait2 ⟨i, 1, 0, []⟩) := by
    rw [hstart, runCommand_start hrun, continueAt_goes (p := ⟨i, 0, 0, []⟩) rfl hkey1 hm rfl]
    rfl
  have hkey2 : microTxn (.wr .optkeyr s.params.optkey2) ⟨i, 1, 0, []⟩ (keyStage s .wait2 ⟨i, 1, 0, []⟩) =
      some ((keyStage s .wait2 ⟨i, 1, 0, []⟩).withOks .opened) :=
    microTxn_optkeyr (keyNext_wait2 (same _))
  calc
    cycles (n + 3) i s = cycles (n + 2) i (keyStage s .wait2 ⟨i, 1, 0, []⟩) := by
      rw [cycles_succ hfirst, engineStep_idle (s := keyStage s .wait2 ⟨i, 1, 0, []⟩) hp]
    _ = cycles (n + 1) i (keyStage s .opened ⟨i, 2, 0, []⟩) :=
      cycles_goes_idle (n + 1) (s := keyStage s .wait2 ⟨i, 1, 0, []⟩) hi rfl rfl rfl hkey2 hm rfl rfl rfl hp
    _ = cycles n i (optionStage s i 3 s.optcr (regvalSr s)) :=
      cycles_goes_idle n (s := keyStage s .opened ⟨i, 2, 0, []⟩) hi rfl rfl rfl
        (t := (keyStage s .opened ⟨i, 2, 0, []⟩).withRdata (regvalSr s)) rfl hm rfl
        (advance_poll_idle (s := s) hp) rfl hp

/-- A read of OPTCR inside a command (rule R122). -/
theorem cycles_readOptcr (hrem : us.drop k = .rd .optcr :: w :: rest) :
    cycles (n + 1) i (optionStage s i k f v) = cycles n i (optionStage s i (k + 1) f (openOptcr s f)) :=
  cycles_goes_idle n (s := optionStage s i k f v) hi rfl rfl hrem
    (t := (optionStage s i k f v).withRdata (openOptcr s f)) rfl hm rfl rfl rfl hp

/-- A poll inside a command, with nothing pending (rule R244). -/
theorem cycles_pollIdle (hrem : us.drop k = .poll .sr 0x00010000 :: w :: rest) :
    cycles (n + 1) i (optionStage s i k f v) = cycles n i (optionStage s i (k + 1) f (regvalSr s)) :=
  cycles_goes_idle n (s := optionStage s i k f v) hi rfl rfl hrem
    (t := (optionStage s i k f v).withRdata (regvalSr s)) rfl hm rfl (advance_poll_idle (s := s) hp) rfl hp

/-- A write that modifies the fields it names, and starts and locks nothing (rule R122). -/
theorem cycles_modify (hf : f.nwrp.toNat < 2 ^ s.params.wrpWidth) (hc : HighOnly c) (hx : HighOnly m)
    (hrem : us.drop k = .wrMod .optcr c m :: w :: rest) :
    cycles (n + 1) i (optionStage s i k f (openOptcr s f)) =
      cycles n i (optionStage s i (k + 1) (f.modify s.params c m) (openOptcr s f)) := by
  have hwrite := optcrWrite_modify (s := optionStage s i k f (openOptcr s f)) (c := c) (m := m) hp rfl hf
    (fun j _ => hc j) (fun j _ => hx j)
  rw [hx 0 (by decide), hx 1 (by decide)] at hwrite
  have hgo := cycles_goes_idle n (s := optionStage s i k f (openOptcr s f)) hi rfl rfl hrem hwrite hm rfl rfl rfl rfl
  simp only [Bool.false_eq_true, if_false, ← hp] at hgo
  exact hgo

/-- The read-modify-writes of `qs`, with more transactions left after them. -/
theorem cycles_mods (qs : List (Word × Word)) (hq : ∀ q ∈ qs, HighOnly q.1 ∧ HighOnly q.2) {f : OptFields} {k : Nat}
    {v : Word} (hf : f.nwrp.toNat < 2 ^ s.params.wrpWidth) (hrem : us.drop k = modsTxns qs ++ w :: rest) :
    ∃ v', cycles (n + 2 * qs.length) i (optionStage s i k f v) =
      cycles n i (optionStage s i (k + 2 * qs.length) (f.modifyAll s.params qs) v') := by
  induction qs generalizing f k v with
  | nil => exact ⟨v, rfl⟩
  | cons q qs ih =>
    obtain ⟨hc, hx⟩ := hq q List.mem_cons_self
    obtain ⟨w', rest', hleft⟩ : ∃ w' rest', modsTxns qs ++ w :: rest = w' :: rest' :=
      List.exists_cons_of_ne_nil (by simp)
    have hread : us.drop k = .rd .optcr :: .wrMod .optcr q.1 q.2 :: (modsTxns qs ++ w :: rest) := hrem
    have hwrite := drop_succ_of_drop hread
    obtain ⟨v', hv'⟩ := ih (fun x hx => hq x (List.mem_cons_of_mem q hx)) (v := openOptcr s f)
      (OptFields.modify_fits hf q.1 q.2) (drop_succ_of_drop hwrite)
    rw [hleft] at hwrite
    have hlen : k + 1 + 1 + 2 * qs.length = k + 2 * (qs.length + 1) := by omega
    rw [hlen] at hv'
    refine ⟨v', ?_⟩
    calc
      cycles (n + 2 * (qs.length + 1)) i (optionStage s i k f v)
        = cycles (n + 2 * qs.length + 1) i (optionStage s i (k + 1) f (openOptcr s f)) :=
        cycles_readOptcr (n + 2 * qs.length + 1) hi hm hp hread
      _ = cycles (n + 2 * qs.length) i (optionStage s i (k + 1 + 1) (f.modify s.params q.1 q.2) (openOptcr s f)) :=
        cycles_modify _ hi hm hp hf hc hx hwrite
      _ = _ := hv'

/-- The write that sets OPTSTRT, and the commit that the engine completes (rules R154, R204). -/
theorem cycles_commit (hf : f.nwrp.toNat < 2 ^ s.params.wrpWidth)
    (hrem : us.drop k = .wrMod .optcr 0 0x00000002 :: w :: rest) :
    cycles (n + 1) i (optionStage s i k f (openOptcr s f)) =
      cycles n i (optionStage (afterCommit s f) i (k + 1) f (openOptcr s f)) := by
  have hwrite := optcrWrite_low (s := optionStage s i k f (openOptcr s f)) (m := 0x00000002) hp rfl hf (by decide)
  have hgo := cycles_goes n (s := optionStage s i k f (openOptcr s f)) hi rfl rfl hrem hwrite hm rfl rfl rfl
  obtain ⟨hob, hdraws⟩ := completeOptionCommit_congr f
    (t := { optionStage s i (k + 1) f (openOptcr s f) with pend := .optCommit f }) (s := s) rfl rfl rfl
  have hengine := engineStep_optCommit
    (s := { optionStage s i (k + 1) f (openOptcr s f) with pend := .optCommit f }) rfl
  rw [hob, hdraws, ← hp] at hengine
  exact hgo.trans (congrArg (cycles n i) hengine)

/-- The write that sets OPTLOCK, the command's last transaction (rule R236). -/
theorem cycles_lock (hf : f.nwrp.toNat < 2 ^ s.params.wrpWidth) (hrem : us.drop k = [.wrMod .optcr 0 0x00000001]) :
    cycles 1 i (optionStage s i k f (openOptcr s f)) = .next { s with
      optcr := f, oks := .wait1, rdata := openOptcr s f, run := none, result := .nothing, held := false } := by
  have hwrite := optcrWrite_low (s := optionStage s i k f (openOptcr s f)) (m := 0x00000001) hp rfl hf (by decide)
  have hend : (Expansion.ofList us).txnAt (k + 1) = none := by
    show us[k + 1]? = none
    rw [← List.head?_drop, drop_succ_of_drop hrem]
    rfl
  have hends := continueAt_ends (u := .wrMod .optcr 0 0x00000001) (p := ⟨i, k, openOptcr s f, []⟩)
    (s := optionStage s i k f (openOptcr s f)) (txnAt_ofList_of_drop hrem) hwrite hm hend
  have hexec := exec_under_way (s := optionStage s i k f (openOptcr s f)) hi rfl rfl
  rw [cycles_succ (hexec.trans (congrArg _ hends)), engineStep_idle rfl, hp]
  rfl

/-- The commit, the wait and the lock at the end of a command (rules R236, R243, R244). -/
theorem cycles_commitAndLock (hf : f.nwrp.toNat < 2 ^ s.params.wrpWidth)
    (hrem : us.drop k = set32 .optcr 0x00000002 ++ pollIdle ++ optLockTxns) :
    cycles 5 i (optionStage s i k f v) = .next { afterCommit s f with
      optcr := f, oks := .wait1, rdata := openOptcr s f, run := none, result := .nothing, held := false } := by
  have hrem1 := drop_succ_of_drop hrem
  have hrem2 := drop_succ_of_drop hrem1
  have hrem3 := drop_succ_of_drop hrem2
  have hrem4 := drop_succ_of_drop hrem3
  calc
    cycles 5 i (optionStage s i k f v) = cycles 4 i (optionStage s i (k + 1) f (openOptcr s f)) :=
      cycles_readOptcr 4 hi hm hp hrem
    _ = cycles 3 i (optionStage (afterCommit s f) i (k + 2) f (openOptcr s f)) :=
      cycles_commit 3 hi hm hp hf hrem1
    _ = cycles 2 i (optionStage (afterCommit s f) i (k + 3) f (regvalSr s)) :=
      cycles_pollIdle 2 (s := afterCommit s f) hi hm hp hrem2
    _ = cycles 1 i (optionStage (afterCommit s f) i (k + 4) f (openOptcr s f)) :=
      cycles_readOptcr 1 (s := afterCommit s f) hi hm hp hrem3
    _ = _ := cycles_lock (s := afterCommit s f) hi hm hp hf hrem4

/-- A whole command that opens OPTCR, modifies it, commits and locks it again, with the engine after each
transaction. -/
theorem cycles_optionCommand (qs : List (Word × Word)) (hq : ∀ q ∈ qs, HighOnly q.1 ∧ HighOnly q.2)
    (hstart : exec i s = .next (runCommand i true (Expansion.ofList us) s)) (hrun : s.run = none)
    (hoks : s.oks = .wait1) (hf : s.optcr.nwrp.toNat < 2 ^ s.params.wrpWidth) (hfg : f = s.optcr.modifyAll s.params qs)
    (hus : us = optUnlockTxns s.params ++ (modsTxns qs ++ (set32 .optcr 0x00000002 ++ pollIdle ++ optLockTxns))) :
    cycles (5 + 2 * qs.length + 3) i s = .next { afterCommit s f with
      optcr := f, rdata := openOptcr s f, result := .nothing, held := false } := by
  subst hfg
  obtain ⟨w, rest, hleft⟩ : ∃ w rest, modsTxns qs ++ (set32 .optcr 0x00000002 ++ pollIdle ++ optLockTxns) = w :: rest :=
    List.exists_cons_of_ne_nil (List.append_ne_nil_of_right_ne_nil _ (List.cons_ne_nil _ _))
  have hunlock := cycles_optUnlock (5 + 2 * qs.length) hi hm hp hstart hrun hoks (by rw [hus, hleft])
  have hmods : us.drop 3 = modsTxns qs ++ (set32 .optcr 0x00000002 ++ pollIdle ++ optLockTxns) := by
    rw [hus]
    rfl
  obtain ⟨v, hwrites⟩ := cycles_mods 5 hi hm hp qs hq (v := regvalSr s) hf hmods
  have hlast := drop_length_of_drop hmods
  rw [modsTxns_length] at hlast
  have hcommit := cycles_commitAndLock (v := v) hi hm hp (OptFields.modifyAll_fits qs hf) hlast
  rw [hunlock, hwrites, hcommit, ← hoks, ← hrun]
  rfl

end Option

/-! ## SET_PROTECTION -/

/-- The read-modify-writes of SET_PROTECTION's three branches (rule R243), as in `protectionBranch`. -/
def protectionMods (all m : Word) : Level → List (Word × Word)
  | .readWrite => [(0, 0x80000000), (all, 0), (0, m)]
  | .write => [(0x80000000, 0), (0, all), (m, 0)]
  | .none => [(0x80000000, 0), (0, m)]

theorem modsTxns_protectionMods (all m : Word) (l : Level) :
    modsTxns (protectionMods all m l) = protectionBranch all m l := by
  cases l <;> rfl

theorem highOnly_fieldMask (n : Nat) : HighOnly (fieldMask 16 n) := fun j hj => by
  rw [getLsbD_fieldMask, decide_eq_false (Nat.not_le.mpr hj), Bool.and_false, Bool.false_and]

theorem highOnly_shiftLeft (x : Word) : HighOnly (x <<< 16) := fun j hj => by
  rw [BitVec.getLsbD_shiftLeft, decide_eq_true hj, Bool.not_true, Bool.and_false, Bool.false_and]

theorem highOnly_zero : HighOnly 0 := fun _ _ => BitVec.getLsbD_zero

theorem highOnly_sprmod : HighOnly 0x80000000 := by
  intro j hj
  interval_cases j <;> rfl

/-- The three branches touch nWRP and SPRMOD alone. -/
theorem highOnly_protectionMods (n : Nat) (x : Word) (l : Level) :
    ∀ q ∈ protectionMods (fieldMask 16 n) (x <<< 16) l, HighOnly q.1 ∧ HighOnly q.2 := by
  have h0 := highOnly_zero
  have hs := highOnly_sprmod
  have hm := highOnly_fieldMask n
  have hx := highOnly_shiftLeft x
  cases l <;> simp only [protectionMods, List.forall_mem_cons, List.not_mem_nil, false_implies, implies_true, and_true]
  · exact ⟨⟨hs, h0⟩, h0, hx⟩
  · exact ⟨⟨hs, h0⟩, ⟨h0, hm⟩, hx, h0⟩
  · exact ⟨⟨h0, hs⟩, ⟨hm, h0⟩, h0, hx⟩

/-- The fields that SET_PROTECTION writes to OPTCR (rule R243). -/
def protectionFields (p : Params) (f : OptFields) (mask : Word) (l : Level) : OptFields :=
  f.modifyAll p (protectionMods (fieldMask 16 p.wrpWidth) (mask <<< 16) l)

theorem setProtectionTxns_eq {p : Params} {lev mask : Word} {l : Level} (h : levelOfCode lev = some l) :
    setProtectionTxns p lev mask =
      optUnlockTxns p ++ (modsTxns (protectionMods (fieldMask 16 p.wrpWidth) (mask <<< 16) l) ++
        (set32 .optcr 0x00000002 ++ pollIdle ++ optLockTxns)) := by
  simp only [setProtectionTxns, h, Option.map_some, Option.getD_some, modsTxns_protectionMods, List.append_assoc]

/-- The whole run of SET_PROTECTION with the engine after each transaction: the fields are written, committed and
OPTCR is locked again (rules R204, R243). -/
theorem cycles_setProtection {lev mask : Word} {l : Level} {s : State} {f : OptFields} {n : Nat} (hs : Ready s)
    (hinv : Invariant s) (hp : s.pend = .none) (hoks : s.oks = .wait1) (hlev : levelOfCode lev = some l)
    (hmask : mask.toNat < 2 ^ s.params.wrpWidth) (hf : f = protectionFields s.params s.optcr mask l)
    (hn : n = 5 + 2 * (protectionMods (fieldMask 16 s.params.wrpWidth) (mask <<< 16) l).length + 3) :
    cycles n (.setProtection lev mask) s = .next { afterCommit s f with
      optcr := f, rdata := openOptcr s f, result := .nothing, held := false } := by
  have ⟨_, _, hrun⟩ := hs
  have hcode : lev.toNat ≤ 2 := (levelOfCode_isSome_iff lev).mp (by rw [hlev]; rfl)
  rw [hn]
  exact cycles_optionCommand rfl hs.unmarked hp _ (highOnly_protectionMods s.params.wrpWidth mask l)
    (exec_setProtection hcode hmask) hrun hoks hinv.nwrp_fits hf (setProtectionTxns_eq hlev)

/-- SET_PROTECTION sets SPRMOD for ReadWrite and clears it for the other levels (rule R243). -/
theorem protectionFields_sprmod {p : Params} (f : OptFields) {mask : Word} (l : Level) (hw : p.wrpWidth ≤ 8)
    (hmask : mask.toNat < 2 ^ p.wrpWidth) : (protectionFields p f mask l).sprmod = decide (l = .readWrite) := by
  have hall : (fieldMask 16 p.wrpWidth).getLsbD 31 = false := by
    rw [getLsbD_fieldMask, decide_eq_false (show ¬ 31 < 16 + p.wrpWidth by omega), Bool.and_false]
  have hm : (mask <<< 16).getLsbD 31 = false := by
    rw [BitVec.getLsbD_shiftLeft, getLsbD_of_toNat_lt hmask (show p.wrpWidth ≤ 31 - 16 by omega), Bool.and_false]
  cases l <;>
    simp only [protectionFields, protectionMods, OptFields.modifyAll, List.foldl, OptFields.modify, hall, hm] <;>
    cases f.sprmod <;> rfl

/-- A bit of the bitmap after SET_PROTECTION, from the bit before and the mask's (rule R243). -/
def protectionBit (old chosen : Bool) : Level → Bool
  | .readWrite => chosen
  | .write => !chosen
  | .none => old || chosen

theorem protectionFields_nwrp {p : Params} (f : OptFields) (mask : Word) (l : Level) (hw : p.wrpWidth ≤ 8) {i : Nat}
    (hi : i < p.wrpWidth) :
    (protectionFields p f mask l).nwrp.getLsbD i = protectionBit (f.nwrp.getLsbD i) (mask.getLsbD i) l := by
  have h8 : i < 8 := by omega
  have hall : (fieldMask 16 p.wrpWidth).getLsbD (16 + i) = true := by
    rw [getLsbD_fieldMask]
    simp only [Bool.and_eq_true, decide_eq_true_eq]
    omega
  have hm : (mask <<< 16).getLsbD (16 + i) = mask.getLsbD i := by
    rw [BitVec.getLsbD_shiftLeft, decide_eq_true (show 16 + i < 32 by omega),
      decide_eq_false (show ¬ 16 + i < 16 by omega), Nat.add_sub_cancel_left]
    rfl
  have h0 : (0 : Word).getLsbD (16 + i) = false := BitVec.getLsbD_zero
  have hs : (0x80000000 : Word).getLsbD (16 + i) = false := by interval_cases i <;> rfl
  cases l <;>
    simp only [protectionFields, protectionMods, OptFields.modifyAll, List.foldl,
      OptFields.getLsbD_modify_nwrp _ _ _ _ h8, hall, hm, h0, hs, decide_eq_true hi, protectionBit] <;>
    cases f.nwrp.getLsbD i <;> cases mask.getLsbD i <;> rfl

/-! ## GET_PROTECTION -/

/-- GET_PROTECTION completes after its one read, with the levels of OPTCR's fields (rule R242). -/
theorem exec_getProtection {s : State} (hs : Ready s) :
    exec .getProtection s = .next { s with
      rdata := regvalOptcr s, result := .levels (levelsOf s.params (regvalOptcr s)), run := none, held := false } := by
  have ⟨_, _, hrun⟩ := hs
  have hends := continueAt_ends (e := getProtectionExpansion s.params) (u := .rd .optcr)
    (p := ⟨.getProtection, 0, 0, []⟩) (s := s) (t := s.withRdata (regvalOptcr s)) rfl rfl hs.unmarked rfl
  exact congrArg Host.Outcome.next ((runCommand_start hrun).trans hends)

theorem levelsOf_regvalOptcr (s : State) :
    levelsOf s.params (regvalOptcr s) =
      (List.range s.params.nSectors).map fun i => levelCode (level s.optcr.sprmod s.optcr.nwrp i) := by
  have h31 : (regvalOptcr s).getLsbD 31 = s.optcr.sprmod := getLsbD_regvalOptcr s 31
  rw [levelsOf, bitmap_regvalOptcr, h31]

/-- After SET_PROTECTION of a level other than None, a chosen sector has that level and another has none. -/
theorem level_protectionFields {p : Params} (f : OptFields) {mask : Word} {l : Level} (hl : l ≠ .none)
    (hw : p.wrpWidth ≤ 8) (hmask : mask.toNat < 2 ^ p.wrpWidth) {i : Nat} (hi : i < p.wrpWidth) :
    level (protectionFields p f mask l).sprmod (protectionFields p f mask l).nwrp i =
      if mask.getLsbD i then l else .none := by
  rw [level_eq, protectionFields_sprmod f l hw hmask, protectionFields_nwrp f mask l hw hi]
  cases l with
  | none => exact absurd rfl hl
  | write | readWrite => cases mask.getLsbD i <;> rfl

/-- SET_PROTECTION of a level other than None, then GET_PROTECTION: the chosen sectors, and no other, have the level. -/
theorem getProtection_after_setProtection {mask : Word} {l : Level} {s : State} (hs : Ready s) (hinv : Invariant s)
    (hp : s.pend = .none) (hoks : s.oks = .wait1) (hl : l ≠ .none) (hmask : mask.toNat < 2 ^ s.params.wrpWidth) :
    ∃ t u : State, cycles 14 (.setProtection (levelCode l) mask) s = .next t ∧ exec .getProtection t = .next u ∧
      u.run = none ∧
      u.result = .levels ((List.range s.params.nSectors).map fun i => if mask.getLsbD i then levelCode l else 0) := by
  have hcount : 14 = 5 + 2 * (protectionMods (fieldMask 16 s.params.wrpWidth) (mask <<< 16) l).length + 3 := by
    cases l with
    | none => exact absurd rfl hl
    | write | readWrite => rfl
  refine ⟨_, _, cycles_setProtection hs hinv hp hoks (levelOfCode_levelCode l) hmask rfl hcount,
    exec_getProtection hs, rfl, ?_⟩
  refine congrArg CmdResult.levels ((levelsOf_regvalOptcr _).trans (List.map_congr_left fun i hi => ?_))
  have hsector : i < s.params.wrpWidth :=
    Nat.lt_of_lt_of_le (List.mem_range.mp hi) hinv.params_ok.sectors_bitmap
  have hlevel := level_protectionFields s.optcr hl hinv.params_ok.wrp_room hmask hsector
  refine (congrArg levelCode hlevel).trans ?_
  exact apply_ite levelCode (mask.getLsbD i = true) l .none

end Sys2Proof.Machine

namespace Sys2Proof

open Machine

/-- Settles O58: one run of SET_PROTECTION and one read after it, for the two levels. -/
theorem getProtectionReportsWhatWasSet : Obligations.GetProtectionReportsWhatWasSet := by
  unfold Obligations.GetProtectionReportsWhatWasSet
  intro mask s hs hinv hp hoks hmask
  exact ⟨getProtection_after_setProtection (l := .readWrite) hs hinv hp hoks nofun hmask,
    getProtection_after_setProtection (l := .write) hs hinv hp hoks nofun hmask⟩

end Sys2Proof

/-! # Array reads: the bytes of the word returned (rules R83, R84, R180 to R183, R190) -/

namespace Sys2Proof.Machine

/-! ## Little-endian words -/

/-- Byte `j` of a little-endian word is byte `j` of the list, zero past its end (rules R83, R84). -/
theorem byteOf_leWord (bs : List Byte) {j : Nat} (hj : j < 4) : byteOf (leWord bs) j = bs.getD j 0 := by
  induction bs generalizing j with
  | nil => simp [byteOf, leWord]
  | cons b bs ih =>
    apply BitVec.eq_of_getLsbD_eq
    intro i hi
    cases j with
    | zero => simp [byteOf, leWord, hi, show i < 32 by omega]
    | succ j =>
      have hbit := congrArg (fun x : Byte => x.getLsbD i) (ih (j := j) (by omega))
      simp only [byteOf, BitVec.getLsbD_extractLsb', hi, decide_true, Bool.true_and] at hbit
      have hb : b.getLsbD (8 * (j + 1) + i) = false := BitVec.getLsbD_of_ge _ _ (by omega)
      simp only [byteOf, leWord, BitVec.getLsbD_extractLsb', BitVec.getLsbD_or, BitVec.getLsbD_setWidth,
        BitVec.getLsbD_shiftLeft, hb, List.getD_cons_succ, hi, ← hbit, show 8 * (j + 1) + i < 32 by omega,
        show ¬ 8 * (j + 1) + i < 8 by omega, show 8 * (j + 1) + i - 8 = 8 * j + i by omega]
      simp

/-- A word put together from `n` bytes is an `8n`-bit value, zero-extended (rule R112). -/
theorem leWord_toNat_lt (bs : List Byte) : (leWord bs).toNat < 2 ^ (8 * bs.length) := by
  induction bs with
  | nil => decide
  | cons b bs ih =>
    have hpow : 2 ^ (8 * (bs.length + 1)) = 2 ^ (8 * bs.length) * 2 ^ 8 := by rw [← Nat.pow_add]; rfl
    rw [leWord, List.length_cons, BitVec.toNat_or]
    refine Nat.or_lt_two_pow ?_ ?_
    · calc (b.setWidth 32).toNat
        _ ≤ b.toNat := by rw [BitVec.toNat_setWidth]; exact Nat.mod_le ..
        _ < 2 ^ 8 := b.isLt
        _ ≤ 2 ^ (8 * (bs.length + 1)) := Nat.pow_le_pow_right (by decide) (by omega)
    · calc (leWord bs <<< 8).toNat
        _ ≤ (leWord bs).toNat * 2 ^ 8 := by
          rw [BitVec.toNat_shiftLeft, Nat.shiftLeft_eq]
          exact Nat.mod_le ..
        _ < 2 ^ (8 * (bs.length + 1)) := by rw [hpow]; omega

theorem nbytes_le_four (sz : AccessSize) : nbytes sz ≤ 4 := by cases sz <;> decide

/-- Byte `j` of the word of `n` bytes `f 0 .. f (n-1)`. -/
theorem byteOf_leWord_map_range {n j : Nat} (f : Nat → Byte) (hj : j < n) (hn : n ≤ 4) :
    byteOf (leWord ((List.range n).map f)) j = f j := by
  rw [byteOf_leWord _ (by omega)]
  simp [hj]

/-! ## Array reads as instructions -/

/-- An array-read row issues the array read of its size (rules R181 to R183). -/
theorem IsArrayRead.exec {i : Instr} {sz : AccessSize} {a : Word} (h : IsArrayRead i sz a) (s : State) :
    exec i s = issue (arrRead sz a) s := by
  rcases h with ⟨rfl, rfl⟩ | ⟨rfl, rfl⟩ | ⟨rfl, rfl⟩ <;> rfl

/-- A well-formed array read is aligned and in the array (rules R85, R114). -/
theorem IsArrayRead.wellFormed_iff {i : Instr} {sz : AccessSize} {a : Word} (h : IsArrayRead i sz a) (p : Params) :
    WellFormed p i = true ↔ arrayAddressOk p sz a = true := by
  rcases h with ⟨rfl, rfl⟩ | ⟨rfl, rfl⟩ | ⟨rfl, rfl⟩ <;> rfl

/-- A well-formed array read completes with `arrayValue` when nothing is pending. -/
theorem IsArrayRead.exec_idle {i : Instr} {sz : AccessSize} {a : Word} {s : State} (h : IsArrayRead i sz a)
    (hwf : WellFormed s.params i = true) (hp : s.pend = .none) :
    Machine.exec i s = .next ((arrayValue sz a s).withHeld false) := by
  have hread : arrRead sz a s = some (arrayValue sz a s) := by
    simp only [arrRead, (h.wellFormed_iff s.params).mp hwf, if_true, unlessBusy_idle ((busy_eq_false_iff s).mpr hp)]
  rw [h.exec, issue_of_some hread]

/-- No byte of the unit is in a read-protected sector (rule R180). -/
theorem any_rprotAt_eq_false {n a : Nat} {s : State} (h : ∀ j, j < n → ¬ReadProtectedByte s (a + j)) :
    (List.range n).any (fun j => rprotAt s.params.sectorMap s.ob (a + j)) = false := by
  simp only [List.any_eq_false, List.mem_range, ← readProtectedByte_iff]
  exact h

/-- A well-timed, unprotected read writes RDATA, and draws once for each byte when the data cache is on. -/
theorem arrayValue_of_readable {sz : AccessSize} {a : Word} {s : State} (ht : WellTimed s)
    (hprot : ∀ j, j < nbytes sz → ¬ReadProtectedByte s (a.toNat + j)) :
    ∃ d, arrayValue sz a s = { s with rdata := readValue (nbytes sz) a.toNat s, draws := d } := by
  have htime := (wellTimed_iff s).mp ht
  have hany := any_rprotAt_eq_false hprot
  rcases arrayValue_cases sz a s with ⟨h, -⟩ | ⟨-, h, -⟩ | ⟨-, -, -, h⟩ | ⟨-, -, hd, h⟩
  · simp [htime] at h
  · simp [hany] at h
  · exact ⟨s.draws + nbytes sz, h⟩
  · refine ⟨s.draws, ?_⟩
    rw [h, readValue, hd]
    rfl

/-! ## The stored bytes -/

/-- With no stale candidate a cached read gives the stored byte, whatever is drawn (rule R190). -/
theorem cachedByte_of_not_stale {s : State} {a : Nat} (h : staleAt s.stale a = []) (d : Nat) :
    cachedByte s a d = readByte s.arr a := by
  simp only [cachedByte, h]

/-- With the cache off, or with no stale candidate, the bytes returned are the stored ones. -/
theorem readValue_eq_stored {n a : Nat} {s : State}
    (h : s.acr.dcen = false ∨ ∀ j, j < n → staleAt s.stale (a + j) = []) :
    readValue n a s = leWord (readBytes s.arr a n) := by
  rcases h with hoff | hfresh
  · simp only [readValue, hoff, Bool.false_eq_true, if_false]
  · have hbytes : (List.range n).map (fun j => cachedByte s (a + j) (s.draws + j)) = readBytes s.arr a n :=
      List.map_congr_left fun j hj => cachedByte_of_not_stale (hfresh j (List.mem_range.mp hj)) _
    rw [readValue, hbytes, ite_self]

theorem readBytes_length (m : Memory) (a n : Nat) : (readBytes m a n).length = n := by simp [readBytes]

end Sys2Proof.Machine

namespace Sys2Proof

open Machine

/-- Settles O31: the read gives the little-endian word of the stored bytes. -/
theorem arrayReadReturnsTheStoredBytes : Obligations.ArrayReadReturnsTheStoredBytes := by
  unfold Obligations.ArrayReadReturnsTheStoredBytes
  intro i sz a s hi hwf hp ht hprot hfresh
  obtain ⟨d, hvalue⟩ := arrayValue_of_readable ht hprot
  refine ⟨leWord (readBytes s.arr a.toNat (nbytes sz)), d, ?_, ?_, fun j hj => ?_⟩
  · rw [hi.exec_idle hwf hp, hvalue, readValue_eq_stored hfresh]
    rfl
  · have hlt := leWord_toNat_lt (readBytes s.arr a.toNat (nbytes sz))
    rwa [readBytes_length] at hlt
  · exact byteOf_leWord_map_range (fun j => readByte s.arr (a.toNat + j)) hj (nbytes_le_four sz)

end Sys2Proof

/-! # Commands that interleave (rules R117, R292) -/

namespace Sys2Proof.Machine

/-! ## The command rows -/

theorem decodeNoOperand_eq_ok {op : BitVec 8} {c i : Instr} {xs : List Operand}
    (h : decodeNoOperand op c xs = .ok i) : i = c := by
  unfold decodeNoOperand at h
  split at h <;> cases h
  rfl

theorem decodeOneOperand_eq_ok {op : BitVec 8} {f : Word → Instr} {i : Instr} {xs : List Operand}
    (h : decodeOneOperand op f xs = .ok i) : ∃ x, i = f x := by
  unfold decodeOneOperand at h
  split at h <;> cases h
  exact ⟨_, rfl⟩

theorem decodeTwoOperands_eq_ok {op : BitVec 8} {f : Word → Word → Instr} {i : Instr} {xs : List Operand}
    (h : decodeTwoOperands op f xs = .ok i) : ∃ x y, i = f x y := by
  unfold decodeTwoOperands at h
  split at h <;> cases h
  exact ⟨_, _, rfl⟩

theorem decodeWriteOperands_eq_ok {op : BitVec 8} {i : Instr} {xs : List Operand}
    (h : decodeWriteOperands op xs = .ok i) : ∃ a n d, i = .write a n d := by
  unfold decodeWriteOperands at h
  split at h
  · split at h <;> cases h
    exact ⟨_, _, _, rfl⟩
  · cases h

/-- The opcodes of rule R117's thirteen rows, by the operands their row fixes: none, one word, two words, WRITE's. -/
theorem commandOpcode_cases : ∀ op : BitVec 8, 1 ≤ op.toNat → op.toNat ≤ 13 →
    (op = 0x02 ∨ op = 0x03 ∨ op = 0x04 ∨ op = 0x05 ∨ op = 0x09 ∨ op = 0x0A ∨ op = 0x0C) ∨
      (op = 0x01 ∨ op = 0x08 ∨ op = 0x0D) ∨ (op = 0x06 ∨ op = 0x0B) ∨ op = 0x07 := by decide

/-- Opcodes 0x01 to 0x0D decode to commands with an expansion (rules R117, R230). -/
theorem expansionOf_of_decodeCmd {op : BitVec 8} {xs : List Operand} {i : Instr} (h : decodeCmd op xs = .ok i)
    (hlo : 1 ≤ op.toNat) (hhi : op.toNat ≤ 13) (p : Params) : ∃ e, expansionOf p i = some e := by
  rcases commandOpcode_cases op hlo hhi with hop | hop | hop | rfl
  · rcases hop with rfl | rfl | rfl | rfl | rfl | rfl | rfl <;> obtain rfl := decodeNoOperand_eq_ok h <;>
      exact ⟨_, rfl⟩
  · rcases hop with rfl | rfl | rfl <;> obtain ⟨x, rfl⟩ := decodeOneOperand_eq_ok h <;> exact ⟨_, rfl⟩
  · rcases hop with rfl | rfl <;> obtain ⟨x, y, rfl⟩ := decodeTwoOperands_eq_ok h <;> exact ⟨_, rfl⟩
  · obtain ⟨a, n, d, rfl⟩ := decodeWriteOperands_eq_ok h
    exact ⟨_, rfl⟩

/-- A command is refused while the host stands in another (rule R292). -/
theorem runCommand_interleaved {i : Instr} (ok : Bool) (e : Expansion) {s : State} {p : Position}
    (hrun : s.run = some p) (hp : p.cmd ≠ i) : runCommand i ok e s = { s with refused := true, held := false } := by
  rcases runCommand_cases i ok e s with ⟨h, -⟩ | ⟨q, hq, hqi, -⟩ | ⟨-, h⟩
  · simp [hrun] at h
  · obtain rfl := Option.some.inj (hrun.symm.trans hq)
    exact absurd hqi hp
  · exact h

end Sys2Proof.Machine

namespace Sys2Proof

open Machine

/-- Settles O45: a decoded command runs its expansion, and is refused there when another command stands. -/
theorem interleavedCommandIsRefused : Obligations.InterleavedCommandIsRefused := by
  unfold Obligations.InterleavedCommandIsRefused
  intro i p s op xs hrun hp hdec hlo hhi
  obtain ⟨e, he⟩ := expansionOf_of_decodeCmd hdec hlo hhi s.params
  obtain ⟨ok, hexec⟩ := exec_of_expansionOf he
  rw [hexec, runCommand_interleaved ok e hrun hp]

end Sys2Proof

/-! # The host's turn runs its request (rules R88, R92, R230) -/

namespace Sys2Proof.Machine

/-- A request that decodes runs its instruction, and is then retired. -/
theorem issueRequest_exec {s t : State} {d : Descriptor} {i : Instr} (hd : decode s.params d = .ok i)
    (ht : exec i s = .next t) : issueRequest d s = .next (retire t) := by
  simp only [issueRequest, hd, ht]

/-- A request leaves the queue when it neither holds nor has transactions left (rules R54, R140). -/
theorem retire_eq {s : State} {d : Descriptor} {rest : List Descriptor} (hp : s.program = d :: rest) :
    retire s = if s.held = true ∨ s.run ≠ none then s else s.withProgram rest := by
  simp only [retire, hp, List.tail_cons, Bool.or_eq_true, Option.isSome_iff_ne_none]

/-- On the host's turn in an unmarked run, step is the instruction of its request, retired. -/
theorem HostTakesTurnIn.step_request {s v u : State} {q : List Turn} {d : Descriptor} {rest : List Descriptor}
    {i : Instr} (h : HostTakesTurnIn s v q) (hf : s.fault = none) (hr : s.refused = false)
    (hp : s.program = d :: rest) (hd : decode s.params d = .ok i) (hu : exec i v = .next u) :
    Machine.step s = .next (if u.held = true ∨ u.run ≠ none then u else u.withProgram rest) := by
  obtain ⟨hfault, hrefused, hprogram, hparams⟩ := h.fields
  obtain ⟨-, huprogram, -⟩ := exec_inputs hu
  rw [← hfault] at hf
  rw [← hrefused] at hr
  rw [← hprogram] at hp
  rw [← hparams] at hd
  rw [h.step, hostTurn_request hf hr hp, issueRequest_exec hd hu, retire_eq (huprogram.trans hp)]

end Sys2Proof.Machine

namespace Sys2Proof

open Machine

/-- Settles O7: the turn is the host's, scheduled or by default. -/
theorem stepRunsTheDecodedRequest : Obligations.StepRunsTheDecodedRequest := by
  unfold Obligations.StepRunsTheDecodedRequest
  intro s u d rest q i hf hr hp hd hturn
  rcases hturn with ⟨hs, hu⟩ | ⟨hs, hdefault, hu⟩
  · exact HostTakesTurnIn.step_request (q := q) (.inl ⟨hs, rfl⟩) hf hr hp hd hu
  · exact HostTakesTurnIn.step_request (q := q) (.inr ⟨hs, hdefault, rfl⟩) hf hr hp hd hu

end Sys2Proof

/-! # What the decoder gives (rules R110 to R118, R120) -/

namespace Sys2Proof

open Machine

/-! ## Bus descriptors -/

/-- What the descriptor `[W, SZ, ADDR]` with the data word `d` decodes to, row by row (rules R112, R113). -/
inductive BusMeaning (p : Params) (d : Word) : Bool → BitVec 2 → Word → Instr → Prop where
  | szRsvd (w : Bool) (a : Word) : BusMeaning p d w 3 a (.szRsvd w a (keptData w d))
  | registerRead (r : FlashReg) : BusMeaning p d false 2 (regAddr p r) (registerRead r)
  | registerWrite (r : FlashReg) : BusMeaning p d true 2 (regAddr p r) (registerWrite r d)
  | regOther (w : Bool) {sz : AccessSize} {a : Word} (hwin : inRegisterWindow p a = true)
      (hreg : sz = .word → isRegister p a = false) :
      BusMeaning p d w (bitsOfSize sz) a (.regOther w sz a (keptData w d))
  | arrayRead {sz : AccessSize} {a : Word} (ha : arrayAddressOk p sz a = true) :
      BusMeaning p d false (bitsOfSize sz) a (arrayRead sz a)
  | arrayWrite {sz : AccessSize} {a : Word} (ha : arrayAddressOk p sz a = true) :
      BusMeaning p d true (bitsOfSize sz) a (arrayWrite sz a d)
  | arrMisaligned (w : Bool) {sz : AccessSize} {a : Word} (hin : inArray p a = true) (hal : aligned sz a = false) :
      BusMeaning p d w (bitsOfSize sz) a (.arrMisaligned w sz a (keptData w d))
  | notSelected (w : Bool) {sz : AccessSize} {a : Word} (hin : inArray p a = false)
      (hwin : inRegisterWindow p a = false) : BusMeaning p d w (bitsOfSize sz) a (.notSelected w sz a (keptData w d))

/-- Outside the register window and its registers, rows 15 to 22 tell an aligned address of the array, a misaligned one
and an address of neither space apart, for every value of the bases. -/
theorem decodeBus_past_window {p : Params} {w : Bool} {sz : AccessSize} {a : Word} (d : Word)
    (hreg : sz = .word → isRegister p a = false) (hwin : inRegisterWindow p a = false) :
    decodeBus p (busKey w (bitsOfSize sz) a) d =
      if arrayAddressOk p sz a then if w then arrayWrite sz a d else arrayRead sz a
      else if inArray p a then .arrMisaligned w sz a (keptData w d) else .notSelected w sz a (keptData w d) := by
  rw [decodeBus_past_registers d hreg]
  cases sz <;> cases w <;>
    simp [arrayRows, firstRow, rowAdmits_busKey, hwin, bitsOfSize, sizeOfBits, arrayRead, arrayWrite]

/-- Every bus descriptor has one of these meanings, whatever the bases (rule R113). -/
theorem decodeBus_meaning (p : Params) (w : Bool) (c : BitVec 2) (a d : Word) :
    BusMeaning p d w c a (decodeBus p (busKey w c a) d) := by
  by_cases hc : c = 3
  · rw [hc, decodeBus_reservedSize]
    exact .szRsvd w a
  obtain ⟨sz, rfl⟩ := exists_bitsOfSize hc
  by_cases hreg : sz = .word → isRegister p a = false
  · cases hwin : inRegisterWindow p a
    · rw [decodeBus_past_window d hreg hwin]
      split_ifs with ha hw hin
      · exact hw ▸ .arrayWrite ha
      · exact Bool.eq_false_iff.mpr hw ▸ .arrayRead ha
      · refine .arrMisaligned w hin ?_
        simpa [arrayAddressOk, hin] using ha
      · exact .notSelected w (Bool.eq_false_iff.mpr hin) hwin
    · rw [decodeBus_regOther d hwin hreg]
      exact .regOther w hwin hreg
  · obtain ⟨rfl, hr⟩ := Classical.not_imp.mp hreg
    obtain ⟨r, rfl⟩ := (isRegister_iff p a).mp (by simpa using hr)
    have hrow := decodeBus_register p w r d
    cases w with
    | false => exact hrow ▸ .registerRead r
    | true => exact hrow ▸ .registerWrite r

theorem readHasNoData_keptData (w : Bool) (d : Word) : readHasNoData w (keptData w d) = true := by
  cases w with
  | false => exact decide_eq_true (rfl : keptData false d = 0)
  | true => rfl

/-- A meaning is a well-formed instruction. -/
theorem BusMeaning.wellFormed {p : Params} {d : Word} {w : Bool} {c : BitVec 2} {a : Word} {i : Instr}
    (h : BusMeaning p d w c a i) : WellFormed p i = true := by
  have hdata := readHasNoData_keptData w d
  cases h with
  | szRsvd => exact hdata
  | registerRead r => cases r <;> rfl
  | registerWrite r => cases r <;> rfl
  | regOther _ hwin hreg => simpa [WellFormed, hwin, hdata] using imp_iff_not_or.mp hreg
  | @arrayRead sz _ ha => cases sz <;> exact ha
  | @arrayWrite sz _ ha => cases sz <;> exact ha
  | arrMisaligned _ hin hal => simp [WellFormed, hin, hal, hdata]
  | notSelected _ hin hwin => simp [WellFormed, hin, hwin, hdata]

/-- `y` is what an instruction keeps of the data word `d`: nothing for a read, and for a write the whole word or, of a
narrower size, the bits of the value written (rules R110, R112). -/
def KeepsData (w : Bool) (c : BitVec 2) (d y : Word) : Prop :=
  (w = false → y = 0) ∧ (w = true → y = d ∨ (c = 0 ∧ y = d &&& 0xFF) ∨ (c = 1 ∧ y = d &&& 0xFFFF))

theorem keepsData_read (c : BitVec 2) (d : Word) : KeepsData false c d 0 := ⟨fun _ => rfl, nofun⟩

theorem keepsData_keptData (w : Bool) (c : BitVec 2) (d : Word) : KeepsData w c d (keptData w d) := by
  cases w with
  | false => exact keepsData_read c d
  | true => exact ⟨nofun, fun _ => .inl rfl⟩

/-- The low bits of a word, zero-extended, are the word under their mask (rule R112). -/
theorem setWidth_setWidth_eq_and (d : Word) (n : Nat) :
    (d.setWidth n).setWidth 32 = d &&& (BitVec.allOnes n).setWidth 32 := by
  apply BitVec.eq_of_getLsbD_eq
  intro i hi
  simp [hi, Bool.and_comm]

theorem encode_registerRead (p : Params) (r : FlashReg) :
    encode p (registerRead r) = encodeRead .word (regAddr p r) := by
  cases r <;> rfl

theorem encode_registerWrite (p : Params) (r : FlashReg) (v : Word) :
    encode p (registerWrite r v) = encodeWrite .word (regAddr p r) v := by
  cases r <;> rfl

theorem encode_arrayRead (p : Params) (sz : AccessSize) (a : Word) :
    encode p (arrayRead sz a) = encodeRead sz a := by
  cases sz <;> rfl

/-- An array write encodes with the bits of the data word that it keeps (rule R112). -/
theorem encode_arrayWrite (p : Params) (sz : AccessSize) (a d : Word) :
    ∃ y, encode p (arrayWrite sz a d) = encodeWrite sz a y ∧ KeepsData true (bitsOfSize sz) d y := by
  cases sz with
  | byte => exact ⟨_, rfl, nofun, fun _ => .inr (.inl ⟨rfl, setWidth_setWidth_eq_and d 8⟩)⟩
  | half => exact ⟨_, rfl, nofun, fun _ => .inr (.inr ⟨rfl, setWidth_setWidth_eq_and d 16⟩)⟩
  | word => exact ⟨d, rfl, nofun, fun _ => .inl rfl⟩

/-- A meaning encodes to the descriptor it was read from, with the data word that it keeps. -/
theorem BusMeaning.encode {p : Params} {d : Word} {w : Bool} {c : BitVec 2} {a : Word} {i : Instr}
    (h : BusMeaning p d w c a i) : ∃ y, Sys2Proof.encode p i = .bus (busKey w c a) y ∧ KeepsData w c d y := by
  have hkept := keepsData_keptData w c d
  cases h with
  | registerRead r => exact ⟨0, encode_registerRead p r, keepsData_read 2 d⟩
  | registerWrite r => exact ⟨d, encode_registerWrite p r d, hkept⟩
  | @arrayRead sz a => exact ⟨0, encode_arrayRead p sz a, keepsData_read _ d⟩
  | @arrayWrite sz a => exact encode_arrayWrite p sz a d
  | szRsvd | regOther | arrMisaligned | notSelected => exact ⟨keptData w d, rfl, hkept⟩

/-! ## Commands, each row with the operand list that it fixes (rules R116, R117) -/

theorem decodeNoOperand_eq_ok_iff {op : BitVec 8} {c i : Instr} {xs : List Operand} :
    decodeNoOperand op c xs = .ok i ↔ xs = [] ∧ c = i := by
  unfold decodeNoOperand
  split
  next => simp
  next hother => simpa using fun hxs => absurd hxs hother

theorem decodeOneOperand_eq_ok_iff {op : BitVec 8} {f : Word → Instr} {i : Instr} {xs : List Operand} :
    decodeOneOperand op f xs = .ok i ↔ ∃ x, xs = [.u32 x] ∧ f x = i := by
  unfold decodeOneOperand
  split
  next => simp
  next hother => simpa using fun x hxs => absurd hxs (hother x)

theorem decodeTwoOperands_eq_ok_iff {op : BitVec 8} {f : Word → Word → Instr} {i : Instr} {xs : List Operand} :
    decodeTwoOperands op f xs = .ok i ↔ ∃ x y, xs = [.u32 x, .u32 y] ∧ f x y = i := by
  unfold decodeTwoOperands
  split
  next => simp
  next hother => simpa using fun x y hxs => absurd hxs (hother x y)

theorem decodeWriteOperands_eq_ok_iff {op : BitVec 8} {i : Instr} {xs : List Operand} :
    decodeWriteOperands op xs = .ok i ↔
      ∃ a n d, xs = [.u32 a, .u32 n, .bytes d] ∧ d.length = n.toNat ∧ .write a n d = i := by
  unfold decodeWriteOperands
  split
  next a n d => by_cases hlen : d.length = n.toNat <;> simp [hlen]
  next hother => simpa using fun a n d hxs => absurd hxs (hother a n d)

/-- A command of rule R117's thirteen rows is well-formed and encodes to its opcode and operands. -/
theorem decodeCmd_command {op : BitVec 8} {xs : List Operand} {i : Instr} (h : decodeCmd op xs = .ok i)
    (hlo : 1 ≤ op.toNat) (hhi : op.toNat ≤ 13) (p : Params) :
    WellFormed p i = true ∧ encode p i = .cmd op xs := by
  rcases commandOpcode_cases op hlo hhi with hop | hop | hop | rfl
  · rcases hop with rfl | rfl | rfl | rfl | rfl | rfl | rfl <;>
      obtain ⟨rfl, rfl⟩ := decodeNoOperand_eq_ok_iff.mp h <;> exact ⟨rfl, rfl⟩
  · rcases hop with rfl | rfl | rfl <;> obtain ⟨x, rfl, rfl⟩ := decodeOneOperand_eq_ok_iff.mp h <;> exact ⟨rfl, rfl⟩
  · rcases hop with rfl | rfl <;> obtain ⟨x, y, rfl, rfl⟩ := decodeTwoOperands_eq_ok_iff.mp h <;> exact ⟨rfl, rfl⟩
  · obtain ⟨a, n, d, rfl, hlen, rfl⟩ := decodeWriteOperands_eq_ok_iff.mp h
    exact ⟨decide_eq_true hlen, rfl⟩

/-- An opcode is the bits that a row's mask keeps and the bits below it (rule R118). -/
theorem highBits_or_lowBits (op : BitVec 8) (n : Nat) :
    (op &&& BitVec.allOnes 8 <<< n) ||| (op.setWidth n).setWidth 8 = op := by
  apply BitVec.eq_of_getLsbD_eq
  intro i hi
  simp only [BitVec.getLsbD_or, BitVec.getLsbD_and, BitVec.getLsbD_shiftLeft, BitVec.getLsbD_allOnes,
    BitVec.getLsbD_setWidth]
  by_cases h : i < n <;> simp [hi, h, show i - n < 8 by omega]

/-- A reserved row is well-formed and encodes to its opcode (rule R118). -/
theorem decodeReserved_eq_ok {op : BitVec 8} {i : Instr} (h : decodeReserved op = .ok i) (p : Params) :
    WellFormed p i = true ∧ encode p i = .cmd op [] := by
  have whole : ∀ (n : Nat) {x : BitVec 8}, op &&& BitVec.allOnes 8 <<< n = x →
      Descriptor.cmd (x ||| (op.setWidth n).setWidth 8) [] = .cmd op [] := by
    rintro n x rfl
    rw [highBits_or_lowBits]
  unfold decodeReserved at h
  split_ifs at h with h00 h0E h10 h20 h40 h80 <;> cases h
  · exact ⟨rfl, h00 ▸ rfl⟩
  · exact ⟨rfl, whole 1 h0E⟩
  · exact ⟨rfl, whole 4 h10⟩
  · exact ⟨rfl, whole 5 h20⟩
  · exact ⟨rfl, whole 6 h40⟩
  · exact ⟨rfl, whole 7 h80⟩

/-- A decoded command is well-formed and encodes to its opcode, with its operands in the thirteen rows that have
them. -/
theorem decodeCmd_eq_ok {op : BitVec 8} {xs : List Operand} {i : Instr} (h : decodeCmd op xs = .ok i) (p : Params) :
    WellFormed p i = true ∧ ∃ ys, encode p i = .cmd op ys ∧ (1 ≤ op.toNat → op.toNat ≤ 13 → ys = xs) := by
  by_cases hop : op.toNat = 0 ∨ 0x0E ≤ op.toNat
  · rw [decodeCmd_of_reserved hop] at h
    obtain ⟨hwf, henc⟩ := decodeReserved_eq_ok h p
    exact ⟨hwf, [], henc, by omega⟩
  · obtain ⟨hwf, henc⟩ := decodeCmd_command h (by omega) (by omega) p
    exact ⟨hwf, xs, henc, fun _ _ => rfl⟩

/-! ## The decoder -/

/-- A bus descriptor decodes to the meaning of its fields. -/
theorem busMeaning_of_decode {p : Params} {k : BusKey} {x : Word} {i : Instr} (h : decode p (.bus k x) = .ok i) :
    BusMeaning p x (keyW k) (keySz k) (keyAddr k) i := by
  cases h
  have hmeaning := decodeBus_meaning p (keyW k) (keySz k) (keyAddr k) x
  rwa [busKey_fields] at hmeaning

/-- Settles O2: each row of the two formats gives a well-formed instruction, and the bus rows' last one matches every
descriptor. -/
theorem decodedInstructionsAreWellFormed : Obligations.DecodedInstructionsAreWellFormed := by
  unfold Obligations.DecodedInstructionsAreWellFormed
  refine ⟨fun p d i h => ?_, fun p k x => ⟨_, rfl⟩⟩
  cases d with
  | bus k x => exact (busMeaning_of_decode h).wellFormed
  | cmd op xs => exact (decodeCmd_eq_ok h p).1

/-- Settles O3: each row keeps W, SZ and ADDR, or the opcode and its operands. -/
theorem decodingKeepsTheDescriptor : Obligations.DecodingKeepsTheDescriptor := by
  unfold Obligations.DecodingKeepsTheDescriptor
  refine ⟨fun p k x i h => ?_, fun p op xs i h => (decodeCmd_eq_ok h p).2⟩
  obtain ⟨y, henc, hread, hwrite⟩ := (busMeaning_of_decode h).encode
  rw [busKey_fields] at henc
  exact ⟨y, henc, hread, hwrite⟩

/-- With the default bases, the descriptor of a well-formed instruction decodes to it. -/
theorem decode_of_encode_default {i : Instr} {d : Descriptor} (hd : encode Params.default i = d)
    (hi : WellFormed Params.default i = true) : decode Params.default d = .ok i :=
  hd ▸ decodeOfEncodeIsTheInstruction Params.default i admitted_default hi

/-- Settles O4: the six descriptors are the encodings of well-formed instructions. -/
theorem workedEncodingsDecode : Obligations.WorkedEncodingsDecode := by
  unfold Obligations.WorkedEncodingsDecode
  refine ⟨?_, ?_, ?_, ?_, ?_, ?_⟩ <;> exact decode_of_encode_default (by decide) (by decide)

end Sys2Proof

/-! # A command's transactions as bus instructions (rules R121, R122, R230) -/

namespace Sys2Proof.Machine

theorem exec_registerRead (r : FlashReg) (s : State) : exec (registerRead r) s = issue (readReg r) s := by
  cases r <;> rfl

theorem exec_registerWrite (r : FlashReg) (v : Word) (s : State) :
    exec (registerWrite r v) s = issue (writeReg r v) s := by
  cases r <;> rfl

/-- An instruction that issues a transaction completes or holds as the transaction does (rules R140, R280). -/
theorem outcome_of_issue {i : Instr} {x : Txn} {s : State} (h : exec i s = issue x s) :
    (x s = none → exec i s = .next { s with held := true }) ∧
      ∀ t, x s = some t → exec i s = .next { t with held := false } :=
  ⟨fun hx => h.trans (issue_of_none hx), fun _ hx => h.trans (issue_of_some hx)⟩

/-- A byte read of any address is a bus instruction: the array's, or a refused one outside the array (rules R115,
R181). -/
theorem rdByte_is_bus {s : State} (hp : paramsOk s.params) (a : Word) :
    ∃ i, decode s.params (encodeRead .byte a) = .ok i ∧ exec i s = issue (arrRead .byte a) s := by
  cases ha : arrayAddressOk s.params .byte a with
  | true => exact ⟨_, decode_encodeRead_array hp ha, rfl⟩
  | false =>
    have hin : inArray s.params a = false := by simpa [arrayAddressOk, aligned] using ha
    have hread : arrRead .byte a s = some (refuse s) := by simp [arrRead, ha]
    have hrow : RefusedRow (decodeBus s.params (busKey false (bitsOfSize .byte) a) 0) := by
      apply decodeBus_refusedRow hp
      cases hwin : inRegisterWindow s.params a with
      | true => exact .inl ⟨rfl, nofun⟩
      | false => exact .inr (.inr ⟨rfl, hin⟩)
    exact ⟨_, rfl, (hrow.exec s).trans (issue_of_some hread).symm⟩

/-- Each transaction of an expansion is issued by the instruction that its descriptor decodes to. -/
theorem microTxn_is_bus {u : Micro} {s : State} (p : Position) (hp : paramsOk s.params)
    (hw : ∀ a d, u = .wrData a d → arrayAddressOk s.params .word a = true) :
    ∃ i, decode s.params (microDescriptor u p s) = .ok i ∧ exec i s = issue (microTxn u p) s := by
  cases u with
  | rd r | poll r _ => exact ⟨_, (decode_encode_register s.params r 0).1, exec_registerRead r s⟩
  | wr r v => exact ⟨_, (decode_encode_register s.params r v).2, exec_registerWrite r v s⟩
  | wrMod r c x => exact ⟨_, (decode_encode_register s.params r _).2, exec_registerWrite r _ s⟩
  | rdByte a => exact rdByte_is_bus hp a
  | wrData a data => exact ⟨_, decode_encodeWrite_array hp _ (hw a data rfl), rfl⟩

end Sys2Proof.Machine

namespace Sys2Proof

open Machine

/-- Settles O44: the instruction issues the same transaction. -/
theorem commandTransactionsAreBusInstructions : Obligations.CommandTransactionsAreBusInstructions := by
  unfold Obligations.CommandTransactionsAreBusInstructions
  intro u p s hp hw
  obtain ⟨i, hdec, hexec⟩ := microTxn_is_bus p hp hw
  exact ⟨i, hdec, outcome_of_issue hexec⟩

end Sys2Proof

/-! # The fields that SET_PROTECTION writes and commits (rules R204, R243) -/

namespace Sys2Proof.Machine

/-- A commit weakens PCROP when it drops SPRMOD, or a sector that SPRMOD protects from reads (rule R204). -/
theorem weakensPcrop_iff (p : Params) (ob f : OptFields) :
    weakensPcrop p ob f = true ↔ ob.sprmod = true ∧
      (f.sprmod = false ∨ ∃ i, i < p.nSectors ∧ ob.nwrp.getLsbD i = true ∧ f.nwrp.getLsbD i = false) := by
  simp only [weakensPcrop, Bool.and_eq_true, Bool.or_eq_true, Bool.not_eq_true', List.any_eq_true, List.mem_range]

/-- A commit leaves the fields committed, or the old ones when it weakens PCROP and that may fail (rule R204). -/
theorem completeOptionCommit_ob (f : OptFields) (s : State) :
    (completeOptionCommit f s).ob = f ∨
      ((completeOptionCommit f s).ob = s.ob ∧ s.params.pcropWeaken = .either ∧
        weakensPcrop s.params s.ob f = true) := by
  simp only [completeOptionCommit]
  split
  next h =>
    rw [Bool.and_eq_true, decide_eq_true_eq] at h
    cases Config.drawBool s.draws with
    | true => exact .inl rfl
    | false => exact .inr ⟨rfl, h⟩
  next => exact .inl rfl

/-- The bitmap of SET_PROTECTION's branches, from the old one and the mask (rule R243). -/
def protectionBitmap (w : Nat) (old : BitVec 8) (mask : Word) : Level → BitVec 8
  | .readWrite => mask.setWidth 8
  | .write => ((~~~mask).setWidth w).setWidth 8
  | .none => old ||| mask.setWidth 8

theorem getLsbD_protectionBitmap {w : Nat} (old : BitVec 8) (mask : Word) (l : Level) (hw : w ≤ 8) {i : Nat}
    (hi : i < w) :
    (protectionBitmap w old mask l).getLsbD i = protectionBit (old.getLsbD i) (mask.getLsbD i) l := by
  have h8 : i < 8 := by omega
  have h32 : i < 32 := by omega
  cases l <;> simp [protectionBitmap, protectionBit, hi, h8, h32]

theorem protectionBitmap_fits {w : Nat} {old : BitVec 8} {mask : Word} (l : Level)
    (hold : old.toNat < 2 ^ w) (hmask : mask.toNat < 2 ^ w) : (protectionBitmap w old mask l).toNat < 2 ^ w := by
  have hcut : (mask.setWidth 8).toNat < 2 ^ w := by
    rw [BitVec.toNat_setWidth]
    exact Nat.lt_of_le_of_lt (Nat.mod_le _ _) hmask
  cases l with
  | none =>
    rw [protectionBitmap, BitVec.toNat_or]
    exact Nat.or_lt_two_pow hold hcut
  | write =>
    rw [protectionBitmap, BitVec.toNat_setWidth]
    exact Nat.lt_of_le_of_lt (Nat.mod_le _ _) (BitVec.isLt _)
  | readWrite => exact hcut

/-- The only code of a level is its own (rule R119). -/
theorem levelCode_of_levelOfCode {c : Word} {l : Level} (h : levelOfCode c = some l) : c = levelCode l := by
  unfold levelOfCode at h
  split_ifs at h with h0 h1 h2 <;> cases h
  · exact h0
  · exact h1
  · exact h2

/-- SET_PROTECTION writes SPRMOD and the bitmap of its branch, and no other field (rule R243). -/
theorem protectionFields_eq {p : Params} {f : OptFields} {mask : Word} (l : Level) (hw : p.wrpWidth ≤ 8)
    (hf : f.nwrp.toNat < 2 ^ p.wrpWidth) (hmask : mask.toNat < 2 ^ p.wrpWidth) :
    protectionFields p f mask l =
      { f with sprmod := decide (l = .readWrite), nwrp := protectionBitmap p.wrpWidth f.nwrp mask l } := by
  have hnwrp : (protectionFields p f mask l).nwrp = protectionBitmap p.wrpWidth f.nwrp mask l := by
    apply BitVec.eq_of_getLsbD_eq
    intro i _
    by_cases hi : i < p.wrpWidth
    · rw [protectionFields_nwrp f mask l hw hi, getLsbD_protectionBitmap f.nwrp mask l hw hi]
    · have hwritten := OptFields.modifyAll_fits (protectionMods (fieldMask 16 p.wrpWidth) (mask <<< 16) l) hf
      have hbitmap := protectionBitmap_fits l hf hmask
      exact (getLsbD_of_toNat_lt hwritten (by omega)).trans (getLsbD_of_toNat_lt hbitmap (by omega)).symm
  rw [← hnwrp, ← protectionFields_sprmod f l hw hmask]
  cases l <;> rfl

end Sys2Proof.Machine

namespace Sys2Proof

open Machine

/-- Settles O57: the run of SET_PROTECTION for each of the three levels, and the outcome of its commit. -/
theorem setProtectionCommitsItsBranch : Obligations.SetProtectionCommitsItsBranch := by
  unfold Obligations.SetProtectionCommitsItsBranch
  intro lev mask s f hs hinv hp hoks hlev hmask hf
  obtain ⟨l, hl⟩ := Option.isSome_iff_exists.mp ((levelOfCode_isSome_iff lev).mpr hlev)
  obtain rfl : lev = levelCode l := levelCode_of_levelOfCode hl
  have hfields : f = protectionFields s.params s.optcr mask l := by
    rw [hf, protectionFields_eq l hinv.params_ok.wrp_room hinv.nwrp_fits hmask]
    cases l <;> rfl
  have hcount : (if levelCode l = 0 then 12 else 14) =
      5 + 2 * (protectionMods (fieldMask 16 s.params.wrpWidth) (mask <<< 16) l).length + 3 := by
    cases l <;> rfl
  refine ⟨_, _, _, cycles_setProtection hs hinv hp hoks hl hmask hfields hcount, ?_⟩
  exact (completeOptionCommit_ob f s).imp_right fun ⟨hob, heither, hweak⟩ =>
    ⟨hob, heither, (weakensPcrop_iff s.params s.ob f).mp hweak⟩

end Sys2Proof

/-! # SR and CR: reads and writes (rules R147, R148, R150, R151, R282, R283) -/

namespace Sys2Proof.Machine

/-! ## SR writes -/

/-- The bits of SR that a write of 1 clears are those of its stored flags (rules R37, R148). -/
theorem srMask_eq : (0x000001F3 : Word) = fieldMask 0 2 ||| fieldMask 4 5 := by decide

/-- After a write SR reads what it read before, with the flags written 1 clear (rule R148). -/
theorem regvalSr_clearFlags (s : State) (v : Word) :
    regvalSr (s.withSr (clearFlags s.sr v)) = regvalSr s &&& ~~~(v &&& 0x000001F3) := by
  apply BitVec.eq_of_getLsbD_eq
  intro i hi
  have hbusy : busy (s.withSr (clearFlags s.sr v)) = busy s := rfl
  rw [srMask_eq, BitVec.getLsbD_and, BitVec.getLsbD_not, BitVec.getLsbD_and, BitVec.getLsbD_or, getLsbD_fieldMask,
    getLsbD_fieldMask, getLsbD_regvalSr, getLsbD_regvalSr, hbusy]
  interval_cases i <;> simp [clearFlags]

/-! ## CR writes -/

/-- A write of an idle CR while it is locked (rule R150). -/
theorem crWrite_locked {v : Word} {s : State} (hp : s.pend = .none) (hk : s.ks ≠ .opened) :
    crWrite v s = some { s with
      cr := if s.params.lockedCrWrite = .fieldsApplied then crOfWord s.params v else s.cr } := by
  rw [crWrite, unlessBusy_idle ((busy_eq_false_iff s).mpr hp), if_pos ((isLocked_iff s.ks).mpr hk), crWriteLocked]
  cases s.params.lockedCrWrite <;> rfl

/-- A write of an idle and open CR with STRT: the fields are stored, the erase is requested with them, and LOCK
written 1 then locks (rule R150). -/
theorem crWrite_starts {v : Word} {s : State} (hp : s.pend = .none) (hk : s.ks = .opened) (hs : v.getLsbD 16 = true) :
    crWrite v s = some ((eraseRequest (s.withCr (crOfWord s.params v))).withKs
      (if v.getLsbD 31 = true then .wait1 else .opened)) := by
  rw [crWrite, unlessBusy_idle ((busy_eq_false_iff s).mpr hp), (isLocked_eq_false_iff s.ks).mpr hk]
  simp only [crWriteOpen, hs, Bool.false_eq_true, if_true, if_false]
  cases v.getLsbD 31 with
  | true => rfl
  | false =>
    rw [eraseRequest_frame]
    simp only [Bool.false_eq_true, if_false, ← hk]
    rfl

/-! ## The start check -/

/-- The two modes in which a start begins an erase (rule R48). -/
theorem crMode_eq_sectorErase_iff (c : CrFields) :
    crMode c = .sectorErase ↔ c.pg = false ∧ c.ser = true ∧ c.mer = false := by
  unfold crMode
  cases c.pg <;> cases c.ser <;> cases c.mer <;> decide

theorem crMode_eq_massErase_iff (c : CrFields) :
    crMode c = .massErase ↔ c.pg = false ∧ c.ser = false ∧ c.mer = true := by
  unfold crMode
  cases c.pg <;> cases c.ser <;> cases c.mer <;> decide

/-- Sector `n` is one that the start check protects (rule R151). -/
def SectorProtected (p : Params) (ob : OptFields) (n : Nat) : Prop := n < p.nSectors ∧ wprot ob n = true

theorem anyWprot_iff (p : Params) (ob : OptFields) : anyWprot p ob = true ↔ ∃ i, SectorProtected p ob i := by
  simp only [anyWprot, List.any_eq_true, List.mem_range, SectorProtected]

theorem anyWprot_eq_false_iff (p : Params) (ob : OptFields) :
    anyWprot p ob = false ↔ ∀ i, i < p.nSectors → wprot ob i = false := by
  simp only [anyWprot, List.any_eq_false, List.mem_range, Bool.not_eq_true]

/-- The flags that a protected target sets (rule R283). -/
def wrpFlags (f : SrFlags) (errie : Bool) : SrFlags := { f with wrperr := true, operr := f.operr || errie }

/-- The flags that a start outside the erase modes sets. -/
def pgsFlags (f : SrFlags) (errie : Bool) : SrFlags := { f with pgserr := true, operr := f.operr || errie }

theorem rejectFlags_wrp (f : SrFlags) (errie : Bool) : rejectFlags f errie ⟨true, false, false⟩ = wrpFlags f errie := by
  simp [rejectFlags, wrpFlags]

theorem rejectFlags_pgs (f : SrFlags) (errie : Bool) : rejectFlags f errie ⟨false, false, true⟩ = pgsFlags f errie := by
  simp [rejectFlags, pgsFlags]

theorem startErase_sector_protected {s : State} (hm : crMode s.cr = .sectorErase)
    (h : SectorProtected s.params s.ob s.cr.snb.toNat) : startErase s = s.withSr (wrpFlags s.sr s.cr.errie) := by
  obtain ⟨hn, hw⟩ := h
  simp only [startErase, hm, decide_eq_true hn, hw, Bool.and_self, if_true, reject, rejectFlags_wrp]

theorem startErase_sector_free {s : State} (hm : crMode s.cr = .sectorErase)
    (h : ¬SectorProtected s.params s.ob s.cr.snb.toNat) : startErase s = s.withPend (.sectorErase s.cr.snb) := by
  have hcheck : ¬(decide (s.cr.snb.toNat < s.params.nSectors) && wprot s.ob s.cr.snb.toNat) = true := by
    rw [Bool.and_eq_true, decide_eq_true_eq]
    exact h
  simp only [startErase, hm, if_neg hcheck]

theorem startErase_mass_protected {s : State} (hm : crMode s.cr = .massErase)
    (h : ∃ i, SectorProtected s.params s.ob i) : startErase s = s.withSr (wrpFlags s.sr s.cr.errie) := by
  simp only [startErase, hm, (anyWprot_iff s.params s.ob).mpr h, if_true, reject, rejectFlags_wrp]

theorem startErase_mass_free {s : State} (hm : crMode s.cr = .massErase)
    (h : ∀ i, i < s.params.nSectors → wprot s.ob i = false) : startErase s = s.withPend .massErase := by
  simp only [startErase, hm, (anyWprot_eq_false_iff s.params s.ob).mpr h, Bool.false_eq_true, if_false]

theorem startErase_other_mode {s : State} (hs : crMode s.cr ≠ .sectorErase) (hm : crMode s.cr ≠ .massErase) :
    startErase s = s.withSr (pgsFlags s.sr s.cr.errie) := by
  unfold startErase
  cases h : crMode s.cr with
  | sectorErase => exact absurd h hs
  | massErase => exact absurd h hm
  | idle | program | invalid => simp only [reject, rejectFlags_pgs]

/-- With no sticky flag set a start is checked at once (rules R151, R282). -/
theorem eraseRequest_of_not_sticky {s : State} (h : sticky s.sr = false) : eraseRequest s = startErase s := by
  simp only [eraseRequest, dropped_of_not_sticky h, afterDrop_of_not_sticky h, Bool.false_eq_true, if_false]

/-- The draw of a request is counted only while a sticky flag is set (rule R282). -/
theorem afterDrop_eq (s : State) :
    afterDrop s = { s with draws := if sticky s.sr = true then s.draws + 1 else s.draws } := by
  unfold afterDrop
  split <;> rfl

end Sys2Proof.Machine

namespace Sys2Proof

open Machine

/-- Settles O20, bit by bit. -/
theorem srReadReturnsFlagsAndBusy : Obligations.SrReadReturnsFlagsAndBusy := by
  unfold Obligations.SrReadReturnsFlagsAndBusy
  refine fun s => ⟨regvalSr s, rfl, getLsbD_regvalSr s 0, getLsbD_regvalSr s 1, extractLsb'_eq_zero fun i hi => ?_,
    getLsbD_regvalSr s 4, getLsbD_regvalSr s 5, getLsbD_regvalSr s 6, getLsbD_regvalSr s 7, getLsbD_regvalSr s 8,
    extractLsb'_eq_zero fun i hi => ?_, ?_, extractLsb'_eq_zero fun i hi => ?_⟩
  · rw [getLsbD_regvalSr]
    interval_cases i <;> rfl
  · rw [getLsbD_regvalSr]
    interval_cases i <;> rfl
  · rw [getLsbD_regvalSr]
    exact busy_eq_true_iff s
  · rw [getLsbD_regvalSr]
    interval_cases i <;> rfl

/-- Settles O24: the write stores the flags left, and the read after it masks the word read before. -/
theorem srWriteClearsTheFlagsWrittenOne : Obligations.SrWriteClearsTheFlagsWrittenOne := by
  unfold Obligations.SrWriteClearsTheFlagsWrittenOne
  exact fun v s => ⟨(s.withSr (clearFlags s.sr v)).withHeld false, _, _, rfl, rfl, rfl, rfl, regvalSr_clearFlags s v⟩

/-- Settles O25: the locked and the open case of the write. -/
theorem crWriteWithoutStartStoresTheFields : Obligations.CrWriteWithoutStartStoresTheFields := by
  unfold Obligations.CrWriteWithoutStartStoresTheFields
  rintro v s c hp rfl
  exact ⟨fun hk => issue_of_some (crWrite_locked hp hk), fun hk hs => issue_of_some (crWrite_open hp hk hs)⟩

/-- Settles O26: the request is dropped, or the start check decides in the mode of the fields stored. -/
theorem crWriteWithStartIsCheckedOrDropped : Obligations.CrWriteWithStartIsCheckedOrDropped := by
  unfold Obligations.CrWriteWithStartIsCheckedOrDropped
  rintro v s b c hp hk hs hc rfl
  have hexec : exec (.crWr v) s = .next (((eraseRequest (s.withCr c)).withKs
      (if v.getLsbD 31 = true then .wait1 else .opened)).withHeld false) :=
    hc ▸ issue_of_some (crWrite_starts hp hk hs)
  rcases eraseRequest_cases (s.withCr c) with ⟨hsticky, hdrop⟩ | hcheck
  · rw [hdrop, afterDrop_eq] at hexec
    exact .inl ⟨hsticky, hexec⟩
  · rw [hcheck, afterDrop_eq] at hexec
    have checked : ∀ {t : State},
        startErase { s with cr := c, draws := if sticky s.sr = true then s.draws + 1 else s.draws } = t →
          exec (.crWr v) s =
            .next ((t.withKs (if v.getLsbD 31 = true then .wait1 else .opened)).withHeld false) := fun h => h ▸ hexec
    exact .inr
      ⟨fun hmode hprot =>
        (checked (startErase_sector_protected ((crMode_eq_sectorErase_iff c).mpr hmode) hprot)).trans rfl,
      fun hmode hfree => (checked (startErase_sector_free ((crMode_eq_sectorErase_iff c).mpr hmode) hfree)).trans rfl,
      fun hmode hprot => (checked (startErase_mass_protected ((crMode_eq_massErase_iff c).mpr hmode) hprot)).trans rfl,
      fun hmode hfree => (checked (startErase_mass_free ((crMode_eq_massErase_iff c).mpr hmode) hfree)).trans rfl,
      fun hsector hmass => (checked (startErase_other_mode (mt (crMode_eq_sectorErase_iff c).mp hsector)
        (mt (crMode_eq_massErase_iff c).mp hmass))).trans rfl⟩

end Sys2Proof

/-! # While an operation is pending: holds, and what starts an operation (rules R140, R150, R153, R184, R207, R325) -/

namespace Sys2Proof.Machine

/-! ## Transactions that hold -/

/-- An array-write row issues the array write of its size (rules R185 to R187). -/
theorem IsArrayWrite.exec {i : Instr} {sz : AccessSize} {a v : Word} (h : IsArrayWrite i sz a v) (s : State) :
    exec i s = issue (arrWrite sz a v) s := by
  rcases h with ⟨x, rfl, rfl, rfl⟩ | ⟨x, rfl, rfl, rfl⟩ | ⟨rfl, rfl⟩ <;> rfl

/-- A well-formed array write is aligned and in the array (rules R85, R114). -/
theorem IsArrayWrite.wellFormed_iff {i : Instr} {sz : AccessSize} {a v : Word} (h : IsArrayWrite i sz a v)
    (p : Params) : WellFormed p i = true ↔ arrayAddressOk p sz a = true := by
  rcases h with ⟨x, rfl, rfl, rfl⟩ | ⟨x, rfl, rfl, rfl⟩ | ⟨rfl, rfl⟩ <;> rfl

theorem arrRead_busy {sz : AccessSize} {a : Word} {s : State} (ha : arrayAddressOk s.params sz a = true)
    (hb : busy s = true) : arrRead sz a s = none := by
  rw [arrRead, if_pos ha, unlessBusy_busy hb]

theorem arrWrite_busy {sz : AccessSize} {a : Word} (v : Word) {s : State}
    (ha : arrayAddressOk s.params sz a = true) (hb : busy s = true) : arrWrite sz a v s = none := by
  rw [arrWrite, if_pos ha, unlessBusy_busy hb]

/-- A command under way whose transaction holds keeps its position (rule R230). -/
theorem exec_holds {i : Instr} {e : Expansion} {p : Position} {u : Micro} {s : State}
    (hi : expansionOf s.params i = some e) (hrun : s.run = some p) (hp : p.cmd = i) (hu : e.txnAt p.idx = some u)
    (ht : microTxn u p s = none) : exec i s = .next { s with held := true } := by
  rw [exec_under_way hi hrun hp, continueAt_holds hu ht, ← hrun]

/-- READ's first byte (rule R238). -/
theorem readExpansion_first {p : Params} {a n : Word} (hlo : p.arrayBase ≤ a.toNat)
    (hend : a.toNat + n.toNat ≤ p.endAddr.toNat) (hn : 0 < n.toNat) :
    (readExpansion p a n).txnAt 0 = some (.rdByte a) := by
  have hok : readOk p a n = true := by
    simp only [readOk, Bool.and_eq_true, decide_eq_true_eq]
    exact ⟨⟨hlo, Nat.le_of_add_right_le hend⟩, hend⟩
  simp [readExpansion, hok, hn]

/-! ## What a transaction does to the pending operation -/

/-- What a transaction can do to the pending operation: leave it, or start one where none is pending, a program or an
erase while CR is open and a commit while OPTCR is open (rules R150, R153, R184). -/
inductive PendStep (s t : State) : Prop where
  | stay (h : t.pend = s.pend)
  | start (hidle : s.pend = .none) (hopen : s.ks = .opened) (h : TargetsArray t.pend)
  | commit (hidle : s.pend = .none) (hopen : s.oks = .opened) (h : ∃ f, t.pend = .optCommit f)

/-- A check or a drop leaves the pending operation, and an erase that starts is pending (rule R151). -/
theorem eraseRequest_pend (s : State) : (eraseRequest s).pend = s.pend ∨ TargetsArray (eraseRequest s).pend := by
  have hcheck : ∀ t, (startErase t).pend = t.pend ∨ TargetsArray (startErase t).pend := fun t => by
    rcases startErase_cases t with ⟨e, h⟩ | ⟨-, h⟩ | ⟨-, h⟩ <;> rw [h]
    · exact .inl rfl
    · exact .inr (.inr (.inl ⟨_, rfl⟩))
    · exact .inr (.inr (.inr rfl))
  rcases eraseRequest_cases s with ⟨-, h⟩ | h <;> rw [h]
  · exact .inl (afterDrop_pend s)
  · simpa only [afterDrop_pend] using hcheck (afterDrop s)

/-- A program starts only while CR is open (rule R184). -/
theorem programRequest_pendStep (sz : AccessSize) (a v : Word) {s : State} (hidle : s.pend = .none) :
    PendStep s (programRequest sz a v s) := by
  rcases programRequest_cases sz a v s with ⟨-, h⟩ | ⟨-, h⟩ | ⟨hok, h⟩ <;> rw [h]
  · exact .stay (afterDrop_pend s)
  · exact .stay (afterDrop_pend s)
  · refine .start hidle ((isLocked_eq_false_iff s.ks).mp ?_) (.inl ⟨a, sz, v, rfl⟩)
    simp only [programErrors, Errors.any, Bool.or_eq_false_iff] at hok
    obtain ⟨-, hlocked, -⟩ := hok
    exact hlocked

theorem unlessBusy_idle_of_some {f : State → State} {s t : State} (h : unlessBusy f s = some t) : s.pend = .none := by
  cases hb : busy s with
  | true => simp [unlessBusy_busy hb] at h
  | false => exact (busy_eq_false_iff s).mp hb

/-- An erase starts only while CR is open (rule R150). -/
theorem crWrite_pendStep {v : Word} {s t : State} (h : crWrite v s = some t) : PendStep s t := by
  have hidle := unlessBusy_idle_of_some h
  by_cases hk : s.ks = .opened
  · cases hs : v.getLsbD 16 with
    | false =>
      rw [crWrite_open hidle hk hs] at h
      cases h
      exact .stay rfl
    | true =>
      rw [crWrite_starts hidle hk hs] at h
      cases h
      rcases eraseRequest_pend (s.withCr (crOfWord s.params v)) with hstay | hstart
      · exact .stay hstay
      · exact .start hidle hk hstart
  · rw [crWrite_locked hidle hk] at h
    cases h
    exact .stay rfl

/-- A commit starts only while OPTCR is open (rule R153). -/
theorem optcrWrite_pendStep {v : Word} {s t : State} (h : optcrWrite v s = some t) : PendStep s t := by
  have hidle := unlessBusy_idle_of_some h
  by_cases hk : s.oks = .opened
  · rw [optcrWrite_open hidle hk] at h
    cases h
    cases v.getLsbD 1 with
    | false => exact .stay hidle.symm
    | true => exact .commit hidle hk ⟨_, rfl⟩
  · have hlocked := unlessBusy_some h
    rw [if_pos ((isLocked_iff s.oks).mpr hk)] at hlocked
    exact .stay (congrArg State.pend hlocked)

/-- The other four register writes leave the pending operation and the fields of CR and OPTCR. -/
theorem writeReg_keeps_operation {r : FlashReg} {v : Word} {s t : State} (h : writeReg r v s = some t)
    (hcr : r ≠ .cr) (hoptcr : r ≠ .optcr) : t.pend = s.pend ∧ t.cr = s.cr ∧ t.optcr = s.optcr := by
  cases r with
  | acr =>
    cases h
    split <;> exact ⟨rfl, rfl, rfl⟩
  | keyr =>
    cases h
    rw [presentKey_frame]
    exact ⟨rfl, rfl, rfl⟩
  | optkeyr =>
    cases h
    rw [presentOptKey_frame]
    exact ⟨rfl, rfl, rfl⟩
  | sr =>
    cases h
    exact ⟨rfl, rfl, rfl⟩
  | cr => exact absurd rfl hcr
  | optcr => exact absurd rfl hoptcr

theorem writeReg_pendStep {r : FlashReg} {v : Word} {s t : State} (h : writeReg r v s = some t) : PendStep s t := by
  cases r with
  | cr => exact crWrite_pendStep h
  | optcr => exact optcrWrite_pendStep h
  | acr | keyr | optkeyr | sr =>
    obtain ⟨hpend, -⟩ := writeReg_keeps_operation h nofun nofun
    exact .stay hpend

theorem Performs.pendStep {s t : State} (h : Performs s t) : PendStep s t := by
  cases h with
  | nothing | refuse => exact .stay rfl
  | readReg h => exact .stay (by rw [readReg_frame h])
  | writeReg h => exact writeReg_pendStep h
  | arrRead h => exact .stay (by rw [arrRead_frame h])
  | arrWrite h =>
    rcases arrWrite_cases h with ⟨-, hidle, rfl⟩ | ⟨-, rfl⟩
    · exact programRequest_pendStep _ _ _ hidle
    · exact .stay rfl

/-- What an instruction does to the pending operation is what its transaction does. -/
theorem exec_pendStep {i : Instr} {s t : State} (h : exec i s = .next t) : PendStep s t := by
  obtain ⟨u, hu, ht⟩ := exec_performs h
  have hpend : t.pend = u.pend := by rw [ht]
  cases hu.pendStep with
  | stay hp => exact .stay (hpend.trans hp)
  | start hidle hopen hp => exact .start hidle hopen (hpend ▸ hp)
  | commit hidle hopen hp => exact .commit hidle hopen (hpend ▸ hp)

/-! ## The control fields while an operation is pending -/

/-- While an operation is pending a register write leaves the fields of CR and OPTCR (rules R150, R153). -/
theorem writeReg_keeps_control {r : FlashReg} {v : Word} {s t : State} (h : writeReg r v s = some t)
    (hs : s.pend ≠ .none) : t.cr = s.cr ∧ t.optcr = s.optcr := by
  cases r with
  | cr => exact absurd (unlessBusy_idle_of_some (show crWrite v s = some t from h)) hs
  | optcr => exact absurd (unlessBusy_idle_of_some (show optcrWrite v s = some t from h)) hs
  | acr | keyr | optkeyr | sr =>
    obtain ⟨-, hcontrol⟩ := writeReg_keeps_operation h nofun nofun
    exact hcontrol

theorem Performs.keeps_control {s t : State} (h : Performs s t) (hs : s.pend ≠ .none) :
    t.cr = s.cr ∧ t.optcr = s.optcr := by
  cases h with
  | nothing | refuse => exact ⟨rfl, rfl⟩
  | readReg h => rw [readReg_frame h]; exact ⟨rfl, rfl⟩
  | writeReg h => exact writeReg_keeps_control h hs
  | arrRead h => rw [arrRead_frame h]; exact ⟨rfl, rfl⟩
  | arrWrite h => rw [arrWrite_frame h]; exact ⟨rfl, rfl⟩

theorem exec_keeps_control {i : Instr} {s t : State} (h : exec i s = .next t) (hs : s.pend ≠ .none) :
    t.cr = s.cr ∧ t.optcr = s.optcr := by
  obtain ⟨u, hu, ht⟩ := exec_performs h
  rw [ht]
  exact hu.keeps_control hs

/-- A program or an erase is no commit (rule R45). -/
theorem not_targetsArray_optCommit (f : OptFields) : ¬TargetsArray (.optCommit f) := by simp [TargetsArray]

theorem not_targetsArray_none : ¬TargetsArray .none := by simp [TargetsArray]

end Sys2Proof.Machine

namespace Sys2Proof

open Machine

/-- Settles O16: what an instruction's one transaction does to the pending operation. -/
theorem operationsStartUnlockedAndRunUndisturbed : Obligations.OperationsStartUnlockedAndRunUndisturbed := by
  unfold Obligations.OperationsStartUnlockedAndRunUndisturbed
  intro i s t h
  have hstep := exec_pendStep h
  refine ⟨fun hbusy => ?_, fun hidle => ⟨fun (htarget : TargetsArray t.pend) => ?_, fun ⟨f, hf⟩ => ?_⟩⟩
  · obtain ⟨hcr, hoptcr⟩ := exec_keeps_control h hbusy
    obtain ⟨-, harr, hob⟩ := exec_kept h
    refine ⟨?_, hcr, hoptcr, hob, harr⟩
    cases hstep with
    | stay hp => exact hp
    | start hi | commit hi => exact absurd hi hbusy
  · cases hstep with
    | stay hp => exact absurd (hp.trans hidle ▸ htarget) not_targetsArray_none
    | start _ hopen => exact hopen
    | commit _ _ hc =>
      obtain ⟨f, hf⟩ := hc
      exact absurd (hf ▸ htarget) (not_targetsArray_optCommit f)
  · cases hstep with
    | stay hp => exact nomatch hf.symm.trans (hp.trans hidle)
    | start _ _ htarget => exact absurd (hf ▸ htarget) (not_targetsArray_optCommit f)
    | commit _ hopen => exact hopen

/-- Settles O28: each transaction named holds, outside a command and at a command's position. -/
theorem busyTransactionsHold : Obligations.BusyTransactionsHold := by
  unfold Obligations.BusyTransactionsHold
  intro s hs
  have hb := (busy_eq_true_iff s).mpr hs
  refine ⟨fun v => ⟨issue_of_none (unlessBusy_busy hb), issue_of_none (unlessBusy_busy hb)⟩,
    fun i sz a hi hwf => ?_, fun i sz a v hi hwf => ?_, fun i p e u he hrun hp hu hhold => ?_,
    fun a n hrun hlo hhi hend hn => ?_⟩
  · exact (hi.exec s).trans (issue_of_none (arrRead_busy ((hi.wellFormed_iff s.params).mp hwf) hb))
  · exact (hi.exec s).trans (issue_of_none (arrWrite_busy v ((hi.wellFormed_iff s.params).mp hwf) hb))
  · exact exec_holds he hrun hp hu (hhold.elim (fun h => microTxn_of_holdsWhileBusy h hs) id)
  · have hfirst := readExpansion_first hlo hend hn
    have hin : inArray s.params a = true := by simp [inArray, hlo, hhi]
    have hhold : microTxn (.rdByte a) ⟨.read a n, 0, 0, []⟩ s = none :=
      microTxn_of_holdsWhileBusy (.inr (.inr (.inl ⟨a, rfl, hin⟩))) hs
    exact congrArg Host.Outcome.next ((runCommand_start hrun).trans (continueAt_holds hfirst hhold))

end Sys2Proof

/-! # UNLOCK, OPT_UNLOCK and OPT_LOCK (rules R144, R146, R233, R235, R236) -/

namespace Sys2Proof.Machine

/-! ## One transaction of a command of fixed transactions -/

theorem execTimes_succ {n : Nat} {i : Instr} {s u : State} (h : exec i s = .next u) :
    execTimes (n + 1) i s = execTimes n i u := by
  simp only [execTimes, h]

theorem cycles_succ_idle {n : Nat} {i : Instr} {s u : State} (h : exec i s = .next u) (hidle : u.pend = .none) :
    cycles (n + 1) i s = cycles n i u := by
  rw [cycles_succ h, engineStep_idle hidle]

section Transaction

variable {i : Instr} {us rest : List Micro} {u w : Micro} {p q : Position} {s t : State}
  (hexec : exec i s = .next (continueAt (Expansion.ofList us) p s)) (ht : microTxn u p s = some t)
  (hm : marked t = false) (hpad : padDraws u = 0) (hq : advance u t.rdata p = q)
include hexec ht hm hpad hq

/-- A transaction after which the command stands at `q`, where `w` is left. -/
theorem exec_goes (hu : us[p.idx]? = some u) (hw : us[q.idx]? = some w) :
    exec i s = .next { t with run := some q, held := false } := by
  subst hq
  rw [hexec, continueAt_goes hu ht hm (Option.isSome_of_eq_some hw), hpad]
  rfl

/-- A transaction after which none is left. -/
theorem exec_ends (hu : us[p.idx]? = some u) (hw : us[q.idx]? = none) :
    exec i s = .next { t with run := none, result := .nothing, held := false } := by
  subst hq
  rw [hexec, continueAt_ends hu ht hm hw, hpad]
  rfl

end Transaction

/-! ## UNLOCK's transactions -/

theorem sameKey_self (width : Nat) (k : Word) : sameKey width k k = true := decide_eq_true rfl

/-- `s` with the key machine of CR in state `k`, and a command standing at `p`. -/
def crKeyStage (s : State) (k : KeyState) (p : Position) : State := { s with ks := k, run := some p, held := false }

section Unlock

variable {i : Instr} {us rest : List Micro} {s : State} (hm : marked s = false)
  (hus : us = .wr .keyr s.params.key1 :: .wr .keyr s.params.key2 :: .poll .sr 0x00010000 :: rest)
include hm hus

/-- The first key, of a command that begins with UNLOCK's transactions (rule R233). -/
theorem exec_firstKey (hstart : exec i s = .next (continueAt (Expansion.ofList us) ⟨i, 0, 0, []⟩ s))
    (hks : s.ks = .wait1) : exec i s = .next (crKeyStage s .wait2 ⟨i, 1, 0, []⟩) := by
  subst hus
  have hwrite : microTxn (.wr .keyr s.params.key1) ⟨i, 0, 0, []⟩ s = some (s.withKs .wait2) :=
    microTxn_keyr (by rw [hks, keyNext_wait1 (sameKey_self _ _)])
  exact exec_goes hstart hwrite hm rfl rfl rfl rfl

/-- The second key. -/
theorem exec_secondKey (hi : expansionOf s.params i = some (Expansion.ofList us)) :
    exec i (crKeyStage s .wait2 ⟨i, 1, 0, []⟩) = .next (crKeyStage s .opened ⟨i, 2, 0, []⟩) := by
  subst hus
  have hwrite : microTxn (.wr .keyr s.params.key2) ⟨i, 1, 0, []⟩ (crKeyStage s .wait2 ⟨i, 1, 0, []⟩) =
      some ((crKeyStage s .wait2 ⟨i, 1, 0, []⟩).withKs .opened) :=
    microTxn_keyr (keyNext_wait2 (sameKey_self _ _))
  exact exec_goes (exec_under_way (s := crKeyStage s .wait2 ⟨i, 1, 0, []⟩) hi rfl rfl) hwrite hm rfl rfl rfl rfl

end Unlock

/-- A command begins with its first transaction. -/
theorem exec_begins {i : Instr} {e : Expansion} {s : State} (h : exec i s = .next (runCommand i true e s))
    (hrun : s.run = none) : exec i s = .next (continueAt e ⟨i, 0, 0, []⟩ s) := by
  rw [h, runCommand_start hrun]

/-- UNLOCK's two key writes open a locked CR (rule R233). -/
theorem execTimes_unlock_keys {s : State} (hs : Ready s) (hks : s.ks = .wait1) (k : Nat) :
    execTimes (k + 2) .unlock s = execTimes k .unlock (crKeyStage s .opened ⟨.unlock, 2, 0, []⟩) := by
  have ⟨_, _, hrun⟩ := hs
  rw [execTimes_succ (exec_firstKey hs.unmarked rfl (exec_begins rfl hrun) hks),
    execTimes_succ (exec_secondKey hs.unmarked rfl rfl)]

/-- With an operation pending UNLOCK's wait reads SR for ever (rule R244). -/
theorem exec_unlock_polls {s : State} {v : Word} (hm : marked s = false) (hp : s.pend ≠ .none)
    (hrun : s.run = some ⟨.unlock, 2, v, []⟩) :
    exec .unlock s = .next { s with
      rdata := regvalSr s, run := some ⟨.unlock, 2, regvalSr s, []⟩, held := false } :=
  exec_goes (i := .unlock) (u := .poll .sr 0x00010000) (us := unlockTxns s.params) (s := s)
    (t := s.withRdata (regvalSr s)) (exec_under_way rfl hrun rfl) rfl hm rfl (advance_poll_busy hp) rfl rfl

/-- So it is still waiting after any number of reads. -/
theorem execTimes_unlock_polls {s : State} {v : Word} (hm : marked s = false) (hp : s.pend ≠ .none)
    (hrun : s.run = some ⟨.unlock, 2, v, []⟩) (k : Nat) :
    ∃ t, execTimes k .unlock s = .next t ∧ t.ks = s.ks ∧ t.pend = s.pend ∧ t.run ≠ none := by
  induction k generalizing s v with
  | zero => exact ⟨s, rfl, rfl, rfl, by simp [hrun]⟩
  | succ k ih =>
    rw [execTimes_succ (exec_unlock_polls hm hp hrun)]
    exact ih (s := { s with rdata := regvalSr s, run := some ⟨.unlock, 2, regvalSr s, []⟩, held := false }) hm hp rfl

/-- A key write that is not the key expected locks CR out with BusError (rules R144, R281). -/
theorem writeReg_keyr_lockout {v : Word} {s : State}
    (h : keyNext s.params.keyWidth s.params.key1 s.params.key2 v s.ks = none) :
    writeReg .keyr v s = some { s with ks := .lockout, fault := some (keyrKey s.params) } := by
  simp only [writeReg, keyrWrite, presentKey, h]
  rfl

theorem writeReg_optkeyr_lockout {v : Word} {s : State}
    (h : keyNext s.params.keyWidth s.params.optkey1 s.params.optkey2 v s.oks = none) :
    writeReg .optkeyr v s = some { s with oks := .lockout, fault := some (optkeyrKey s.params) } := by
  simp only [writeReg, optkeyrWrite, presentOptKey, h]
  rfl

/-! ## OPT_UNLOCK and OPT_LOCK -/

/-- OPT_UNLOCK opens a locked OPTCR and returns when idle (rule R235). -/
theorem execTimes_optUnlock {s : State} (hs : Ready s) (hp : s.pend = .none) (hoks : s.oks = .wait1) :
    execTimes 3 .optUnlock s = .next { s with
      oks := .opened, rdata := regvalSr s, result := .nothing, held := false } := by
  have ⟨_, _, hrun⟩ := hs
  have hkey1 : microTxn (.wr .optkeyr s.params.optkey1) ⟨.optUnlock, 0, 0, []⟩ s = some (s.withOks .wait2) :=
    microTxn_optkeyr (by rw [hoks, keyNext_wait1 (sameKey_self _ _)])
  have hkey2 : microTxn (.wr .optkeyr s.params.optkey2) ⟨.optUnlock, 1, 0, []⟩
      (keyStage s .wait2 ⟨.optUnlock, 1, 0, []⟩) =
      some ((keyStage s .wait2 ⟨.optUnlock, 1, 0, []⟩).withOks .opened) :=
    microTxn_optkeyr (keyNext_wait2 (sameKey_self _ _))
  have hfirst : exec .optUnlock s = .next (keyStage s .wait2 ⟨.optUnlock, 1, 0, []⟩) :=
    exec_goes (us := optUnlockTxns s.params) (exec_begins rfl hrun) hkey1 hs.unmarked rfl rfl rfl rfl
  have hsecond : exec .optUnlock (keyStage s .wait2 ⟨.optUnlock, 1, 0, []⟩) =
      .next (keyStage s .opened ⟨.optUnlock, 2, 0, []⟩) :=
    exec_goes (us := optUnlockTxns s.params) (exec_under_way rfl rfl rfl) hkey2 hs.unmarked rfl rfl rfl rfl
  have hpoll : exec .optUnlock (keyStage s .opened ⟨.optUnlock, 2, 0, []⟩) = .next { s with
      oks := .opened, rdata := regvalSr s, run := none, result := .nothing, held := false } :=
    exec_ends (us := optUnlockTxns s.params) (u := .poll .sr 0x00010000)
      (t := (keyStage s .opened ⟨.optUnlock, 2, 0, []⟩).withRdata (regvalSr s))
      (exec_under_way rfl rfl rfl) rfl hs.unmarked rfl (advance_poll_idle (s := s) hp) rfl rfl
  rw [execTimes_succ hfirst, execTimes_succ hsecond, execTimes_succ hpoll, ← hrun]
  rfl

/-- OPT_LOCK's write on an idle OPTCR: an open one is locked, a locked one ignores it (rules R153, R236). -/
theorem optcrWrite_lock {s : State} (hp : s.pend = .none) (hf : s.optcr.nwrp.toNat < 2 ^ s.params.wrpWidth) :
    optcrWrite (regvalOptcr s &&& ~~~0 ||| 0x00000001) s =
      some { s with oks := if s.oks = .opened then .wait1 else s.oks } := by
  by_cases hk : s.oks = .opened
  · rw [optcrWrite_low (m := 0x00000001) hp hk hf (by decide), if_pos hk, ← hp]
    rfl
  · rw [optcrWrite, unlessBusy_idle ((busy_eq_false_iff s).mpr hp), if_pos ((isLocked_iff s.oks).mpr hk), if_neg hk]

/-- OPT_LOCK reads OPTCR and writes it back with the lock (rule R236). -/
theorem execTimes_optLock {s : State} (hs : Ready s) (hinv : Invariant s) (hp : s.pend = .none) :
    execTimes 2 .optLock s = .next { s with
      oks := if s.oks = .opened then .wait1 else s.oks
      rdata := regvalOptcr s
      result := .nothing
      held := false } := by
  have ⟨_, _, hrun⟩ := hs
  have hread : exec .optLock s = .next { s with
      rdata := regvalOptcr s, run := some ⟨.optLock, 1, regvalOptcr s, []⟩, held := false } :=
    begins_with_read hs (t := s.withRdata (regvalOptcr s)) rfl rfl rfl rfl
  have hwrite := optcrWrite_lock (s := { s with
    rdata := regvalOptcr s, run := some ⟨.optLock, 1, regvalOptcr s, []⟩, held := false }) hp hinv.nwrp_fits
  have hlock := exec_ends (i := .optLock) (us := optLockTxns) (u := .wrMod .optcr 0 0x00000001)
    (p := ⟨.optLock, 1, regvalOptcr s, []⟩) (exec_under_way rfl rfl rfl) hwrite hs.unmarked rfl rfl rfl rfl
  rw [execTimes_succ hread, execTimes_succ hlock, ← hrun]
  rfl

end Sys2Proof.Machine

namespace Sys2Proof

open Machine

/-- Settles O48: the two key writes, and then the wait; a first write that is not the key expected faults. -/
theorem unlockOpensTheControlRegister : Obligations.UnlockOpensTheControlRegister := by
  unfold Obligations.UnlockOpensTheControlRegister
  intro s hs
  have ⟨_, _, hrun⟩ := hs
  refine ⟨fun hks hp => ⟨regvalSr s, ?_⟩, fun hks hp k => ?_, fun hks hequal => ?_⟩
  · have hpoll : exec .unlock (crKeyStage s .opened ⟨.unlock, 2, 0, []⟩) = .next { s with
        ks := .opened, rdata := regvalSr s, run := none, result := .nothing, held := false } :=
      exec_ends (us := unlockTxns s.params) (u := .poll .sr 0x00010000)
        (t := (crKeyStage s .opened ⟨.unlock, 2, 0, []⟩).withRdata (regvalSr s))
        (exec_under_way rfl rfl rfl) rfl hs.unmarked rfl (advance_poll_idle (s := s) hp) rfl rfl
    rw [execTimes_unlock_keys hs hks 1, execTimes_succ hpoll, ← hrun]
    rfl
  · rw [execTimes_unlock_keys hs hks k]
    exact execTimes_unlock_polls (s := crKeyStage s .opened ⟨.unlock, 2, 0, []⟩) hs.unmarked hp rfl k
  · have hnone := keyNext_eq_none (k1 := s.params.key1) (fun h => hks h.1) hequal
    exact begins_with_write (e := Expansion.ofList (unlockTxns s.params)) hs rfl rfl rfl (writeReg_keyr_lockout hnone)

/-- Settles O49: OPT_UNLOCK's run, its fault at a key not expected, and OPT_LOCK's run. -/
theorem optionLockOpensAndCloses : Obligations.OptionLockOpensAndCloses := by
  unfold Obligations.OptionLockOpensAndCloses
  intro s hs hinv hp
  refine ⟨fun hoks => ⟨_, execTimes_optUnlock hs hp hoks⟩, fun hoks hequal => ?_, _, execTimes_optLock hs hinv hp⟩
  have hnone := keyNext_eq_none (k1 := s.params.optkey1) (fun h => hoks h.1) hequal
  exact begins_with_write (e := Expansion.ofList (optUnlockTxns s.params)) hs rfl rfl rfl
    (writeReg_optkeyr_lockout hnone)

end Sys2Proof

/-! # Erases: CR's read-modify-writes, starts and completions, and the commands that erase (rules R122, R150, R151, R202,
R203, R240, R241, R330) -/

namespace Sys2Proof.Machine

/-! ## Read-modify-writes of CR -/

/-- CR's fields after a read-modify-write (rules R122, R150). -/
def CrFields.modify (p : Params) (f : CrFields) (c m : Word) : CrFields where
  pg := (f.pg && !c.getLsbD 0) || m.getLsbD 0
  ser := (f.ser && !c.getLsbD 1) || m.getLsbD 1
  mer := (f.mer && !c.getLsbD 2) || m.getLsbD 2
  snb := f.snb &&& ~~~((c.extractLsb' 3 p.snbWidth).setWidth 5) ||| (m.extractLsb' 3 p.snbWidth).setWidth 5
  psize := f.psize &&& ~~~((c.extractLsb' 8 p.psizeWidth).setWidth 8) ||| (m.extractLsb' 8 p.psizeWidth).setWidth 8
  eopie := (f.eopie && !c.getLsbD 24) || m.getLsbD 24
  errie := (f.errie && !c.getLsbD 25) || m.getLsbD 25

/-- SNB and PSIZE fit their widths (rule R5). -/
def CrFields.Fits (p : Params) (f : CrFields) : Prop := f.snb.toNat < 2 ^ p.snbWidth ∧ f.psize.toNat < 2 ^ p.psizeWidth

/-- A bit field that fits its width still fits after a modification. -/
theorem modified_field_lt {room : Nat} {f : BitVec room} {lo n : Nat} (c m : Word) (hf : f.toNat < 2 ^ n) :
    (f &&& ~~~((c.extractLsb' lo n).setWidth room) ||| (m.extractLsb' lo n).setWidth room).toNat < 2 ^ n := by
  rw [BitVec.toNat_or, BitVec.toNat_and]
  exact Nat.or_lt_two_pow (Nat.lt_of_le_of_lt Nat.and_le_left hf) (field_lt m lo n)

theorem CrFields.modify_fits {p : Params} {f : CrFields} (hf : f.Fits p) (c m : Word) : (f.modify p c m).Fits p :=
  ⟨modified_field_lt c m hf.1, modified_field_lt c m hf.2⟩

/-- Read back from CR, modified and written. -/
theorem crOfWord_modify {s : State} (c m : Word) (hf : s.cr.Fits s.params) :
    crOfWord s.params (regvalCr s &&& ~~~c ||| m) = s.cr.modify s.params c m := by
  have h0 : (regvalCr s).getLsbD 0 = s.cr.pg := getLsbD_regvalCr s 0
  have h1 : (regvalCr s).getLsbD 1 = s.cr.ser := getLsbD_regvalCr s 1
  have h2 : (regvalCr s).getLsbD 2 = s.cr.mer := getLsbD_regvalCr s 2
  have h24 : (regvalCr s).getLsbD 24 = s.cr.eopie := getLsbD_regvalCr s 24
  have h25 : (regvalCr s).getLsbD 25 = s.cr.errie := getLsbD_regvalCr s 25
  obtain ⟨hsnb, hpsize⟩ := hf
  rw [crOfWord_mod, snb_regvalCr hsnb, psize_regvalCr hpsize, h0, h1, h2, h24, h25]
  rfl

/-- A mask or value that names no bit of SNB's and PSIZE's rooms, bits 15:3 of CR (rule R38). -/
abbrev OutsideRooms (x : Word) : Prop := ∀ j, j < 13 → x.getLsbD (3 + j) = false

theorem field_eq_zero {room : Nat} {v : Word} {lo : Nat} (n : Nat) (h : ∀ j, j < room → v.getLsbD (lo + j) = false) :
    (v.extractLsb' lo n).setWidth room = 0 := by
  apply BitVec.eq_of_getLsbD_eq
  intro j hj
  rw [getLsbD_field v lo n j hj, h j hj, Bool.and_false]
  exact BitVec.getLsbD_zero.symm

theorem OutsideRooms.snb {x : Word} (h : OutsideRooms x) (n : Nat) : (x.extractLsb' 3 n).setWidth 5 = (0 : BitVec 5) :=
  field_eq_zero n fun j hj => h j (by omega)

theorem OutsideRooms.psize {x : Word} (h : OutsideRooms x) (n : Nat) :
    (x.extractLsb' 8 n).setWidth 8 = (0 : BitVec 8) :=
  field_eq_zero n fun j hj => by
    have hbit := h (5 + j) (by omega)
    rwa [← Nat.add_assoc] at hbit

/-- A modification outside their rooms leaves SNB and PSIZE. -/
theorem CrFields.modify_outside (p : Params) (f : CrFields) {c m : Word} (hc : OutsideRooms c) (hm : OutsideRooms m) :
    f.modify p c m = { f with
      pg := (f.pg && !c.getLsbD 0) || m.getLsbD 0
      ser := (f.ser && !c.getLsbD 1) || m.getLsbD 1
      mer := (f.mer && !c.getLsbD 2) || m.getLsbD 2
      eopie := (f.eopie && !c.getLsbD 24) || m.getLsbD 24
      errie := (f.errie && !c.getLsbD 25) || m.getLsbD 25 } := by
  simp only [modify, hc.snb, hc.psize, hm.snb, hm.psize, BitVec.ofNat_eq_ofNat, BitVec.not_zero, BitVec.and_allOnes,
    BitVec.or_zero]

/-- STRT and LOCK are no fields: setting either modifies none (rule R38). -/
theorem CrFields.modify_strt (p : Params) (f : CrFields) : f.modify p 0 0x00010000 = f := by
  rw [modify_outside p f (by decide) (by decide)]
  simp

theorem CrFields.modify_lock (p : Params) (f : CrFields) : f.modify p 0 0x80000000 = f := by
  rw [modify_outside p f (by decide) (by decide)]
  simp

/-- Clearing PG, SER and MER (rules R239 to R241). -/
theorem CrFields.modify_clearModes (p : Params) (f : CrFields) :
    f.modify p 0x00000007 0 = { f with pg := false, ser := false, mer := false } := by
  rw [modify_outside p f (by decide) (by decide)]
  simp

/-- Setting MER (rule R241). -/
theorem CrFields.modify_setMer (p : Params) (f : CrFields) : f.modify p 0 0x00000004 = { f with mer := true } := by
  rw [modify_outside p f (by decide) (by decide)]
  simp

/-- What ERASE_SECTOR sets in CR: SER and the sector's number (rule R240). -/
def selectSector (n : Word) : Word := 0x00000002 ||| n <<< 3

theorem getLsbD_selectSector (n : Word) {j : Nat} (hj : j < 32) :
    (selectSector n).getLsbD j = (decide (j = 1) || (decide (3 ≤ j) && n.getLsbD (j - 3))) := by
  unfold selectSector
  interval_cases j <;> simp

/-- Above the bits of a sector number of `w` bits nothing is set. -/
theorem getLsbD_selectSector_above {n : Word} {w j : Nat} (hn : n.toNat < 2 ^ w) (hw : 3 + w ≤ j) (hj : j < 32)
    (h1 : j ≠ 1) : (selectSector n).getLsbD j = false := by
  rw [getLsbD_selectSector n hj, getLsbD_of_toNat_lt hn (show w ≤ j - 3 by omega), Bool.and_false,
    decide_eq_false h1, Bool.or_false]

/-- Outside SNB's bits its mask names nothing. -/
theorem getLsbD_snbMask {w j : Nat} (h : ¬(3 ≤ j ∧ j < 3 + w)) : (fieldMask 3 w).getLsbD j = false := by
  rw [getLsbD_fieldMask]
  simp only [Bool.and_eq_false_iff, decide_eq_false_iff_not]
  omega

/-- Replacing SNB by a number that fits it. -/
theorem modify_snb {w : Nat} {f : BitVec 5} {n : Word} (hf : f.toNat < 2 ^ w) (hn : n.toNat < 2 ^ w) :
    f &&& ~~~(((fieldMask 3 w).extractLsb' 3 w).setWidth 5) ||| ((selectSector n).extractLsb' 3 w).setWidth 5 =
      n.setWidth 5 := by
  apply BitVec.eq_of_getLsbD_eq
  intro j hj
  have h32 : 3 + j < 32 := by omega
  rw [BitVec.getLsbD_or, BitVec.getLsbD_and, BitVec.getLsbD_not, getLsbD_field _ _ _ _ hj, getLsbD_field _ _ _ _ hj,
    getLsbD_fieldMask, getLsbD_selectSector n h32, BitVec.getLsbD_setWidth, Nat.add_sub_cancel_left]
  by_cases hin : j < w
  · simp [hin, hj, h32]
    omega
  · rw [getLsbD_of_toNat_lt hf (Nat.not_lt.mp hin), getLsbD_of_toNat_lt hn (Nat.not_lt.mp hin)]
    simp [hin]

/-- Selecting a sector whose number fits SNB (rule R240). -/
theorem CrFields.modify_selectSector {p : Params} {f : CrFields} {n : Word} (hw : p.snbWidth ≤ 5)
    (hf : f.snb.toNat < 2 ^ p.snbWidth) (hn : n.toNat < 2 ^ p.snbWidth) :
    f.modify p (fieldMask 3 p.snbWidth) (selectSector n) = { f with ser := true, snb := n.setWidth 5 } := by
  have hmask : ∀ j, j < 3 ∨ 8 ≤ j → (fieldMask 3 p.snbWidth).getLsbD j = false := fun j hj =>
    getLsbD_snbMask (by omega)
  have hval : ∀ j, 8 ≤ j → j < 32 → (selectSector n).getLsbD j = false := fun j h8 h32 =>
    getLsbD_selectSector_above hn (by omega) h32 (by omega)
  have h0 : (selectSector n).getLsbD 0 = false := getLsbD_selectSector n (by decide)
  have h1 : (selectSector n).getLsbD 1 = true := getLsbD_selectSector n (by decide)
  have h2 : (selectSector n).getLsbD 2 = false := getLsbD_selectSector n (by decide)
  rw [modify, modify_snb hf hn, field_eq_zero p.psizeWidth fun j hj => hmask (8 + j) (by omega),
    field_eq_zero p.psizeWidth fun j hj => hval (8 + j) (by omega) (by omega), hmask 0 (by omega), hmask 1 (by omega),
    hmask 2 (by omega), hmask 24 (by omega), hmask 25 (by omega), h0, h1, h2, hval 24 (by omega) (by omega),
    hval 25 (by omega) (by omega)]
  simp only [BitVec.ofNat_eq_ofNat, BitVec.not_zero, BitVec.and_allOnes, BitVec.or_zero, Bool.not_false, Bool.and_true,
    Bool.or_false, Bool.or_true]

/-- A read-modify-write of an open and idle CR that sets no start (rules R122, R150). -/
theorem crWrite_modify {s : State} (c : Word) {m : Word} (hp : s.pend = .none) (hk : s.ks = .opened)
    (hf : s.cr.Fits s.params) (hm : m.getLsbD 16 = false) :
    crWrite (regvalCr s &&& ~~~c ||| m) s = some { s with
      cr := s.cr.modify s.params c m
      ks := if m.getLsbD 31 = true then .wait1 else .opened } := by
  have hstrt : strtBit s = false := by simp only [strtBit, hp]
  have h16 : (regvalCr s).getLsbD 16 = false := (getLsbD_regvalCr s 16).trans hstrt
  have h31 : (regvalCr s).getLsbD 31 = false :=
    (getLsbD_regvalCr s 31).trans ((isLocked_eq_false_iff s.ks).mpr hk)
  have hstart : (regvalCr s &&& ~~~c ||| m).getLsbD 16 = false := by
    rw [getLsbD_mod _ _ _ (by decide), h16, hm]
    rfl
  rw [crWrite_open hp hk hstart, crOfWord_modify c m hf, getLsbD_mod _ _ _ (show 31 < 32 by decide), h31]
  rfl

/-- Setting STRT in an open and idle CR requests an erase with the fields it holds (rules R150, R151). -/
theorem crWrite_setStrt {s : State} (hp : s.pend = .none) (hk : s.ks = .opened) (hf : s.cr.Fits s.params) :
    crWrite (regvalCr s &&& ~~~0 ||| 0x00010000) s = some (eraseRequest s) := by
  have h31 : (regvalCr s &&& ~~~0 ||| 0x00010000).getLsbD 31 = false := by
    rw [getLsbD_mod _ _ _ (by decide), getLsbD_regvalCr, (isLocked_eq_false_iff s.ks).mpr hk]
    rfl
  have h16 : (regvalCr s &&& ~~~0 ||| 0x00010000).getLsbD 16 = true := by
    rw [getLsbD_mod _ _ _ (by decide)]
    exact Bool.or_true _
  rw [crWrite_start hp hk h16 h31, crOfWord_modify _ _ hf, CrFields.modify_strt]
  rfl

/-- Setting LOCK in an open and idle CR locks it, and no field changes (rules R150, R234). -/
theorem crWrite_setLock {s : State} (hp : s.pend = .none) (hk : s.ks = .opened) (hf : s.cr.Fits s.params) :
    crWrite (regvalCr s &&& ~~~0 ||| 0x80000000) s = some { s with ks := .wait1 } := by
  rw [crWrite_modify 0 hp hk hf (by decide), CrFields.modify_lock]
  rfl

/-! ## The erases that start, and those that are rejected -/

/-- A start with the fields `c` begins the erase `o`: its target is not protected (rule R151). -/
def FreeErase (p : Params) (ob : OptFields) (c : CrFields) (o : Pending) : Prop :=
  (crMode c = .sectorErase ∧ o = .sectorErase c.snb ∧ ¬SectorProtected p ob c.snb.toNat) ∨
    (crMode c = .massErase ∧ o = .massErase ∧ ∀ i, i < p.nSectors → wprot ob i = false)

/-- A start with the fields `c` is one of an erase whose target is protected. -/
def ProtectedErase (p : Params) (ob : OptFields) (c : CrFields) : Prop :=
  (crMode c = .sectorErase ∧ SectorProtected p ob c.snb.toNat) ∨
    (crMode c = .massErase ∧ ∃ i, SectorProtected p ob i)

theorem FreeErase.startErase {s : State} {o : Pending} (h : FreeErase s.params s.ob s.cr o) :
    startErase s = s.withPend o := by
  rcases h with ⟨hm, rfl, hfree⟩ | ⟨hm, rfl, hfree⟩
  · exact startErase_sector_free hm hfree
  · exact startErase_mass_free hm hfree

theorem ProtectedErase.startErase {s : State} (h : ProtectedErase s.params s.ob s.cr) :
    startErase s = s.withSr (wrpFlags s.sr s.cr.errie) := by
  rcases h with ⟨hm, hprot⟩ | ⟨hm, hprot⟩
  · exact startErase_sector_protected hm hprot
  · exact startErase_mass_protected hm hprot

/-! ## The completion of an erase -/

/-- The first byte and the size of what a pending erase erases (rules R202, R203). -/
inductive Erases (p : Params) : Pending → Nat → Nat → Prop where
  | sector (n : BitVec 5) : Erases p (.sectorErase n) (sectorRange p.sectorMap n.toNat).1
      (sectorRange p.sectorMap n.toNat).2
  | all : Erases p .massErase p.arrayBase (arraySize p)

theorem FreeErase.erases {p : Params} {ob : OptFields} {c : CrFields} {o : Pending} (h : FreeErase p ob c o) :
    ∃ lo n, Erases p o lo n := by
  rcases h with ⟨-, rfl, -⟩ | ⟨-, rfl, -⟩
  · exact ⟨_, _, .sector _⟩
  · exact ⟨_, _, .all⟩

/-- What a completed erase of the bytes `lo .. lo+n-1` leaves, but for `pend`: erased bytes, or drawn ones with a PSIZE
code of 3 and above (rules R202, R203). -/
def erased (lo n : Nat) (s : State) : State :=
  { s with
    sr := eopFlags s.sr s.cr.eopie
    arr := if 3 ≤ s.cr.psize.toNat then setRange s.arr lo n (drawnBytes s.draws)
      else fillRange s.arr lo n s.params.erasedByte
    stale := staleUpdate s.stale s.arr lo n
    draws := if 3 ≤ s.cr.psize.toNat then s.draws + n else s.draws }

theorem eraseAndFinish_eq_erased (lo n : Nat) (s : State) :
    eraseAndFinish lo n s = { erased lo n s with pend := .none } := by
  rw [eraseAndFinish_eq]
  by_cases h : 3 ≤ s.cr.psize.toNat
  · simp only [erased, eraseTarget, if_pos h]
    rfl
  · simp only [erased, eraseTarget, if_neg h]
    rfl

/-- The engine completes a pending erase. -/
theorem engineStep_erase {s : State} {lo n : Nat} (h : Erases s.params s.pend lo n) :
    engineStep s = { erased lo n s with pend := .none } := by
  rw [← eraseAndFinish_eq_erased]
  rcases engineStep_cases s with ⟨hp, -⟩ | ⟨a, sz, v, hp, -⟩ | ⟨b, hp, he⟩ | ⟨hp, he⟩ | ⟨f, hp, -⟩ <;> rw [hp] at h <;>
    cases h
  · exact he
  · exact he

/-- Outside its range a completed erase leaves the bytes. -/
theorem readByte_erased_outside {lo n b : Nat} (s : State) (h : ¬(lo ≤ b ∧ b < lo + n)) :
    readByte (erased lo n s).arr b = readByte s.arr b := by
  unfold erased
  split
  · rw [readByte_setRange, if_neg h]
  · rw [readByte_fillRange, if_neg h]

/-- Inside its range it leaves erased bytes, with a PSIZE code below 3. -/
theorem readByte_erased_inside {lo n b : Nat} {s : State} (hps : s.cr.psize.toNat < 3) (h : lo ≤ b ∧ b < lo + n) :
    readByte (erased lo n s).arr b = s.params.erasedByte := by
  rw [erased, if_neg (Nat.not_le.mpr hps), readByte_fillRange, if_pos h]

/-! ## A command with CR open -/

/-- `s` with CR open and holding the fields `c`, and the command `i` standing at its transaction `k` with `v` as the
word it last read. -/
def controlStage (s : State) (i : Instr) (k : Nat) (c : CrFields) (v : Word) : State :=
  { s with cr := c, ks := .opened, rdata := v, run := some ⟨i, k, v, []⟩, held := false }

/-- CR's word while it is open and holds the fields `c`. -/
def openCr (s : State) (c : CrFields) : Word := regvalCr { s with cr := c, ks := .opened }

section Control

variable {i : Instr} {us : List Micro} {s : State} {c : CrFields} {k : Nat} {v x m : Word} {w : Micro}
  (n : Nat) (hi : expansionOf s.params i = some (Expansion.ofList us)) (hm : marked s = false) (hp : s.pend = .none)
include hi hm hp

/-- A read of CR inside a command (rule R122). -/
theorem cycles_readCr (hu : us[k]? = some (.rd .cr)) (hw : us[k + 1]? = some w) :
    cycles (n + 1) i (controlStage s i k c v) = cycles n i (controlStage s i (k + 1) c (openCr s c)) :=
  cycles_succ_idle (exec_goes (exec_under_way (s := controlStage s i k c v) hi rfl rfl)
    (t := (controlStage s i k c v).withRdata (openCr s c)) rfl hm rfl rfl hu hw) hp

/-- A poll inside a command, with nothing pending (rule R244). -/
theorem cycles_pollSr (hu : us[k]? = some (.poll .sr 0x00010000)) (hw : us[k + 1]? = some w) :
    cycles (n + 1) i (controlStage s i k c v) = cycles n i (controlStage s i (k + 1) c (regvalSr s)) :=
  cycles_succ_idle (exec_goes (exec_under_way (s := controlStage s i k c v) hi rfl rfl)
    (t := (controlStage s i k c v).withRdata (regvalSr s)) rfl hm rfl (advance_poll_idle (s := s) hp) hu hw) hp

/-- A write that modifies CR's fields, and starts and locks nothing (rules R122, R150). -/
theorem cycles_modifyCr (hf : c.Fits s.params) (h16 : m.getLsbD 16 = false) (h31 : m.getLsbD 31 = false)
    (hu : us[k]? = some (.wrMod .cr x m)) (hw : us[k + 1]? = some w) :
    cycles (n + 1) i (controlStage s i k c (openCr s c)) =
      cycles n i (controlStage s i (k + 1) (c.modify s.params x m) (openCr s c)) := by
  have hwrite := crWrite_modify (s := controlStage s i k c (openCr s c)) x hp rfl hf h16
  rw [h31] at hwrite
  exact cycles_succ_idle (exec_goes (u := .wrMod .cr x m)
    (exec_under_way (s := controlStage s i k c (openCr s c)) hi rfl rfl) hwrite hm rfl rfl hu hw) hp

/-- UNLOCK's three transactions, at the beginning of a command (rule R233). -/
theorem cycles_unlock {rest : List Micro} (hstart : exec i s = .next (runCommand i true (Expansion.ofList us) s))
    (hrun : s.run = none) (hks : s.ks = .wait1) (hus : us = unlockTxns s.params ++ w :: rest) :
    cycles (n + 3) i s = cycles n i (controlStage s i 3 s.cr (regvalSr s)) := by
  have hpoll : exec i (crKeyStage s .opened ⟨i, 2, 0, []⟩) = .next (controlStage s i 3 s.cr (regvalSr s)) := by
    subst hus
    exact exec_goes (u := .poll .sr 0x00010000) (t := (crKeyStage s .opened ⟨i, 2, 0, []⟩).withRdata (regvalSr s))
      (exec_under_way (s := crKeyStage s .opened ⟨i, 2, 0, []⟩) hi rfl rfl) rfl hm rfl (advance_poll_idle (s := s) hp)
      rfl rfl
  rw [cycles_succ_idle (exec_firstKey hm hus (exec_begins hstart hrun) hks) hp,
    cycles_succ_idle (exec_secondKey hm hus hi) hp, cycles_succ_idle hpoll hp]

omit hm in
/-- The write that sets STRT performs the erase request (rule R151). -/
theorem exec_setStrt (hf : c.Fits s.params) (hsticky : sticky s.sr = false)
    (hu : us[k]? = some (.wrMod .cr 0 0x00010000)) (hw : us[k + 1]? = some w) {t : State}
    (ht : startErase (controlStage s i k c (openCr s c)) = t) (hmt : marked t = false) :
    exec i (controlStage s i k c (openCr s c)) =
      .next { t with run := some ⟨i, k + 1, openCr s c, []⟩, held := false } := by
  have hwrite := crWrite_setStrt (s := controlStage s i k c (openCr s c)) hp rfl hf
  rw [eraseRequest_of_not_sticky (s := controlStage s i k c (openCr s c)) hsticky, ht] at hwrite
  exact exec_goes (u := .wrMod .cr 0 0x00010000)
    (exec_under_way (s := controlStage s i k c (openCr s c)) hi rfl rfl) hwrite hmt rfl rfl hu hw

/-- An erase that starts, and that the engine completes (rules R151, R202, R203). -/
theorem cycles_freeErase (hf : c.Fits s.params) (hsticky : sticky s.sr = false)
    (hu : us[k]? = some (.wrMod .cr 0 0x00010000)) (hw : us[k + 1]? = some w) {o : Pending}
    (hfree : FreeErase s.params s.ob c o) {lo len : Nat} (ho : Erases s.params o lo len) :
    cycles (n + 1) i (controlStage s i k c (openCr s c)) =
      cycles n i (controlStage (erased lo len (s.withCr c)) i (k + 1) c (openCr s c)) := by
  have hstart := FreeErase.startErase (s := controlStage s i k c (openCr s c)) hfree
  have hengine := engineStep_erase (s := (controlStage s i (k + 1) c (openCr s c)).withPend o) ho
  rw [← hp] at hengine
  rw [cycles_succ (exec_setStrt hi hp hf hsticky hu hw hstart hm)]
  exact congrArg (cycles n i) hengine

/-- An erase that is rejected (rules R151, R283). -/
theorem cycles_protectedErase (hf : c.Fits s.params) (hsticky : sticky s.sr = false)
    (hu : us[k]? = some (.wrMod .cr 0 0x00010000)) (hw : us[k + 1]? = some w)
    (hprot : ProtectedErase s.params s.ob c) :
    cycles (n + 1) i (controlStage s i k c (openCr s c)) =
      cycles n i (controlStage (s.withSr (wrpFlags s.sr c.errie)) i (k + 1) c (openCr s c)) := by
  have hstart := ProtectedErase.startErase (s := controlStage s i k c (openCr s c)) hprot
  exact cycles_succ_idle (exec_setStrt hi hp hf hsticky hu hw hstart hm) hp

/-- The write that sets LOCK, the command's last transaction (rule R234). -/
theorem cycles_lockCr (hf : c.Fits s.params) (hu : us[k]? = some (.wrMod .cr 0 0x80000000)) (hw : us[k + 1]? = none) :
    cycles 1 i (controlStage s i k c (openCr s c)) = .next { s with
      cr := c, ks := .wait1, rdata := openCr s c, run := none, result := .nothing, held := false } := by
  have hwrite := crWrite_setLock (s := controlStage s i k c (openCr s c)) hp rfl hf
  exact cycles_succ_idle (exec_ends (u := .wrMod .cr 0 0x80000000)
    (exec_under_way (s := controlStage s i k c (openCr s c)) hi rfl rfl) hwrite hm rfl rfl hu hw) hp

end Control

/-! ## ERASE_SECTOR and ERASE_ALL -/

/-- The transactions of the two erase commands, `x` and `m` the mask and the value that select what to erase (rules
R240, R241). -/
def eraseTxns (p : Params) (x m : Word) : List Micro :=
  unlockTxns p ++ clr32 .cr 0x00000007 ++ mod32 .cr x m ++ set32 .cr 0x00010000 ++ pollIdle ++ lockTxns

/-- The host begins the erase command `i` at `s`, with nothing pending, CR locked and no sticky flag; `c` are the fields
that CR holds when the command starts the erase. -/
structure BeginsErase (s : State) (i : Instr) (x m : Word) (c : CrFields) : Prop where
  expansion : expansionOf s.params i = some (Expansion.ofList (eraseTxns s.params x m))
  admitted : exec i s = .next (runCommand i true (Expansion.ofList (eraseTxns s.params x m)) s)
  ready : Ready s
  idle : s.pend = .none
  locked : s.ks = .wait1
  not_sticky : sticky s.sr = false
  fits : s.cr.Fits s.params
  no_start : m.getLsbD 16 = false
  no_lock : m.getLsbD 31 = false
  fields : c = (s.cr.modify s.params 0x00000007 0).modify s.params x m

section Erase

variable {s : State} {i : Instr} {x m : Word} {c : CrFields} (h : BeginsErase s i x m c)
include h

theorem BeginsErase.fields_fit : c.Fits s.params :=
  h.fields ▸ CrFields.modify_fits (CrFields.modify_fits h.fits _ _) _ _

/-- The command up to its start, with the engine after each transaction. -/
theorem BeginsErase.cycles_start : cycles 12 i s = cycles 4 i (controlStage s i 8 c (openCr s c)) := by
  have hm := h.ready.unmarked
  have ⟨_, _, hrun⟩ := h.ready
  rw [h.fields]
  calc
    cycles 12 i s = cycles 9 i (controlStage s i 3 s.cr (regvalSr s)) :=
      cycles_unlock 9 h.expansion hm h.idle h.admitted hrun h.locked rfl
    _ = cycles 8 i (controlStage s i 4 s.cr (openCr s s.cr)) := cycles_readCr 8 h.expansion hm h.idle rfl rfl
    _ = cycles 7 i (controlStage s i 5 (s.cr.modify s.params 0x00000007 0) (openCr s s.cr)) :=
      cycles_modifyCr 7 h.expansion hm h.idle h.fits rfl rfl rfl rfl
    _ = cycles 6 i (controlStage s i 6 (s.cr.modify s.params 0x00000007 0) _) :=
      cycles_readCr 6 h.expansion hm h.idle rfl rfl
    _ = cycles 5 i (controlStage s i 7 ((s.cr.modify s.params 0x00000007 0).modify s.params x m) _) :=
      cycles_modifyCr 5 h.expansion hm h.idle (CrFields.modify_fits h.fits _ _) h.no_start h.no_lock rfl rfl
    _ = _ := cycles_readCr 4 h.expansion hm h.idle rfl rfl

omit h in
/-- An erase command from the poll after its start on, with nothing pending any more. -/
theorem cycles_eraseCommand_end {v : Word}
    (hi : expansionOf s.params i = some (Expansion.ofList (eraseTxns s.params x m))) (hm : marked s = false)
    (hp : s.pend = .none) (hf : c.Fits s.params) :
    cycles 3 i (controlStage s i 9 c v) = .next { s with
      cr := c, ks := .wait1, rdata := openCr s c, run := none, result := .nothing, held := false } := by
  rw [cycles_pollSr 2 hi hm hp (k := 9) rfl rfl, cycles_readCr 1 hi hm hp (k := 10) rfl rfl,
    cycles_lockCr hi hm hp (k := 11) hf rfl rfl]

/-- The whole run when the target is not protected: it is erased (rules R202, R203, R240, R241). -/
theorem BeginsErase.cycles_free {o : Pending} (hfree : FreeErase s.params s.ob c o) {lo len : Nat}
    (ho : Erases s.params o lo len) :
    ∃ v, cycles 12 i s = .next { erased lo len (s.withCr c) with
      rdata := v, result := .nothing, held := false } := by
  have hm := h.ready.unmarked
  have ⟨_, _, hrun⟩ := h.ready
  refine ⟨openCr (erased lo len (s.withCr c)) c, ?_⟩
  rw [h.cycles_start,
    cycles_freeErase 3 h.expansion hm h.idle (k := 8) h.fields_fit h.not_sticky rfl rfl hfree ho,
    cycles_eraseCommand_end (s := erased lo len (s.withCr c)) h.expansion hm h.idle h.fields_fit, ← h.locked, ← hrun]
  rfl

/-- The whole run when it is protected: WRPERR is set, and OPERR while ERRIE = 1 (rules R151, R283). -/
theorem BeginsErase.cycles_protected (hprot : ProtectedErase s.params s.ob c) :
    ∃ v, cycles 12 i s = .next { s with
      cr := c, sr := wrpFlags s.sr c.errie, rdata := v, result := .nothing, held := false } := by
  have hm := h.ready.unmarked
  have ⟨_, _, hrun⟩ := h.ready
  refine ⟨openCr (s.withSr (wrpFlags s.sr c.errie)) c, ?_⟩
  rw [h.cycles_start,
    cycles_protectedErase 3 h.expansion hm h.idle (k := 8) h.fields_fit h.not_sticky rfl rfl hprot,
    cycles_eraseCommand_end (s := s.withSr (wrpFlags s.sr c.errie)) h.expansion hm h.idle h.fields_fit, ← h.locked,
    ← hrun]
  rfl

end Erase

section Commands

variable {s : State} (hs : Ready s) (hinv : Invariant s) (hp : s.pend = .none) (hks : s.ks = .wait1)
  (hsticky : sticky s.sr = false)
include hs hinv hp hks hsticky

/-- ERASE_SECTOR selects its sector (rule R240). -/
theorem beginsErase_sector {n : Word} (hn : n.toNat < 2 ^ s.params.snbWidth) :
    BeginsErase s (.eraseSector n) (fieldMask 3 s.params.snbWidth) (selectSector n)
      { s.cr with pg := false, ser := true, mer := false, snb := n.setWidth 5 } := by
  have hroom := hinv.params_ok.snb_room
  refine ⟨rfl, ?_, hs, hp, hks, hsticky, ⟨hinv.snb_fits, hinv.psize_fits⟩,
    getLsbD_selectSector_above hn (by omega) (by decide) (by decide),
    getLsbD_selectSector_above hn (by omega) (by decide) (by decide), ?_⟩
  · rw [← eraseSectorOk_eq_true hn]
    rfl
  · rw [CrFields.modify_clearModes,
      CrFields.modify_selectSector (f := { s.cr with pg := false, ser := false, mer := false }) hroom hinv.snb_fits hn]

/-- ERASE_ALL selects the array (rule R241). -/
theorem beginsErase_all :
    BeginsErase s .eraseAll 0 0x00000004 { s.cr with pg := false, ser := false, mer := true } := by
  refine ⟨rfl, rfl, hs, hp, hks, hsticky, ⟨hinv.snb_fits, hinv.psize_fits⟩, rfl, rfl, ?_⟩
  rw [CrFields.modify_clearModes, CrFields.modify_setMer]

end Commands

/-- A number that fits SNB is the number of the sector it selects (rule R240). -/
theorem toNat_setWidth_snb {p : Params} (hp : paramsOk p) {n : Word} (hn : n.toNat < 2 ^ p.snbWidth) :
    (n.setWidth 5).toNat = n.toNat := by
  rw [BitVec.toNat_setWidth]
  exact Nat.mod_eq_of_lt (Nat.lt_of_lt_of_le hn (Nat.pow_le_pow_right (by decide) hp.snb_room))

/-! ## A LOCK across an erase -/

/-- STRT reads 1 while an erase is pending (rule R45). -/
theorem Erases.strtBit {s : State} {lo n : Nat} (h : Erases s.params s.pend lo n) : strtBit s = true := by
  refine (strtBit_iff s).mpr ?_
  generalize s.pend = o at h
  cases h with
  | sector n => exact .inl ⟨n, rfl⟩
  | all => exact .inr rfl

theorem busy_of_strtBit {s : State} (h : strtBit s = true) : s.pend ≠ .none := fun hp => by
  simp [strtBit, hp] at h

/-- `s` in the second transaction of LOCK, its write, held back (rules R234, R325). -/
def lockHeld (s : State) : State :=
  { s with rdata := regvalCr s, run := some ⟨.lock, 1, regvalCr s, []⟩, held := true }

/-- LOCK's read, and its write while an operation is pending. -/
theorem execTimes_lock_holds {s : State} (hs : Ready s) (hbusy : s.pend ≠ .none) :
    execTimes 2 .lock s = .next (lockHeld s) := by
  have hread : exec .lock s = .next { lockHeld s with held := false } :=
    begins_with_read hs (t := s.withRdata (regvalCr s)) rfl rfl rfl rfl
  have hhold : exec .lock { lockHeld s with held := false } = .next (lockHeld s) :=
    exec_holds (e := Expansion.ofList lockTxns) rfl rfl rfl rfl
      (microTxn_of_holdsWhileBusy (.inr (.inl ⟨_, _, .inl rfl⟩)) hbusy)
  rw [execTimes_succ hread, execTimes_succ hhold]
  rfl

/-- A LOCK whose read fell while an erase was pending writes STRT back: CR starts the same erase again and is locked
(rules R150, R151, R330). -/
theorem exec_lock_restarts {s : State} {o : Pending} {v : Word} (hm : marked s = false) (hp : s.pend = .none)
    (hks : s.ks = .opened) (hsticky : sticky s.sr = false)
    (hfree : FreeErase s.params s.ob s.cr o) (hrun : s.run = some ⟨.lock, 1, v, []⟩)
    (hfields : crOfWord s.params (v &&& ~~~0 ||| 0x80000000) = s.cr) (hstrt : v.getLsbD 16 = true) :
    exec .lock s = .next { s with
      pend := o, ks := .wait1, run := none, result := .nothing, held := false } := by
  have h16 : (v &&& ~~~0 ||| 0x80000000).getLsbD 16 = true := by
    rw [getLsbD_mod _ _ _ (by decide), hstrt]
    rfl
  have h31 : (v &&& ~~~0 ||| 0x80000000).getLsbD 31 = true := by
    rw [getLsbD_mod _ _ _ (by decide)]
    exact Bool.or_true _
  have hself : s.withCr s.cr = s := rfl
  have hwrite := crWrite_starts hp hks h16
  rw [hfields, h31, hself, eraseRequest_of_not_sticky hsticky, hfree.startErase] at hwrite
  exact exec_ends (us := lockTxns) (u := .wrMod .cr 0 0x80000000) (exec_under_way rfl hrun rfl) hwrite hm rfl rfl rfl
    rfl

end Sys2Proof.Machine

namespace Sys2Proof

open Machine

/-- Settles O55: the run of ERASE_SECTOR, for a free and for a protected sector. -/
theorem eraseSectorErasesItsSectorOrFlags : Obligations.EraseSectorErasesItsSectorOrFlags := by
  unfold Obligations.EraseSectorErasesItsSectorOrFlags
  intro n s hs hinv hp hks hsticky hn
  have hbegins := beginsErase_sector hs hinv hp hks hsticky hn
  have hmode :=
    (crMode_eq_sectorErase_iff { s.cr with pg := false, ser := true, mer := false, snb := n.setWidth 5 }).mpr
      ⟨rfl, rfl, rfl⟩
  have hnumber := toNat_setWidth_snb hinv.params_ok hn
  refine ⟨fun hfree => ?_, fun hprot => ?_⟩
  · rw [← hnumber] at hfree
    obtain ⟨v, hrun⟩ := hbegins.cycles_free (.inl ⟨hmode, rfl, hfree⟩) (.sector _)
    rw [hnumber] at hrun
    exact ⟨_, _, v, _, hrun, fun hps b hb => readByte_erased_inside hps hb, fun b hb => readByte_erased_outside _ hb⟩
  · rw [← hnumber] at hprot
    exact hbegins.cycles_protected (.inl ⟨hmode, hprot⟩)

/-- Settles O56: the run of ERASE_ALL, with no sector protected and with some sector protected. -/
theorem eraseAllErasesTheArrayOrFlags : Obligations.EraseAllErasesTheArrayOrFlags := by
  unfold Obligations.EraseAllErasesTheArrayOrFlags
  intro s hs hinv hp hks hsticky
  have hbegins := beginsErase_all hs hinv hp hks hsticky
  have hmode := (crMode_eq_massErase_iff { s.cr with pg := false, ser := false, mer := true }).mpr ⟨rfl, rfl, rfl⟩
  refine ⟨fun hfree => ?_, fun hprot => hbegins.cycles_protected (.inr ⟨hmode, hprot⟩)⟩
  obtain ⟨v, hrun⟩ := hbegins.cycles_free (.inr ⟨hmode, rfl, hfree⟩) .all
  refine ⟨_, _, v, _, hrun, fun hps b hlo hhi => readByte_erased_inside hps ⟨hlo, ?_⟩⟩
  rw [arraySize]
  omega

/-- Settles O51: LOCK's write holds with STRT in the word it read, and starts the erase again once the engine has
completed it. -/
theorem lockAcrossBusyRestartsTheErase : Obligations.LockAcrossBusyRestartsTheErase := by
  unfold Obligations.LockAcrossBusyRestartsTheErase
  rintro s o hs hinv hks hpend hpg hsticky hcase
  have hfree : FreeErase s.params s.ob s.cr o := by
    rcases hcase with ⟨n, rfl, hser, hmer, rfl, hfree⟩ | ⟨rfl, hser, hmer, hfree⟩
    · exact .inl ⟨(crMode_eq_sectorErase_iff s.cr).mpr ⟨hpg, hser, hmer⟩, rfl, hfree⟩
    · exact .inr ⟨(crMode_eq_massErase_iff s.cr).mpr ⟨hpg, hser, hmer⟩, rfl, hfree⟩
  obtain ⟨lo, len, herases⟩ := hfree.erases
  rw [← hpend] at herases
  have hstrt := herases.strtBit
  have hfields : crOfWord s.params (regvalCr s &&& ~~~0 ||| 0x80000000) = s.cr := by
    rw [crOfWord_modify _ _ ⟨hinv.snb_fits, hinv.psize_fits⟩, CrFields.modify_lock]
  have hrestart := exec_lock_restarts (s := { erased lo len (lockHeld s) with pend := .none }) hs.unmarked rfl hks
    hsticky hfree rfl hfields ((getLsbD_regvalCr s 16).trans hstrt)
  rw [← engineStep_erase (s := lockHeld s) herases] at hrestart
  exact ⟨lockHeld s, _, execTimes_lock_holds hs (busy_of_strtBit hstrt), rfl, hpend, hrestart, rfl, rfl, rfl, rfl⟩

end Sys2Proof

/-! # Array reads and program requests: every outcome (rules R180, R184, R188 to R190, R282, R283) -/

namespace Sys2Proof.Machine

/-! ## Cached bytes -/

/-- A cached read gives the stored byte or a stale candidate, whatever is drawn (rule R190). -/
theorem cachedByte_mem (s : State) (a d : Nat) : cachedByte s a d ∈ readByte s.arr a :: staleAt s.stale a := by
  unfold cachedByte
  cases staleAt s.stale a with
  | nil => exact List.mem_singleton.mpr rfl
  | cons x xs =>
    have hindex : Config.drawIndex d % (xs.length + 2) < (readByte s.arr a :: x :: xs).length :=
      Nat.mod_lt _ (by omega)
    simp only [List.getD_eq_getElem _ _ hindex, List.getElem_mem]

theorem readValue_cached {n a : Nat} {s : State} (h : s.acr.dcen = true) :
    readValue n a s = leWord ((List.range n).map fun j => cachedByte s (a + j) (s.draws + j)) := if_pos h

/-! ## Reads that return a drawn value -/

/-- A drawn value has the bits of its access size (rule R112). -/
theorem lowBytes_toNat_lt (sz : AccessSize) (v : Word) : (lowBytes sz v).toNat < 2 ^ (8 * nbytes sz) := by
  cases sz with
  | byte | half =>
    rw [lowBytes, BitVec.toNat_setWidth_of_le (by decide)]
    exact BitVec.isLt _
  | word => exact v.isLt

/-- An under-clocked read draws its value and sets no flag, protected or not (rules R180, R188). -/
theorem arrayValue_of_underclocked (sz : AccessSize) (a : Word) {s : State} (h : ¬WellTimed s) :
    arrayValue sz a s = drawnRead sz s := by
  rcases arrayValue_cases sz a s with ⟨-, e⟩ | ⟨ht, -⟩ | ⟨ht, -⟩ | ⟨ht, -⟩
  · exact e
  all_goals exact absurd ((wellTimed_iff s).mpr ht) h

theorem any_rprotAt_eq_true {n a : Nat} {s : State} (h : ∃ j, j < n ∧ ReadProtectedByte s (a + j)) :
    (List.range n).any (fun j => rprotAt s.params.sectorMap s.ob (a + j)) = true := by
  simp only [List.any_eq_true, List.mem_range, ← readProtectedByte_iff]
  exact h

/-- A well-timed read with a read-protected byte draws its value and sets RDERR (rules R180, R189). -/
theorem arrayValue_of_protected {sz : AccessSize} {a : Word} {s : State} (ht : WellTimed s)
    (h : ∃ j, j < nbytes sz ∧ ReadProtectedByte s (a.toNat + j)) :
    arrayValue sz a s = drawnRead sz (s.withSr (setRderr s.sr)) := by
  have htime := (wellTimed_iff s).mp ht
  have hany := any_rprotAt_eq_true h
  rcases arrayValue_cases sz a s with ⟨hslow, -⟩ | ⟨-, -, e⟩ | ⟨-, hnone, -⟩ | ⟨-, hnone, -⟩
  · simp [htime] at hslow
  · exact e
  all_goals simp [hany] at hnone

/-- SR after an array read that hides the stored bytes: RDERR set where the read is well timed (rules R180, R189). -/
def HidingFlags (n a : Nat) (s : State) (f : SrFlags) : Prop :=
  (WellTimed s ∧ (∃ j, j < n ∧ ReadProtectedByte s (a + j)) ∧ f = setRderr s.sr) ∨ (¬WellTimed s ∧ f = s.sr)

/-- A read that hides the stored bytes returns a drawn value. -/
theorem HidingFlags.arrayValue {sz : AccessSize} {a : Word} {s : State} {f : SrFlags}
    (h : HidingFlags (nbytes sz) a.toNat s f) : arrayValue sz a s = drawnRead sz (s.withSr f) := by
  rcases h with ⟨ht, hprot, rfl⟩ | ⟨hslow, rfl⟩
  · exact arrayValue_of_protected ht hprot
  · exact arrayValue_of_underclocked sz a hslow

/-- Whether a read hides the stored bytes does not depend on them. -/
theorem HidingFlags.withArr {n a : Nat} {s : State} {f : SrFlags} (h : HidingFlags n a s f) (m : Memory) :
    HidingFlags n a (s.withArr m) f := h

/-! ## Program requests -/

theorem crMode_eq_program_iff (c : CrFields) :
    crMode c = .program ↔ c.pg = true ∧ c.ser = false ∧ c.mer = false := by
  unfold crMode
  cases c.pg <;> cases c.ser <;> cases c.mer <;> decide

/-- The errors of a program request, each by its own check (rule R184). -/
theorem programErrors_eq {sz : AccessSize} {a : Word} {s : State} {w p g : Bool}
    (hw : w = true ↔ WriteProtectedByte s a.toNat) (hp : p = true ↔ nbytes sz ≠ 2 ^ s.cr.psize.toNat)
    (hg : g = true ↔ s.ks ≠ .opened ∨ ¬(s.cr.pg = true ∧ s.cr.ser = false ∧ s.cr.mer = false)) :
    programErrors sz a s = ⟨w, p, g⟩ := by
  have hwrp : wprotAt s.params.sectorMap s.ob a.toNat = w :=
    Bool.eq_iff_iff.mpr ((writeProtectedByte_iff s a.toNat).symm.trans hw.symm)
  have hpgp : decide (nbytes sz ≠ psizeBytes s.cr.psize) = p :=
    Bool.eq_iff_iff.mpr (decide_eq_true_iff.trans hp.symm)
  have hpgs : (isLocked s.ks || decide (crMode s.cr ≠ .program)) = g := by
    rw [Bool.eq_iff_iff, hg, Bool.or_eq_true, isLocked_iff, decide_eq_true_iff, ne_eq (crMode s.cr),
      crMode_eq_program_iff]
  rw [programErrors, hwrp, hpgp, hpgs]

/-- A program request past its drop: rejected with its errors, or started if it has none (rule R184). -/
def checkProgram (e : Errors) (sz : AccessSize) (a v : Word) (s : State) : State :=
  if e.any = true then reject e s else s.withPend (.program a sz v)

/-- With no sticky flag a program request is checked at once (rules R184, R282). -/
theorem programRequest_of_not_sticky (sz : AccessSize) (a v : Word) {s : State} (h : sticky s.sr = false) :
    programRequest sz a v s = checkProgram (programErrors sz a s) sz a v s := by
  rw [programRequest, dropped_of_not_sticky h, afterDrop_of_not_sticky h]
  rfl

/-- With a sticky flag it is dropped or checked, after the draw that the flag calls for (rules R184, R282). -/
theorem programRequest_of_sticky (sz : AccessSize) (a v : Word) {s : State} (h : sticky s.sr = true) :
    programRequest sz a v s = s.withDraws (s.draws + 1) ∨
      programRequest sz a v s = checkProgram (programErrors sz a s) sz a v (s.withDraws (s.draws + 1)) := by
  have hdraw : afterDrop s = s.withDraws (s.draws + 1) := if_pos h
  rw [programRequest, hdraw]
  cases dropped s with
  | true => exact .inl rfl
  | false => exact .inr rfl

/-- An array write with nothing pending performs its program request (rules R185 to R187). -/
theorem arrWrite_idle {sz : AccessSize} {a : Word} (v : Word) {s : State} (ha : arrayAddressOk s.params sz a = true)
    (hp : s.pend = .none) : arrWrite sz a v s = some (programRequest sz a v s) := by
  rw [arrWrite, if_pos ha, unlessBusy_idle ((busy_eq_false_iff s).mpr hp)]

theorem IsArrayWrite.exec_idle {i : Instr} {sz : AccessSize} {a v : Word} {s : State} (h : IsArrayWrite i sz a v)
    (hwf : WellFormed s.params i = true) (hp : s.pend = .none) :
    Machine.exec i s = .next ((programRequest sz a v s).withHeld false) := by
  rw [h.exec, issue_of_some (arrWrite_idle v ((h.wellFormed_iff s.params).mp hwf) hp)]

/-- The state that a check leaves, with the flags of a rejection written out (rule R283). -/
theorem checkProgram_eq (w p g : Bool) (sz : AccessSize) (a v : Word) (s : State) :
    checkProgram ⟨w, p, g⟩ sz a v s =
      if (w || p || g) = true then
        { s with
          sr := { s.sr with
            wrperr := s.sr.wrperr || w, pgperr := s.sr.pgperr || p, pgserr := s.sr.pgserr || g,
            operr := s.sr.operr || s.cr.errie } }
      else { s with pend := .program a sz v } := rfl

end Sys2Proof.Machine

namespace Sys2Proof

open Machine

/-- Settles O32: each byte of the word returned is a byte read through the cache. -/
theorem cachedReadReturnsStoredOrStaleBytes : Obligations.CachedReadReturnsStoredOrStaleBytes := by
  unfold Obligations.CachedReadReturnsStoredOrStaleBytes
  intro i sz a s hi hwf hp ht hprot hcache
  obtain ⟨d, hvalue⟩ := arrayValue_of_readable ht hprot
  refine ⟨readValue (nbytes sz) a.toNat s, d, ?_, ?_, fun j hj => ?_⟩
  · rw [hi.exec_idle hwf hp, hvalue]
    rfl
  · have hlt := leWord_toNat_lt ((List.range (nbytes sz)).map fun j => cachedByte s (a.toNat + j) (s.draws + j))
    rwa [List.length_map, List.length_range, ← readValue_cached hcache] at hlt
  · have hbyte := byteOf_leWord_map_range (fun j => cachedByte s (a.toNat + j) (s.draws + j)) hj (nbytes_le_four sz)
    rw [← readValue_cached hcache, byteOf] at hbyte
    rw [hbyte]
    exact cachedByte_mem s (a.toNat + j) (s.draws + j)

/-- Settles O33: either read draws its value by the count of draws, which the array does not change. -/
theorem protectedOrUnderclockedReadHidesTheBytes : Obligations.ProtectedOrUnderclockedReadHidesTheBytes := by
  unfold Obligations.ProtectedOrUnderclockedReadHidesTheBytes
  intro i sz a s f hi hwf hp (hhides : HidingFlags (nbytes sz) a.toNat s f)
  refine ⟨lowBytes sz (Config.drawWord s.draws), s.draws + 1, lowBytes_toNat_lt sz _, fun m => ?_⟩
  rw [hi.exec_idle (s := s.withArr m) hwf hp, (hhides.withArr m).arrayValue]
  rfl

/-- Settles O34: with no sticky flag no request is dropped. -/
theorem programRequestStartsOrFlagsEveryError : Obligations.ProgramRequestStartsOrFlagsEveryError := by
  unfold Obligations.ProgramRequestStartsOrFlagsEveryError
  intro i sz a v s w p g hi hwf hp hsticky hw hpg hg
  rw [hi.exec_idle hwf hp, programRequest_of_not_sticky sz a v hsticky, programErrors_eq hw hpg hg, checkProgram_eq]
  split <;> rfl

/-- Settles O35: the request is dropped or checked, after the draw that a sticky flag calls for. -/
theorem stickyProgramRequestIsDroppedOrChecked : Obligations.StickyProgramRequestIsDroppedOrChecked := by
  unfold Obligations.StickyProgramRequestIsDroppedOrChecked
  rintro i sz a v s b w p g hi hwf hp hsticky rfl hw hpg hg
  rw [hi.exec_idle hwf hp]
  rcases programRequest_of_sticky sz a v hsticky with hdropped | hchecked
  · rw [hdropped]
    exact .inl rfl
  · rw [hchecked, programErrors_eq hw hpg hg, checkProgram_eq]
    refine .inr ?_
    split <;> rfl

end Sys2Proof

/-! # The run of READ (rules R180, R181, R237, R238) -/

namespace Sys2Proof.Machine

/-! ## One byte -/

/-- The address `k` bytes past `a`, where it is one of the address space. -/
theorem toNat_add_ofNat {a : Word} {k : Nat} (h : a.toNat + k < 2 ^ 32) :
    (a + BitVec.ofNat 32 k).toNat = a.toNat + k := by
  have hk : k < 2 ^ 32 := by omega
  rw [BitVec.toNat_add, BitVec.toNat_ofNat, Nat.mod_eq_of_lt hk, Nat.mod_eq_of_lt h]

/-- The premises of READ: the host is not marked and nothing is pending, the range is in bounds and in the array, and a
read of any of its bytes returns the stored one (rules R180, R190, R237). -/
structure ReadsStored (a n : Word) (s : State) : Prop where
  unmarked : marked s = false
  idle : s.pend = .none
  timed : WellTimed s
  base : s.params.arrayBase ≤ a.toNat
  bound : a.toNat + n.toNat ≤ s.params.endAddr.toNat
  last : a.toNat + n.toNat ≤ s.params.arrayLast + 1
  unprotected : ∀ j, j < n.toNat → ¬ReadProtectedByte s (a.toNat + j)
  fresh : s.acr.dcen = false ∨ ∀ j, j < n.toNat → staleAt s.stale (a.toNat + j) = []

/-- READ's next byte, kept in the host's buffer (rule R238). -/
theorem readBytes_succ (m : Memory) (a k : Nat) : readBytes m a (k + 1) = readBytes m a k ++ [readByte m (a + k)] := by
  simp only [readBytes, List.range_succ, List.map_append, List.map_cons, List.map_nil]

/-- The low byte of a word put together from one byte is that byte (rule R112). -/
theorem setWidth_leWord_singleton (b : Byte) : (leWord [b]).setWidth 8 = b := by
  simp [leWord, BitVec.setWidth_setWidth_of_le]

/-- `s` after a read of byte `k` of the range at `a`. -/
def byteRead (s : State) (a : Word) (k d : Nat) : State :=
  { s with rdata := leWord [readByte s.arr (a.toNat + k)], draws := d }

/-- The host's position in READ when it has read `k` bytes (rule R54). -/
def readPosition (s : State) (a n : Word) (k : Nat) : Position := ⟨.read a n, k, 0, readBytes s.arr a.toNat k⟩

theorem advance_rdByte (s : State) (a n x : Word) (k d : Nat) :
    advance (.rdByte x) (byteRead s a k d).rdata (readPosition s a n k) = readPosition s a n (k + 1) := by
  rw [advance, byteRead, setWidth_leWord_singleton, readPosition, readPosition, readBytes_succ]

section Byte

variable {a n : Word} {s : State} (h : ReadsStored a n s)
include h

theorem ReadsStored.readOk : readOk s.params a n = true := by
  simp only [Machine.readOk, Bool.and_eq_true, decide_eq_true_eq]
  exact ⟨⟨h.base, Nat.le_of_add_right_le h.bound⟩, h.bound⟩

/-- READ has one transaction for each byte of its range, and no other (rule R238). -/
theorem ReadsStored.txnAt (k : Nat) : (readExpansion s.params a n).txnAt k =
    if k < n.toNat then some (.rdByte (a + BitVec.ofNat 32 k)) else none := by
  simp only [readExpansion, h.readOk, Bool.true_and, decide_eq_true_eq]

/-- READ's result is its buffer (rule R238). -/
theorem ReadsStored.result (q : Position) : (readExpansion s.params a n).result q = .ok q.buf := if_pos h.readOk

/-- The read of byte `k` returns the stored byte (rules R180, R181). -/
theorem ReadsStored.rdByte {k : Nat} (hk : k < n.toNat) (p : Position) :
    ∃ d, microTxn (.rdByte (a + BitVec.ofNat 32 k)) p s = some (byteRead s a k d) := by
  have ⟨_, hp, ht, hlo, hend, hlast, hprot, hfresh⟩ := h
  have hend32 := s.params.endAddr.isLt
  have haddr : (a + BitVec.ofNat 32 k).toNat = a.toNat + k := toNat_add_ofNat (by omega)
  have hok : arrayAddressOk s.params .byte (a + BitVec.ofNat 32 k) = true := by
    simp only [arrayAddressOk, aligned, Bool.and_true, inArray_iff, haddr]
    omega
  have hbyte : ∀ j, j < nbytes .byte → ¬ReadProtectedByte s ((a + BitVec.ofNat 32 k).toNat + j) := by
    simpa [nbytes, haddr] using hprot k hk
  have hvalue : readValue (nbytes .byte) (a.toNat + k) s = leWord [readByte s.arr (a.toNat + k)] :=
    readValue_eq_stored (hfresh.imp_right fun hf => by simpa [nbytes] using hf k hk)
  obtain ⟨d, hread⟩ := arrayValue_of_readable ht hbyte
  refine ⟨d, ?_⟩
  rw [microTxn, arrRead, if_pos hok, unlessBusy_idle ((busy_eq_false_iff s).mpr hp), hread, haddr, hvalue]
  rfl

/-- What READ's transactions change is none of its premises. -/
theorem ReadsStored.step (k d : Nat) (r : Option Position) :
    ReadsStored a n { byteRead s a k d with run := r, held := false } :=
  ⟨h.unmarked, h.idle, h.timed, h.base, h.bound, h.last, h.unprotected, h.fresh⟩

section Exec

variable {k : Nat}
  (hexec : exec (.read a n) s = .next (continueAt (readExpansion s.params a n) (readPosition s a n k) s))
include hexec

/-- A byte with others after it. -/
theorem ReadsStored.exec_goes (hk : k + 1 < n.toNat) : ∃ d, exec (.read a n) s =
    .next { byteRead s a k d with run := some (readPosition s a n (k + 1)), held := false } := by
  have hklt : k < n.toNat := by omega
  obtain ⟨d, ht⟩ := h.rdByte hklt (readPosition s a n k)
  have hq := advance_rdByte s a n (a + BitVec.ofNat 32 k) k d
  have hnext : ((readExpansion s.params a n).txnAt (k + 1)).isSome = true := by
    rw [h.txnAt, if_pos hk]
    rfl
  have hgoes := continueAt_goes (p := readPosition s a n k) ((h.txnAt k).trans (if_pos hklt)) ht h.unmarked
    (hq ▸ hnext)
  rw [hq] at hgoes
  exact ⟨d, hexec.trans (congrArg _ hgoes)⟩

/-- The last byte, after which READ returns its buffer. -/
theorem ReadsStored.exec_ends (hk : k + 1 = n.toNat) : ∃ d, exec (.read a n) s =
    .next { byteRead s a k d with
      run := none, held := false, result := .ok (readBytes s.arr a.toNat n.toNat) } := by
  have hklt : k < n.toNat := by omega
  obtain ⟨d, ht⟩ := h.rdByte hklt (readPosition s a n k)
  have hq := advance_rdByte s a n (a + BitVec.ofNat 32 k) k d
  have hlast : (readExpansion s.params a n).txnAt (k + 1) = none := by
    rw [h.txnAt, if_neg (by omega)]
  have hends := continueAt_ends (p := readPosition s a n k) ((h.txnAt k).trans (if_pos hklt)) ht h.unmarked
    (hq ▸ hlast)
  rw [hq, h.result, hk] at hends
  exact ⟨d, hexec.trans (congrArg _ hends)⟩

end Exec

end Byte

/-! ## The run -/

/-- READ from byte `k` on, with `m` bytes after it: the buffer returned holds the whole range. -/
theorem execTimes_read_from {a n : Word} {k m : Nat} {s : State} (h : ReadsStored a n s) (hk : k + (m + 1) = n.toNat)
    (hexec : exec (.read a n) s =
      .next (continueAt (readExpansion s.params a n) (readPosition s a n k) s)) :
    ∃ (v : Word) (d : Nat), execTimes (m + 1) (.read a n) s = .next { s with
      rdata := v, draws := d, run := none, held := false, result := .ok (readBytes s.arr a.toNat n.toNat) } := by
  induction m generalizing k s with
  | zero =>
    obtain ⟨d, hlast⟩ := h.exec_ends hexec hk
    exact ⟨_, d, execTimes_succ hlast⟩
  | succ m ih =>
    obtain ⟨d, hbyte⟩ := h.exec_goes hexec (by omega)
    rw [execTimes_succ hbyte]
    exact ih (h.step k d _) (k := k + 1) (by omega) (exec_under_way rfl rfl rfl)

end Sys2Proof.Machine

namespace Sys2Proof

open Machine

/-- Settles O53: the run from READ's first byte on. -/
theorem readReturnsTheStoredRange : Obligations.ReadReturnsTheStoredRange := by
  unfold Obligations.ReadReturnsTheStoredRange
  intro a n s hs hp ht hlo hend hlast hn hprot hfresh
  have hreads : ReadsStored a n s := ⟨hs.unmarked, hp, ht, hlo, hend, hlast, hprot, hfresh⟩
  have ⟨_, _, hrun⟩ := hs
  obtain ⟨m, hm⟩ := Nat.exists_eq_succ_of_ne_zero (Nat.ne_of_gt hn)
  obtain ⟨v, d, hexec⟩ := execTimes_read_from (m := m) (k := 0) hreads (by omega) (exec_begins rfl hrun)
  rw [← Nat.succ_eq_add_one, ← hm, ← hrun] at hexec
  exact ⟨v, d, hexec⟩

end Sys2Proof

/-! # The run of WRITE (rules R122, R184, R187, R201, R233, R239) -/

namespace Sys2Proof.Machine

/-! ## WRITE's transactions -/

/-- WRITE's transactions in their order (rule R239): its head, one for each word, its tail. -/
def writeTxns (p : Params) (a n : Word) (data : List Byte) : List Micro :=
  writeHead p ++ ((List.range (writeWords n)).map fun j =>
    .wrData (a + BitVec.ofNat 32 (4 * j)) (wordBytes data j)) ++ writeTail

theorem writeHead_length (p : Params) : (writeHead p).length = 5 := rfl

theorem writeTxns_head (p : Params) (a n : Word) (data : List Byte) {j : Nat} (hj : j < 5) :
    (writeTxns p a n data)[j]? = (writeHead p)[j]? := by
  rw [writeTxns, List.append_assoc, List.getElem?_append_left (writeHead_length p ▸ hj)]

theorem writeTxns_word (p : Params) (a n : Word) (data : List Byte) {j : Nat} (hj : j < writeWords n) :
    (writeTxns p a n data)[5 + j]? = some (.wrData (a + BitVec.ofNat 32 (4 * j)) (wordBytes data j)) := by
  rw [writeTxns, List.append_assoc, ← writeHead_length p, List.getElem?_append_right (Nat.le_add_right _ _),
    Nat.add_sub_cancel_left, List.getElem?_append_left (by simpa using hj)]
  simp [hj]

theorem writeTxns_tail (p : Params) (a n : Word) (data : List Byte) (j : Nat) :
    (writeTxns p a n data)[5 + writeWords n + j]? = writeTail[j]? := by
  rw [writeTxns, List.getElem?_append_right (by simp [writeHead_length])]
  simp [writeHead_length]

/-- After the words begun another transaction is left: a word, or the tail's poll. -/
theorem writeTxns_next (p : Params) (a n : Word) (data : List Byte) {j : Nat} (hj : j ≤ writeWords n) :
    ∃ w, (writeTxns p a n data)[5 + j]? = some w := by
  rcases Nat.lt_or_eq_of_le hj with hlt | rfl
  · exact ⟨_, writeTxns_word p a n data hlt⟩
  · exact ⟨_, writeTxns_tail p a n data 0⟩

/-- WRITE's expansion is the list of its transactions, with no result. -/
theorem writeExpansion_eq (p : Params) (a n : Word) (data : List Byte) :
    writeExpansion p a n data = Expansion.ofList (writeTxns p a n data) := by
  have htxn : ∀ j, (writeExpansion p a n data).txnAt j = (writeTxns p a n data)[j]? := fun j => by
    simp only [writeExpansion]
    split
    · next hhead => exact (writeTxns_head p a n data hhead).symm
    · next hhead =>
      obtain ⟨k, rfl⟩ := Nat.exists_eq_add_of_le (Nat.not_lt.mp hhead)
      split
      · next hword =>
        rw [writeTxns_word p a n data (by omega), Nat.add_sub_cancel_left]
      · next hword =>
        obtain ⟨m, rfl⟩ := Nat.exists_eq_add_of_le (show writeWords n ≤ k by omega)
        rw [← Nat.add_assoc, writeTxns_tail, Nat.add_assoc, Nat.add_sub_cancel_left, Nat.add_sub_cancel_left]
  rw [Expansion.ofList, ← funext htxn]
  rfl

/-! ## Words of data -/

/-- The words WRITE issues reach to the end of its data (rule R239). -/
theorem le_four_mul_writeWords (n : Word) : n.toNat ≤ 4 * writeWords n := by
  rw [writeWords]
  omega

/-- Byte `j` of the word WRITE issues for some bytes that reach that far (rule R239). -/
theorem byteOf_paddedWord {d : List Byte} {j : Nat} (hj : j < d.length) (h4 : j < 4) (k : Nat) :
    byteOf (paddedWord d k) j = d[j] := by
  rw [paddedWord, byteOf_leWord_map_range _ h4 (Nat.le_refl 4), List.getD_eq_getElem _ _ hj]

/-- Byte `b` of the data is in the word of its number, at its place there. -/
theorem byteOf_word {data : List Byte} {k b : Nat} (hlo : 4 * k ≤ b) (hhi : b < 4 * k + 4) (hb : b < data.length)
    (d : Nat) : byteOf (paddedWord (wordBytes data k) d) (b - 4 * k) = data[b] := by
  have hlen : b - 4 * k < (wordBytes data k).length := by
    simp only [wordBytes, List.length_take, List.length_drop]
    omega
  rw [byteOf_paddedWord hlen (by omega)]
  simp only [wordBytes, List.getElem_take, List.getElem_drop, Nat.add_sub_of_le hlo]

/-! ## A program of one word -/

/-- What the program of a word of data at `x` leaves once it is complete (rules R201, R239). -/
def wordProgrammed (x : Nat) (data : List Byte) (s : State) : State :=
  { s with
    sr := eopFlags s.sr s.cr.eopie
    arr := setRange s.arr x 4 (byteOf (paddedWord data s.draws))
    stale := staleUpdate s.stale s.arr x 4
    draws := s.draws + (4 - data.length) }

/-- The engine completes a program whose unit is erased (rule R201). -/
theorem engineStep_program {x v : Word} {sz : AccessSize} {s : State} (hp : s.pend = .program x sz v)
    (h : ∀ j, j < nbytes sz → readByte s.arr (x.toNat + j) = s.params.erasedByte) :
    engineStep s = { s with
      sr := eopFlags s.sr s.cr.eopie
      pend := .none
      arr := setRange s.arr x.toNat (nbytes sz) (byteOf v)
      stale := staleUpdate s.stale s.arr x.toNat (nbytes sz) } := by
  have herased : unitErased s.arr s.params.erasedByte x.toNat (nbytes sz) = true := by
    simpa only [unitErased, List.all_eq_true, List.mem_range, decide_eq_true_eq] using h
  have hunit : programUnit x.toNat (nbytes sz) v s = s.withArr (setRange s.arr x.toNat (nbytes sz) (byteOf v)) :=
    if_pos herased
  simp only [engineStep, hp, completeProgram_eq, hunit]
  rfl

/-- The host can program words: nothing is pending, no flag or mark stands against it, and CR's fields select a
program with PSIZE = x32 (rules R39, R48, R184). -/
structure ProgramsWords (s : State) : Prop where
  unmarked : marked s = false
  idle : s.pend = .none
  not_sticky : sticky s.sr = false
  mode : crMode s.cr = .program
  psize : s.cr.psize = 2

/-- A word of the array that a program can write: aligned, not protected, and erased (rules R184, R201). -/
structure FreeWord (s : State) (x : Word) : Prop where
  address : arrayAddressOk s.params .word x = true
  unprotected : ¬WriteProtectedByte s x.toNat
  erased : ∀ j, j < 4 → readByte s.arr (x.toNat + j) = s.params.erasedByte

/-- A program request that no check rejects starts the program (rules R184, R187). -/
theorem arrWrite_starts {x : Word} (v : Word) {s : State} (hs : ProgramsWords s) (hks : s.ks = .opened)
    (hx : FreeWord s x) : arrWrite .word x v s = some (s.withPend (.program x .word v)) := by
  have hfields := (crMode_eq_program_iff s.cr).mp hs.mode
  have herrors : programErrors .word x s = ⟨false, false, false⟩ :=
    programErrors_eq (by simpa using hx.unprotected) (by simp [hs.psize, nbytes]) (by simp [hks, hfields])
  rw [arrWrite_idle v hx.address hs.idle, programRequest_of_not_sticky .word x v hs.not_sticky, herrors]
  rfl

section Word

variable {i : Instr} {us : List Micro} {s : State} {k : Nat} {v x : Word} {data : List Byte} {w : Micro}
  (hi : expansionOf s.params i = some (Expansion.ofList us)) (hs : ProgramsWords s) (hx : FreeWord s x)
  (hu : us[k]? = some (.wrData x data)) (hw : us[k + 1]? = some w)
include hi hs hx hu hw

/-- A word of WRITE, with CR open: its program starts (rules R187, R239). -/
theorem exec_writeWord : exec i (controlStage s i k s.cr v) = .next { controlStage s i (k + 1) s.cr v with
    pend := .program x .word (paddedWord data s.draws), draws := s.draws + (4 - data.length) } := by
  have hopen : ProgramsWords (controlStage s i k s.cr v) :=
    ⟨hs.unmarked, hs.idle, hs.not_sticky, hs.mode, hs.psize⟩
  have hfree : FreeWord (controlStage s i k s.cr v) x := ⟨hx.address, hx.unprotected, hx.erased⟩
  have hstart : microTxn (.wrData x data) ⟨i, k, v, []⟩ (controlStage s i k s.cr v) =
      some ((controlStage s i k s.cr v).withPend (.program x .word (paddedWord data s.draws))) :=
    arrWrite_starts (paddedWord data s.draws) hopen rfl hfree
  have hgoes := continueAt_goes (e := Expansion.ofList us) (p := ⟨i, k, v, []⟩) hu hstart hs.unmarked
    (Option.isSome_of_eq_some hw)
  exact (exec_under_way (s := controlStage s i k s.cr v) hi rfl rfl).trans (congrArg _ hgoes)

/-- The engine then completes it (rule R201). -/
theorem cycles_writeWord (n : Nat) : cycles (n + 1) i (controlStage s i k s.cr v) =
    cycles n i (controlStage (wordProgrammed x.toNat data s) i (k + 1) s.cr v) := by
  have hengine := engineStep_program (s := { controlStage s i (k + 1) s.cr v with
    pend := .program x .word (paddedWord data s.draws), draws := s.draws + (4 - data.length) }) rfl hx.erased
  rw [← hs.idle] at hengine
  rw [cycles_succ (exec_writeWord hi hs hx hu hw)]
  exact congrArg (cycles n i) hengine

end Word

/-! ## A program of several words -/

/-- What the programs of the first `j` words of the data at `a` leave. -/
def wordsProgrammed (a : Nat) (data : List Byte) (s : State) : Nat → State
  | 0 => s
  | j + 1 => wordProgrammed (a + 4 * j) (wordBytes data j) (wordsProgrammed a data s j)

section Words

variable (a : Nat) (data : List Byte) (s : State) (j : Nat)

theorem wordsProgrammed_frame : wordsProgrammed a data s j =
    { s with
      sr := (wordsProgrammed a data s j).sr
      arr := (wordsProgrammed a data s j).arr
      stale := (wordsProgrammed a data s j).stale
      draws := (wordsProgrammed a data s j).draws } := by
  induction j with
  | zero => rfl
  | succ j ih =>
    rw [wordsProgrammed, wordProgrammed, ih]

/-- EOP is set by the first completion while EOPIE = 1 (rule R205). -/
theorem wordsProgrammed_sr : (wordsProgrammed a data s j).sr =
    { s.sr with eop := s.sr.eop || (s.cr.eopie && decide (0 < j)) } := by
  induction j with
  | zero => simp [wordsProgrammed]
  | succ j ih =>
    have hcr : (wordsProgrammed a data s j).cr = s.cr := by rw [wordsProgrammed_frame]
    simp only [wordsProgrammed, wordProgrammed, eopFlags, ih, hcr]
    cases s.sr.eop <;> cases s.cr.eopie <;> simp

variable {a data s j}

/-- Outside the words programmed the bytes stay. -/
theorem readByte_wordsProgrammed_outside {b : Nat} (h : ¬(a ≤ b ∧ b < a + 4 * j)) :
    readByte (wordsProgrammed a data s j).arr b = readByte s.arr b := by
  induction j with
  | zero => rfl
  | succ j ih =>
    rw [wordsProgrammed, wordProgrammed, readByte_setRange, if_neg (by omega), ih (by omega)]

/-- The words programmed hold the data. -/
theorem readByte_wordsProgrammed_inside {b : Nat} (h : b < 4 * j) (hb : b < data.length) :
    readByte (wordsProgrammed a data s j).arr (a + b) = data[b] := by
  induction j with
  | zero => omega
  | succ j ih =>
    rw [wordsProgrammed, wordProgrammed, readByte_setRange]
    by_cases hlast : 4 * j ≤ b
    · rw [if_pos (by omega), Nat.add_sub_add_left, byteOf_word hlast (by omega) hb]
    · rw [if_neg (by omega), ih (by omega)]

/-- Programs of words leave the host able to program more. -/
theorem ProgramsWords.wordsProgrammed (h : ProgramsWords s) : ProgramsWords (wordsProgrammed a data s j) := by
  rw [wordsProgrammed_frame, wordsProgrammed_sr]
  exact ⟨h.unmarked, h.idle, h.not_sticky, h.mode, h.psize⟩

end Words

/-! ## WRITE -/

/-- The fields of CR while WRITE programs its words (rule R239). -/
def programFields (f : CrFields) : CrFields := { f with pg := true, ser := false, mer := false }

/-- Clearing the modes and setting PG. -/
theorem CrFields.modify_setPg (p : Params) (f : CrFields) :
    f.modify p 0x00000007 0x00000001 = programFields f := by
  rw [modify_outside p f (by decide) (by decide)]
  simp [programFields]

/-- Clearing PG after it. -/
theorem CrFields.modify_clearPg (p : Params) (f : CrFields) :
    (programFields f).modify p 0x00000001 0 = { f with pg := false, ser := false, mer := false } := by
  rw [modify_outside p _ (by decide) (by decide)]
  simp [programFields]

/-- The host begins a WRITE at `s`, with nothing pending, CR locked, PSIZE = x32 and no sticky flag, and each word of its
range is one that a program can write (rules R118, R239). -/
structure BeginsWrite (s : State) (a n : Word) (data : List Byte) : Prop where
  ready : Ready s
  idle : s.pend = .none
  locked : s.ks = .wait1
  not_sticky : sticky s.sr = false
  fits : s.cr.Fits s.params
  psize : s.cr.psize = 2
  admitted : writeOk s.params a n data = true
  free : ∀ j, j < writeWords n → FreeWord s (a + BitVec.ofNat 32 (4 * j))
  address : ∀ j, j < writeWords n → (a + BitVec.ofNat 32 (4 * j)).toNat = a.toNat + 4 * j

section Write

variable {s : State} {a n : Word} {data : List Byte} (h : BeginsWrite s a n data)
include h

theorem BeginsWrite.programsWords : ProgramsWords (s.withCr (programFields s.cr)) :=
  ⟨h.ready.unmarked, h.idle, h.not_sticky, (crMode_eq_program_iff _).mpr ⟨rfl, rfl, rfl⟩, h.psize⟩

/-- A word that is not yet programmed is still free (rule R201). -/
theorem BeginsWrite.freeWord {j : Nat} (hj : j < writeWords n) :
    FreeWord (wordsProgrammed a.toNat data (s.withCr (programFields s.cr)) j) (a + BitVec.ofNat 32 (4 * j)) := by
  obtain ⟨haddress, hprot, herased⟩ := h.free j hj
  rw [wordsProgrammed_frame]
  refine ⟨haddress, hprot, fun b hb => ?_⟩
  refine (readByte_wordsProgrammed_outside ?_).trans (herased b hb)
  rw [h.address j hj]
  omega

omit h in
theorem expansionOf_write (p : Params) :
    expansionOf p (.write a n data) = some (Expansion.ofList (writeTxns p a n data)) :=
  congrArg some (writeExpansion_eq p a n data)

/-- WRITE's head: CR is open and selects a program (rule R239). -/
theorem BeginsWrite.cycles_head (m : Nat) : cycles (m + 5) (.write a n data) s =
    cycles m (.write a n data)
      (controlStage s (.write a n data) 5 (programFields s.cr) (openCr s s.cr)) := by
  have hm := h.ready.unmarked
  have ⟨_, _, hrun⟩ := h.ready
  have hi : expansionOf s.params (.write a n data) = some (Expansion.ofList (writeTxns s.params a n data)) :=
    expansionOf_write s.params
  have hstart : exec (.write a n data) s =
      .next (runCommand (.write a n data) true (Expansion.ofList (writeTxns s.params a n data)) s) := by
    rw [← h.admitted, ← writeExpansion_eq]
    rfl
  obtain ⟨w, hw⟩ := writeTxns_next s.params a n data (Nat.zero_le _)
  rw [cycles_unlock (m + 2) hi hm h.idle hstart hrun h.locked rfl, cycles_readCr (m + 1) hi hm h.idle rfl rfl,
    cycles_modifyCr m hi hm h.idle h.fits rfl rfl rfl hw, CrFields.modify_setPg]

/-- WRITE's words, each completed by the engine (rules R201, R239). -/
theorem BeginsWrite.cycles_words (m : Nat) (v : Word) {j : Nat} (hj : j ≤ writeWords n) :
    cycles (m + j) (.write a n data) (controlStage s (.write a n data) 5 (programFields s.cr) v) =
      cycles m (.write a n data)
        (controlStage (wordsProgrammed a.toNat data (s.withCr (programFields s.cr)) j) (.write a n data) (5 + j)
          (programFields s.cr) v) := by
  induction j generalizing m with
  | zero => rfl
  | succ j ih =>
    have hwords := h.programsWords.wordsProgrammed (a := a.toNat) (data := data) (j := j)
    have hfree := h.freeWord (Nat.lt_of_succ_le hj)
    have hcr : (wordsProgrammed a.toNat data (s.withCr (programFields s.cr)) j).cr = programFields s.cr := by
      rw [wordsProgrammed_frame]
      rfl
    obtain ⟨w, hw⟩ := writeTxns_next _ a n data hj
    have hword := cycles_writeWord (v := v) (expansionOf_write _) hwords hfree
      (writeTxns_word _ a n data (Nat.lt_of_succ_le hj)) hw m
    rw [hcr, h.address j (Nat.lt_of_succ_le hj)] at hword
    rw [← Nat.add_assoc, Nat.add_right_comm, ih (m + 1) (Nat.le_of_succ_le hj), hword]
    rfl

omit h in
/-- WRITE's tail: PG is cleared and CR locked (rule R239). -/
theorem cycles_write_tail {f : CrFields} {v : Word} (hm : marked s = false) (hp : s.pend = .none)
    (hf : f.Fits s.params) :
    ∃ v', cycles 5 (.write a n data)
      (controlStage s (.write a n data) (5 + writeWords n) (programFields f) v) = .next { s with
        cr := { f with pg := false, ser := false, mer := false }
        ks := .wait1
        rdata := v'
        run := none
        result := .nothing
        held := false } := by
  have hi : expansionOf s.params (.write a n data) = some (Expansion.ofList (writeTxns s.params a n data)) :=
    expansionOf_write s.params
  have tail := writeTxns_tail s.params a n data
  have hprogram : (programFields f).Fits s.params := hf
  have hcleared : CrFields.Fits s.params { f with pg := false, ser := false, mer := false } := hf
  refine ⟨openCr s { f with pg := false, ser := false, mer := false }, ?_⟩
  rw [cycles_pollSr 4 hi hm hp (k := 5 + writeWords n) (tail 0) (tail 1), cycles_readCr 3 hi hm hp (tail 1) (tail 2),
    cycles_modifyCr 2 hi hm hp hprogram rfl rfl (tail 2) (tail 3), CrFields.modify_clearPg,
    cycles_readCr 1 hi hm hp (tail 3) (tail 4), cycles_lockCr hi hm hp hcleared (tail 4) (tail 5)]

/-- The whole run: the words are programmed, and CR is idle and locked again. -/
theorem BeginsWrite.cycles : ∃ v, cycles (10 + writeWords n) (.write a n data) s =
    .next { wordsProgrammed a.toNat data (s.withCr (programFields s.cr)) (writeWords n) with
      cr := { s.cr with pg := false, ser := false, mer := false }
      ks := .wait1
      rdata := v
      run := none
      result := .nothing
      held := false } := by
  have hwords := h.programsWords.wordsProgrammed (a := a.toNat) (data := data) (j := writeWords n)
  have hfits : s.cr.Fits (wordsProgrammed a.toNat data (s.withCr (programFields s.cr)) (writeWords n)).params := by
    rw [wordsProgrammed_frame]
    exact h.fits
  have hcount : 10 + writeWords n = 5 + writeWords n + 5 := by omega
  rw [hcount, h.cycles_head, h.cycles_words 5 _ (Nat.le_refl _)]
  exact cycles_write_tail hwords.unmarked hwords.idle hfits

end Write

/-- WRITE begins where its range is in the array, erased and not protected. -/
theorem beginsWrite {s : State} {a n : Word} {data : List Byte} (hs : Ready s) (hinv : Invariant s)
    (hp : s.pend = .none) (hks : s.ks = .wait1) (hsticky : sticky s.sr = false) (hpsize : s.cr.psize = 2)
    (ha : a.toNat % 4 = 0) (hlen : data.length = n.toNat)
    (hrange : n.toNat = 0 ∨
      (s.params.arrayBase ≤ a.toNat ∧ a.toNat + 4 * writeWords n - 1 ≤ s.params.arrayLast))
    (htarget : ∀ j, j < 4 * writeWords n →
      readByte s.arr (a.toNat + j) = s.params.erasedByte ∧ ¬WriteProtectedByte s (a.toNat + j)) :
    BeginsWrite s a n data := by
  have hlast := hinv.params_ok.array_last
  have hbounds : ∀ j, j < writeWords n →
      s.params.arrayBase ≤ a.toNat ∧ a.toNat + 4 * j + 3 ≤ s.params.arrayLast := fun j hj => by
    rw [writeWords] at hj hrange
    omega
  have haddress : ∀ j, j < writeWords n → (a + BitVec.ofNat 32 (4 * j)).toNat = a.toNat + 4 * j := fun j hj => by
    have hj := hbounds j hj
    exact toNat_add_ofNat (by omega)
  refine ⟨hs, hp, hks, hsticky, ⟨hinv.snb_fits, hinv.psize_fits⟩, hpsize, writeOk_eq_true ha hlen hrange,
    fun j hj => ?_, haddress⟩
  have hin := hbounds j hj
  obtain ⟨-, hprot⟩ := htarget (4 * j) (by omega)
  refine ⟨?_, haddress j hj ▸ hprot, fun b hb => ?_⟩
  · rw [arrayAddressOk, Bool.and_eq_true, inArray_iff, aligned_iff, haddress j hj, nbytes]
    omega
  · obtain ⟨herased, -⟩ := htarget (4 * j + b) (by omega)
    rw [haddress j hj, Nat.add_assoc]
    exact herased

end Sys2Proof.Machine

namespace Sys2Proof

open Machine

/-- Settles O54: the run of WRITE, and what its words leave in the array. -/
theorem writeProgramsItsData : Obligations.WriteProgramsItsData := by
  unfold Obligations.WriteProgramsItsData
  rintro a n data s k rfl hs hinv hp hks hsticky hpsize ha hlen hrange htarget
  obtain ⟨v, hrun⟩ := (beginsWrite hs hinv hp hks hsticky hpsize ha hlen hrange htarget).cycles
  have ⟨_, _, hnone⟩ := hs
  rw [wordsProgrammed_frame, wordsProgrammed_sr, ← hks, ← hnone] at hrun
  refine ⟨_, _, v, _, hrun, fun j hj => ?_, fun b hb => readByte_wordsProgrammed_outside hb⟩
  exact readByte_wordsProgrammed_inside (Nat.lt_of_lt_of_le (hlen ▸ hj) (le_four_mul_writeWords n)) hj

end Sys2Proof

/-! # The engine's completions (rules R200 to R207) -/

namespace Sys2Proof.Machine

/-! ## Programs -/

/-- Outside its unit a program leaves the bytes, whether the unit was erased or not. -/
theorem readByte_programUnit_outside {a n b : Nat} (v : Word) (s : State) (h : ¬(a ≤ b ∧ b < a + n)) :
    readByte (programUnit a n v s).arr b = readByte s.arr b := by
  unfold programUnit
  split
  · exact (readByte_setRange ..).trans (if_neg h)
  · exact readByte_drawRange s h

/-! ## Erases -/

/-- A completed erase: the state after it, its range with the bytes it held as stale candidates, and the rest of the
array (rules R202, R203, R205, R206). -/
theorem engineStep_erases_range {s : State} {lo n : Nat} (h : Erases s.params s.pend lo n) :
    ∃ (m : Memory) (st : List StaleRange) (d : Nat),
      engineStep s = { s with
        arr := m, stale := st, draws := d, pend := .none, sr := { s.sr with eop := s.sr.eop || s.cr.eopie } } ∧
      (∀ b, lo ≤ b ∧ b < lo + n → staleAt st b = readByte s.arr b :: staleAt s.stale b ∧
        (s.cr.psize.toNat < 3 → readByte m b = s.params.erasedByte)) ∧
      ∀ b, ¬(lo ≤ b ∧ b < lo + n) → readByte m b = readByte s.arr b ∧ staleAt st b = staleAt s.stale b := by
  refine ⟨_, _, _, engineStep_erase h, fun b hb => ⟨?_, fun hps => readByte_erased_inside hps hb⟩,
    fun b hb => ⟨readByte_erased_outside s hb, ?_⟩⟩
  · exact (staleAt_staleUpdate ..).trans (if_pos hb)
  · exact (staleAt_staleUpdate ..).trans (if_neg hb)

/-! ## What a completion reads (rule R207) -/

/-- `t` agrees with `s` in all that the engine reads: the pending operation and its targets, the count of draws, the
parameters, SR.EOP, CR.PSIZE and CR.EOPIE. -/
structure EngineAgrees (s t : State) : Prop where
  pend : t.pend = s.pend
  arr : t.arr = s.arr
  ob : t.ob = s.ob
  stale : t.stale = s.stale
  draws : t.draws = s.draws
  params : t.params = s.params
  eop : t.sr.eop = s.sr.eop
  psize : t.cr.psize = s.cr.psize
  eopie : t.cr.eopie = s.cr.eopie

/-- `t` with what the engine writes taken from `u`. -/
def takeEngineFields (t u : State) : State :=
  { t with
    arr := u.arr
    ob := u.ob
    stale := u.stale
    draws := u.draws
    pend := .none
    sr := { t.sr with eop := u.sr.eop } }

section Agrees

variable {s t : State} (h : EngineAgrees s t)
include h

theorem EngineAgrees.eopFlags : eopFlags t.sr t.cr.eopie = { t.sr with eop := s.sr.eop || s.cr.eopie } := by
  rw [Machine.eopFlags, h.eop, h.eopie]

theorem EngineAgrees.programUnit (a n : Nat) (v : Word) :
    (programUnit a n v t).arr = (programUnit a n v s).arr ∧
      (programUnit a n v t).draws = (programUnit a n v s).draws := by
  simp only [Machine.programUnit, drawRange, h.arr, h.params, h.draws]
  split
  · exact ⟨rfl, h.draws⟩
  · exact ⟨rfl, rfl⟩

theorem EngineAgrees.completeProgram (a : Word) (sz : AccessSize) (v : Word) :
    completeProgram a sz v t = takeEngineFields t (completeProgram a sz v s) := by
  obtain ⟨harr, hdraws⟩ := h.programUnit a.toNat (nbytes sz) v
  rw [completeProgram_eq, completeProgram_eq, h.eopFlags, harr, hdraws, h.stale, h.arr, takeEngineFields, ← h.ob]
  rfl

theorem EngineAgrees.eraseTarget (lo n : Nat) :
    (eraseTarget lo n t).arr = (eraseTarget lo n s).arr ∧ (eraseTarget lo n t).draws = (eraseTarget lo n s).draws := by
  simp only [Machine.eraseTarget, drawRange, eraseBytes, h.psize, h.arr, h.params, h.draws]
  split
  · exact ⟨rfl, rfl⟩
  · exact ⟨rfl, h.draws⟩

theorem EngineAgrees.eraseAndFinish (lo n : Nat) :
    eraseAndFinish lo n t = takeEngineFields t (eraseAndFinish lo n s) := by
  obtain ⟨harr, hdraws⟩ := h.eraseTarget lo n
  rw [eraseAndFinish_eq, eraseAndFinish_eq, h.eopFlags, harr, hdraws, h.stale, h.arr, takeEngineFields, ← h.ob]
  rfl

theorem EngineAgrees.completeOptionCommit (f : OptFields) :
    completeOptionCommit f t = takeEngineFields t (completeOptionCommit f s) := by
  obtain ⟨hob, hdraws⟩ := completeOptionCommit_congr f h.params h.ob h.draws
  rw [completeOptionCommit_frame f t, completeOptionCommit_frame f s, hob, hdraws, takeEngineFields, ← h.arr,
    ← h.stale, ← h.eop]

/-- What the engine writes is the same in both (rule R207). -/
theorem EngineAgrees.engineStep : engineStep t = takeEngineFields t (engineStep s) := by
  unfold Machine.engineStep
  rw [h.pend]
  cases hp : s.pend with
  | none =>
    show t = takeEngineFields t s
    rw [takeEngineFields, ← h.arr, ← h.ob, ← h.stale, ← h.draws, ← h.eop, ← hp, ← h.pend]
  | program a sz v => exact h.completeProgram a sz v
  | sectorErase n =>
    show completeSectorErase n t = takeEngineFields t (completeSectorErase n s)
    rw [completeSectorErase, completeSectorErase, h.params]
    exact h.eraseAndFinish _ _
  | massErase =>
    show completeMassErase t = takeEngineFields t (completeMassErase s)
    rw [completeMassErase, completeMassErase, h.params]
    exact h.eraseAndFinish _ _
  | optCommit f => exact h.completeOptionCommit f

end Agrees

end Sys2Proof.Machine

namespace Sys2Proof

open Machine

/-- Settles O36: the program's unit is erased or not, and its range alone is written and remembered. -/
theorem programCompletionWritesOnlyItsUnit : Obligations.ProgramCompletionWritesOnlyItsUnit := by
  unfold Obligations.ProgramCompletionWritesOnlyItsUnit
  refine ⟨rfl, fun s a sz v hp => ?_⟩
  have hstep : engineStep s = completeProgram a sz v s := by rw [engineStep, hp]
  rw [completeProgram_eq] at hstep
  refine ⟨_, _, _, hstep, fun herased => ?_, fun b hb => ⟨?_, ?_⟩, fun b hb => ?_⟩
  · have hprogrammed := hstep.symm.trans (engineStep_program hp herased)
    have harr : (programUnit a.toNat (nbytes sz) v s).arr = setRange s.arr a.toNat (nbytes sz) (byteOf v) :=
      congrArg State.arr hprogrammed
    have hdraws := congrArg State.draws hprogrammed
    refine ⟨hdraws, fun j hj => ?_⟩
    rw [harr, readByte_setRange, if_pos (by omega), Nat.add_sub_cancel_left]
    rfl
  · exact readByte_programUnit_outside v s hb
  · rw [staleAt_staleUpdate, if_neg hb]
  · rw [staleAt_staleUpdate, if_pos hb]

/-- Settles O37: the range erased is the sector's, and it is empty for a number from N_SECTORS up. -/
theorem sectorEraseCompletionErasesOnlyItsSector : Obligations.SectorEraseCompletionErasesOnlyItsSector := by
  unfold Obligations.SectorEraseCompletionErasesOnlyItsSector
  refine ⟨⟨rfl, rfl, fun s n b hmap hn hb => ?_⟩, fun s n hp => engineStep_erases_range (hp ▸ .sector n)⟩
  obtain ⟨hlo, hhi⟩ := hb
  rw [sectorRange_size_of_ge hmap hn] at hhi
  omega

/-- Settles O38: the range erased is the array's. -/
theorem massEraseCompletionErasesTheArray : Obligations.MassEraseCompletionErasesTheArray := by
  unfold Obligations.MassEraseCompletionErasesTheArray
  refine ⟨⟨rfl, rfl, rfl⟩, fun s hp => ?_⟩
  have herases : Erases s.params s.pend s.params.arrayBase (arraySize s.params) := hp ▸ .all
  obtain ⟨m, st, d, hstep, hinside, -⟩ := engineStep_erases_range herases
  refine ⟨m, st, d, hstep, fun b hlo hhi => hinside b ⟨hlo, ?_⟩⟩
  unfold arraySize
  omega

/-- Settles O39: a commit that is not taken weakens PCROP while `PCROP_WEAKEN = Either`. -/
theorem optionCommitTakesTheNewFieldsOrKeepsTheOld : Obligations.OptionCommitTakesTheNewFieldsOrKeepsTheOld := by
  unfold Obligations.OptionCommitTakesTheNewFieldsOrKeepsTheOld
  intro s f hp
  refine ⟨_, _, engineStep_optCommit hp, (completeOptionCommit_ob f s).imp_right fun ⟨hob, heither, hweak⟩ => ?_⟩
  exact ⟨hob, heither, (weakensPcrop_iff s.params s.ob f).mp hweak⟩

/-- Settles O40: an idle engine's turn changes nothing, and two states that agree in what the engine reads get the same
writes. -/
theorem engineReadsAndWritesOnlyItsOwnState : Obligations.EngineReadsAndWritesOnlyItsOwnState := by
  unfold Obligations.EngineReadsAndWritesOnlyItsOwnState
  refine ⟨fun s hp => engineStep_idle hp, fun s t hpend harr hob hstale hdraws hparams heop hpsize heopie => ?_⟩
  exact (EngineAgrees.mk hpend harr hob hstale hdraws hparams heop hpsize heopie).engineStep

end Sys2Proof

/-! # WAIT_UNTIL_IDLE under the default turns (rules R200, R244, R295) -/

namespace Sys2Proof.Machine

theorem core_run_succ {k : Nat} {s t : State} (h : step s = .next t) : core.run (k + 1) s = core.run k t := by
  have hcore : core.step s = .next t := h
  simp only [Host.Core.run, hcore]

/-- The host begins WAIT_UNTIL_IDLE, or stands at its poll (rules R54, R244). -/
def StandsAtWait (s : State) : Prop := s.run = none ∨ ∃ v, s.run = some ⟨.waitUntilIdle, 0, v, []⟩

theorem exec_wait {s : State} (h : StandsAtWait s) : ∃ v, exec .waitUntilIdle s =
    .next (continueAt (Expansion.ofList pollIdle) ⟨.waitUntilIdle, 0, v, []⟩ s) := by
  rcases h with hrun | ⟨v, hrun⟩
  · exact ⟨0, exec_begins rfl hrun⟩
  · exact ⟨v, exec_under_way rfl hrun rfl⟩

/-- The wait ends at a poll that finds nothing pending (rule R244). -/
theorem exec_wait_ends {s : State} (h : StandsAtWait s) (hm : marked s = false) (hp : s.pend = .none) :
    exec .waitUntilIdle s = .next { s with
      rdata := regvalSr s, run := none, result := .nothing, held := false } := by
  obtain ⟨v, hexec⟩ := exec_wait h
  exact exec_ends hexec (t := s.withRdata (regvalSr s)) rfl hm rfl (advance_poll_idle hp) rfl rfl

/-- A poll that finds an operation pending leaves the wait where it stands. -/
theorem exec_wait_polls {s : State} (h : StandsAtWait s) (hm : marked s = false) (hp : s.pend ≠ .none) :
    exec .waitUntilIdle s = .next { s with
      rdata := regvalSr s, run := some ⟨.waitUntilIdle, 0, regvalSr s, []⟩, held := false } := by
  obtain ⟨v, hexec⟩ := exec_wait h
  exact exec_goes hexec (t := s.withRdata (regvalSr s)) rfl hm rfl (advance_poll_busy hp) rfl rfl

/-- It is the default turn of a host that waits: its run is not marked, nothing is scheduled, and its request in issue
is WAIT_UNTIL_IDLE (rule R117, log entry 5). -/
structure Waits (s : State) (rest : List Descriptor) : Prop where
  fault : s.fault = none
  refused : s.refused = false
  sched : s.sched = []
  program : s.program = .cmd 0x0C [] :: rest
  stands : StandsAtWait s

section Waits

variable {s : State} {rest : List Descriptor} (h : Waits s rest)
include h

theorem Waits.unmarked : marked s = false := marked_eq_false h.fault h.refused

/-- On its default turn the host takes the wait's next step, and retires the wait with its end. -/
theorem Waits.step {u : State} (hturn : s.params.engineFair = false ∨ s.pend = .none)
    (hu : exec .waitUntilIdle s = .next u) :
    step s = .next (if u.held = true ∨ u.run ≠ none then u else u.withProgram rest) :=
  HostTakesTurnIn.step_request (q := []) (.inr ⟨h.sched, hturn, rfl⟩) h.fault h.refused h.program rfl hu

/-- With nothing pending the wait returns. -/
theorem Waits.returns (hp : s.pend = .none) :
    ∃ t, Machine.step s = .next t ∧ t.pend = .none ∧ t.run = none ∧ t.program = rest := by
  have hstep := h.step (.inr hp) (exec_wait_ends h.stands h.unmarked hp)
  rw [if_neg (by simp)] at hstep
  exact ⟨_, hstep, hp, rfl, rfl⟩

/-- With an operation pending that the engine need not complete, the host waits on. -/
theorem Waits.goes_on (hfair : s.params.engineFair = false) (hp : s.pend ≠ .none) :
    ∃ t, Machine.step s = .next t ∧ Waits t rest ∧ t.params = s.params ∧ t.pend = s.pend ∧ t.run ≠ none := by
  have hstep := h.step (.inl hfair) (exec_wait_polls h.stands h.unmarked hp)
  rw [if_pos (.inr (Option.some_ne_none _))] at hstep
  exact ⟨_, hstep, ⟨h.fault, h.refused, h.sched, h.program, .inr ⟨_, rfl⟩⟩, rfl, rfl, Option.some_ne_none _⟩

/-- So it does for any number of steps. -/
theorem Waits.hangs (hfair : s.params.engineFair = false) (hp : s.pend ≠ .none) (k : Nat) :
    ∃ t, core.run (k + 1) s = .next t ∧ t.pend = s.pend ∧ t.run ≠ none ∧ t.program = s.program := by
  induction k generalizing s with
  | zero =>
    obtain ⟨t, hstep, ht, -, hpend, hrun⟩ := h.goes_on hfair hp
    exact ⟨t, core_run_succ hstep, hpend, hrun, ht.program.trans h.program.symm⟩
  | succ k ih =>
    obtain ⟨t, hstep, ht, hparams, hpend, -⟩ := h.goes_on hfair hp
    obtain ⟨u, hrun, hu, hnone, hprogram⟩ := ih ht (hparams ▸ hfair) (hpend ▸ hp)
    exact ⟨u, (core_run_succ hstep).trans hrun, hu.trans hpend, hnone, hprogram.trans (ht.program.trans h.program.symm)⟩

end Waits

/-- The engine's step leaves a waiting host waiting, with nothing pending. -/
theorem Waits.engineStep {s : State} {rest : List Descriptor} (h : Waits s rest) :
    Waits (engineStep s) rest ∧ (engineStep s).pend = .none := by
  rw [engineStep_frame]
  exact ⟨⟨h.fault, h.refused, h.sched, h.program, h.stands⟩, rfl⟩

end Sys2Proof.Machine

namespace Sys2Proof

open Machine

/-- Settles O9: a fair engine takes the first turn and the wait returns on the second; with an unfair one every turn is
the waiting host's. -/
theorem waitHangsOnlyWithAnUnfairEngine : Obligations.WaitHangsOnlyWithAnUnfairEngine := by
  unfold Obligations.WaitHangsOnlyWithAnUnfairEngine
  intro s rest ⟨hfault, hrefused, hrun⟩ hp hsched hprogram
  have hwaits : Waits s rest := ⟨hfault, hrefused, hsched, hprogram, .inl hrun⟩
  refine ⟨fun hfair => ?_, fun hfair k => hwaits.hangs hfair hp k⟩
  obtain ⟨hcompleted, hidle⟩ := hwaits.engineStep
  obtain ⟨t, hstep, ht⟩ := hcompleted.returns hidle
  exact ⟨t, (core_run_succ (step_default_engine hsched hfair hp)).trans (core_run_succ hstep), ht⟩

end Sys2Proof

/-! # Erase, write and read back (rules R201, R202, R206, R238 to R240, R248) -/

namespace Sys2Proof.Machine

/-! ## Cycles -/

/-- A command's transactions with the engine after each keep the invariant. -/
theorem Invariant.cycles {n : Nat} {i : Instr} {s t : State} (h : Invariant s) (ht : cycles n i s = .next t) :
    Invariant t := by
  induction n generalizing s with
  | zero =>
    cases ht
    exact h
  | succ n ih =>
    obtain ⟨u, hu⟩ := exec_next i s
    rw [cycles_succ hu] at ht
    exact ih (h.exec hu).engineStep ht

/-- With nothing pending, and an instruction that starts no operation, the engine has nothing to do between its
transactions (rule R200). -/
theorem cycles_eq_execTimes {i : Instr} (hi : ∀ {s t : State}, exec i s = .next t → t.pend = s.pend) {s : State}
    (hp : s.pend = .none) (n : Nat) : cycles n i s = execTimes n i s := by
  induction n generalizing s with
  | zero => rfl
  | succ n ih =>
    obtain ⟨u, hu⟩ := exec_next i s
    have hidle : u.pend = .none := (hi hu).trans hp
    rw [cycles_succ_idle hu hidle, execTimes_succ hu, ih hidle]

/-! ## READ -/

/-- READ's transactions are reads of single bytes (rule R238). -/
theorem readExpansion_rdByte {p : Params} {a n : Word} {k : Nat} {u : Micro}
    (h : (readExpansion p a n).txnAt k = some u) : u = .rdByte (a + BitVec.ofNat 32 k) := by
  simp only [readExpansion] at h
  split at h <;> cases h
  rfl

/-- READ starts no operation. -/
theorem exec_read_pend {a n : Word} {s t : State} (h : exec (.read a n) s = .next t) : t.pend = s.pend := by
  have hcontinue : ∀ p, (continueAt (readExpansion s.params a n) p s).pend = s.pend := fun p => by
    rcases continueAt_cases (readExpansion s.params a n) p s with ⟨-, he⟩ | ⟨u, -, -, he⟩ | ⟨u, s', hu, ht, he⟩ <;>
      rw [he]
    · rfl
    · rfl
    · obtain rfl := readExpansion_rdByte hu
      rw [afterTxn_frame, arrRead_frame ht]
      rfl
  cases h
  rcases runCommand_cases (.read a n) true (readExpansion s.params a n) s with
    ⟨-, -, he⟩ | ⟨p, -, -, he⟩ | ⟨-, he⟩ <;> rw [he]
  · exact hcontinue _
  · exact hcontinue p
  · rfl

/-- A READ of no bytes in bounds completes at once, with no transaction (rules R237, R238). -/
theorem exec_read_empty {a n : Word} {s : State} (hrun : s.run = none) (hok : readOk s.params a n = true)
    (hn : n.toNat = 0) :
    exec (.read a n) s = .next { s with run := none, result := .ok [], held := false } := by
  have hdone : (readExpansion s.params a n).txnAt 0 = none := by simp [readExpansion, hn]
  have hresult : (readExpansion s.params a n).result ⟨.read a n, 0, 0, []⟩ = .ok [] := if_pos hok
  rw [exec_begins rfl hrun, continueAt, hdone, standAt, hdone, hresult]
  rfl

/-- READ of a range, empty or not, whose reads return the stored bytes. -/
theorem ReadsStored.cycles {a n : Word} {s : State} (h : ReadsStored a n s) (hrun : s.run = none) :
    ∃ v, cycles (max n.toNat 1) (.read a n) s = .next v ∧ v.result = .ok (readBytes s.arr a.toNat n.toNat) ∧
      v.run = none := by
  rw [cycles_eq_execTimes exec_read_pend h.idle]
  rcases Nat.eq_zero_or_pos n.toNat with hn | hn
  · rw [hn]
    have hempty := exec_read_empty hrun h.readOk hn
    exact ⟨_, execTimes_succ hempty, rfl, rfl⟩
  · obtain ⟨m, hm⟩ := Nat.exists_eq_add_one.mpr hn
    obtain ⟨v, d, hexec⟩ := execTimes_read_from (m := m) (k := 0) h (by omega) (exec_begins rfl hrun)
    rw [← hm] at hexec
    rw [Nat.max_eq_left hn]
    exact ⟨_, hexec, rfl, rfl⟩

/-- The bytes of a range that hold some data, one by one, are the data. -/
theorem readBytes_eq {m : Memory} {a : Nat} {data : List Byte}
    (h : ∀ (j : Nat) (hj : j < data.length), readByte m (a + j) = data[j]) : readBytes m a data.length = data := by
  apply List.ext_getElem
  · simp [readBytes]
  · intro j _ hj
    simpa [readBytes] using h j hj

/-! ## Bytes of one sector -/

section Sector

variable {s : State} {n b : Nat} (hb : sectorOf s.params.sectorMap b = some n)
include hb

theorem not_writeProtectedByte (h : wprot s.ob n = false) : ¬WriteProtectedByte s b := by
  rw [writeProtectedByte_iff, wprotAt, hb]
  simpa using h

theorem not_readProtectedByte (h : rprot s.ob n = false) : ¬ReadProtectedByte s b := by
  rw [readProtectedByte_iff, rprotAt, hb]
  simpa using h

end Sector

/-! ## The three runs -/

/-- The host stands between commands at `s`, with nothing pending, CR locked, no sticky flag, PSIZE = x32 and the data
cache off. -/
structure AtRest (s : State) : Prop where
  ready : Ready s
  invariant : Invariant s
  idle : s.pend = .none
  locked : s.ks = .wait1
  not_sticky : sticky s.sr = false
  psize : s.cr.psize = 2
  uncached : s.acr.dcen = false
  timed : WellTimed s

section AtRest

variable {s : State} (h : AtRest s)
include h

/-- ERASE_SECTOR erases a sector that is not protected, and leaves the host at rest (rule R240). -/
theorem AtRest.cycles_eraseSector {n : Word} (hn : n.toNat < s.params.nSectors) (hprot : wprot s.ob n.toNat = false) :
    ∃ t, cycles 12 (.eraseSector n) s = .next t ∧ AtRest t ∧ t.params = s.params ∧ t.ob = s.ob ∧
      ∀ b, InSector s n.toNat b → readByte t.arr b = s.params.erasedByte := by
  have ⟨hs, hinv, hp, hks, hsticky, hpsize, hdcen, htimed⟩ := h
  have hsnb : n.toNat < 2 ^ s.params.snbWidth := Nat.lt_of_lt_of_le hn hinv.params_ok.sectors_snb
  have hpsize3 : s.cr.psize.toNat < 3 := by
    rw [hpsize]
    decide
  obtain ⟨hfree, -⟩ := eraseSectorErasesItsSectorOrFlags n s hs hinv hp hks hsticky hsnb
  obtain ⟨m, st, v, d, hrun, herased, -⟩ := hfree (by simp [hprot])
  exact ⟨_, hrun, ⟨hs, hinv.cycles hrun, hp, hks, hsticky, hpsize, hdcen, htimed⟩, rfl, rfl, herased hpsize3⟩

/-- WRITE of whole words puts its data in an erased range, and leaves the host at rest (rule R239). -/
theorem AtRest.cycles_write {a len : Word} {data : List Byte} (ha : a.toNat % 4 = 0) (hlen : len.toNat % 4 = 0)
    (hdata : data.length = len.toNat) (hbase : s.params.arrayBase ≤ a.toNat)
    (hlast : a.toNat + len.toNat ≤ s.params.arrayLast + 1)
    (htarget : ∀ j, j < len.toNat →
      readByte s.arr (a.toNat + j) = s.params.erasedByte ∧ ¬WriteProtectedByte s (a.toNat + j)) :
    ∃ u, cycles (10 + len.toNat / 4) (.write a len data) s = .next u ∧ AtRest u ∧ u.params = s.params ∧ u.ob = s.ob ∧
      readBytes u.arr a.toNat len.toNat = data := by
  have ⟨hs, hinv, hp, hks, hsticky, hpsize, hdcen, htimed⟩ := h
  have hrange : a.toNat + 4 * (len.toNat / 4) - 1 ≤ s.params.arrayLast := by omega
  obtain ⟨m, st, v, d, hrun, hstored, -⟩ := writeProgramsItsData a len data s (len.toNat / 4) (by omega) hs hinv hp hks
    hsticky hpsize ha hdata (.inr ⟨hbase, hrange⟩) fun j hj => htarget j (by omega)
  exact ⟨_, hrun, ⟨hs, hinv.cycles hrun, hp, hks, hsticky, hpsize, hdcen, htimed⟩, rfl, rfl,
    hdata ▸ readBytes_eq hstored⟩

end AtRest

end Sys2Proof.Machine

namespace Sys2Proof

open Machine

/-- Settles O60: ERASE_SECTOR leaves the range erased, so WRITE puts its data there, and READ finds it. -/
theorem eraseWriteReadReturnsTheData : Obligations.EraseWriteReadReturnsTheData := by
  unfold Obligations.EraseWriteReadReturnsTheData
  intro n a len data s hs hinv hp hks hsticky hpsize hdcen htimed hn hwprot hrprot ha hlen hdata hbase _ hlast _
    hend hsector
  have hrest : AtRest s := ⟨hs, hinv, hp, hks, hsticky, hpsize, hdcen, htimed⟩
  have hinside : ∀ j, j < len.toNat → InSector s n.toNat (a.toNat + j) := fun j hj => range_of_sectorOf (hsector j hj)
  obtain ⟨t, herase, ht, hparams, hob, herased⟩ := hrest.cycles_eraseSector hn hwprot
  rw [← hparams] at hbase hlast hend hsector herased
  rw [← hob] at hwprot hrprot
  obtain ⟨u, hwrite, hu, hparams, hob, hstored⟩ := ht.cycles_write ha hlen hdata hbase hlast fun j hj =>
    ⟨herased _ (hinside j hj), not_writeProtectedByte (hsector j hj) hwprot⟩
  rw [← hparams] at hbase hlast hend hsector
  rw [← hob] at hrprot
  have hreads : ReadsStored a len u := ⟨hu.ready.unmarked, hu.idle, hu.timed, hbase, hend, hlast,
    fun j hj => not_readProtectedByte (hsector j hj) hrprot, .inl hu.uncached⟩
  have ⟨_, _, hrun⟩ := hu.ready
  obtain ⟨v, hread, hresult, hdone⟩ := hreads.cycles hrun
  exact ⟨t, u, v, herase, hwrite, hread, hstored ▸ hresult, hdone⟩

end Sys2Proof

/-! # INIT, LOCK, READ out of range, and the queries of one read (rules R231, R232, R234, R237, R238, R242, R244, R245,
R249) -/

namespace Sys2Proof.Machine

/-! ## Fields replaced as a whole (rules R122, R230) -/

/-- A field's mask names no bit outside the field. -/
theorem getLsbD_fieldMask_outside {lo n i : Nat} (h : i < lo ∨ lo + n ≤ i) : (fieldMask lo n).getLsbD i = false := by
  rw [getLsbD_fieldMask]
  simp only [Bool.and_eq_false_iff, decide_eq_false_iff_not]
  omega

/-- Clearing a field with its own mask leaves none of its bits. -/
theorem clear_fieldMask {room lo n : Nat} {f : BitVec room} (hroom : lo + room ≤ 32) (hf : f.toNat < 2 ^ n) :
    f &&& ~~~(((fieldMask lo n).extractLsb' lo n).setWidth room) = 0#room := by
  apply BitVec.eq_of_getLsbD_eq
  intro j hj
  rw [BitVec.getLsbD_and, BitVec.getLsbD_not, getLsbD_field _ _ _ _ hj, getLsbD_fieldMask, BitVec.getLsbD_zero]
  by_cases hin : j < n
  · have h32 : lo + j < 32 := by omega
    simp [hin, hj, h32]
  · rw [getLsbD_of_toNat_lt hf (Nat.not_lt.mp hin), Bool.false_and]

/-! ## INIT's two writes (rules R231, R232) -/

/-- 0 is cut to itself, so the cut to LATENCY_WIDTH concerns the quotient only (rule R231). -/
theorem wsCalc_eq (p : Params) (f : Nat) :
    wsCalc p f = if f / 1000000 = 0 then 0 else ((f / 1000000 - 1) / p.wsStepMhz) % 2 ^ p.latencyWidth := by
  simp only [wsCalc]
  split
  · exact Nat.zero_mod _
  · rfl

theorem wsCalc_lt (p : Params) (f : Nat) : wsCalc p f < 2 ^ p.latencyWidth := Nat.mod_lt _ (Nat.two_pow_pos _)

/-- A count that fits LATENCY is stored whole (rules R34, R142). -/
theorem latency_ofNat {w n : Nat} (hw : w ≤ 8) (hn : n < 2 ^ w) :
    ((BitVec.ofNat 32 n).extractLsb' 0 w).setWidth 8 = BitVec.ofNat 8 n := by
  have h8 : n < 2 ^ 8 := Nat.lt_of_lt_of_le hn (Nat.pow_le_pow_right (by decide) hw)
  refine field_of_room ?_ ?_
  · apply BitVec.eq_of_toNat_eq
    simp only [BitVec.extractLsb'_toNat, BitVec.toNat_ofNat, Nat.shiftRight_zero]
    omega
  · rwa [BitVec.toNat_ofNat, Nat.mod_eq_of_lt h8]

/-- What INIT writes to ACR: the word read, its LATENCY field replaced by `n` (rule R232). -/
def latencyWord (s : State) (n : Nat) : Word :=
  regvalAcr s &&& ~~~(fieldMask 0 s.params.latencyWidth) ||| BitVec.ofNat 32 n

/-- `s` with LATENCY replaced by a write of ACR, which resets the data cache as rule R142 says. -/
def setLatency (s : State) (n : Nat) : State :=
  { s with
    acr := { s.acr with latency := BitVec.ofNat 8 n }
    stale := if s.acr.dcrst = true ∧ s.acr.dcen = false then [] else s.stale }

section SetLatency

variable {s : State} {n : Nat} (hw : s.params.latencyWidth ≤ 8) (hn : n < 2 ^ s.params.latencyWidth)
include hw hn

/-- Above LATENCY's room INIT's write of ACR keeps the bits read. -/
theorem getLsbD_latencyWord {i : Nat} (hi : 8 ≤ i) (h32 : i < 32) :
    (latencyWord s n).getLsbD i = (regvalAcr s).getLsbD i := by
  have hsmall : (BitVec.ofNat 32 n).toNat < 2 ^ s.params.latencyWidth :=
    Nat.lt_of_le_of_lt (BitVec.toNat_ofNat n 32 ▸ Nat.mod_le _ _) hn
  rw [latencyWord, getLsbD_mod _ _ _ h32, getLsbD_fieldMask_outside (by omega), getLsbD_of_toNat_lt hsmall (by omega),
    Bool.not_false, Bool.and_true, Bool.or_false]

/-- LATENCY is replaced, and the other fields of ACR are written back (rules R122, R142). -/
theorem acrOfWord_latencyWord : acrOfWord s.params (latencyWord s n) = { s.acr with latency := BitVec.ofNat 8 n } := by
  have hlatency := field_mod (room := 8) (regvalAcr s) (fieldMask 0 s.params.latencyWidth) (BitVec.ofNat 32 n) 0
    s.params.latencyWidth
  rw [clear_fieldMask (by decide) (field_lt _ _ _), latency_ofNat hw hn, BitVec.zero_or] at hlatency
  rw [acrOfWord, latencyWord, hlatency, ← latencyWord]
  simp only [getLsbD_latencyWord hw hn, Nat.reduceLeDiff, Nat.reduceLT, getLsbD_regvalAcr]
  rfl

/-- INIT's write of ACR (rules R97, R142, R232). -/
theorem acrWrite_latencyWord : acrWrite (latencyWord s n) s = some (setLatency s n) := by
  have h12 : (regvalAcr s).getLsbD 12 = s.acr.dcrst := getLsbD_regvalAcr s 12
  have h10 : (regvalAcr s).getLsbD 10 = s.acr.dcen := getLsbD_regvalAcr s 10
  have hcache : resetsDataCache (latencyWord s n) = true ↔ s.acr.dcrst = true ∧ s.acr.dcen = false := by
    rw [resetsDataCache, getLsbD_latencyWord hw hn (by decide) (by decide), h12,
      getLsbD_latencyWord hw hn (by decide) (by decide), h10, Bool.and_eq_true, Bool.not_eq_true']
  simp only [acrWrite, acrOfWord_latencyWord hw hn, hcache, setLatency]
  split <;> rfl

end SetLatency

/-- PSIZE = x32, in a field that holds the four codes of rule R39 (rules R39, R232). -/
theorem CrFields.modify_psize {p : Params} {f : CrFields} (hp : paramsOk p) (hf : f.psize.toNat < 2 ^ p.psizeWidth) :
    f.modify p (fieldMask 8 p.psizeWidth) 0x00000200 = { f with psize := 2 } := by
  have hroom := hp.psize_room
  have hmask : ∀ j, j < 8 ∨ 16 ≤ j → (fieldMask 8 p.psizeWidth).getLsbD j = false := fun j hj =>
    getLsbD_fieldMask_outside (by omega)
  have hfits : (2 : BitVec 8).toNat < 2 ^ p.psizeWidth :=
    Nat.lt_of_lt_of_le (by decide : 2 < 2 ^ 2) (Nat.pow_le_pow_right (by decide) hp.psize_codes)
  have hcode : ((0x00000200 : Word).extractLsb' 8 p.psizeWidth).setWidth 8 = (2 : BitVec 8) := field_of_room rfl hfits
  have hsnb : ((0x00000200 : Word).extractLsb' 3 p.snbWidth).setWidth 5 = 0#5 := field_eq_zero _ (by decide)
  have hsnbMask : ((fieldMask 8 p.psizeWidth).extractLsb' 3 p.snbWidth).setWidth 5 = 0#5 :=
    field_eq_zero _ fun j hj => hmask (3 + j) (by omega)
  rw [modify, clear_fieldMask (by decide) hf, hcode, hsnb, hsnbMask, BitVec.not_zero, BitVec.and_allOnes,
    hmask 0 (by decide), hmask 1 (by decide), hmask 2 (by decide), hmask 24 (by decide), hmask 25 (by decide)]
  simp

/-- A read-modify-write of an idle CR that sets no start, CR open or locked (rules R122, R150). -/
theorem crWrite_modify_idle {s : State} (c : Word) {m : Word} (hp : s.pend = .none) (hf : s.cr.Fits s.params)
    (hm : m.getLsbD 16 = false) :
    crWrite (regvalCr s &&& ~~~c ||| m) s = some { s with
      cr := if s.ks ≠ .opened ∧ s.params.lockedCrWrite = .ignored then s.cr else s.cr.modify s.params c m
      ks := if s.ks = .opened ∧ m.getLsbD 31 = true then .wait1 else s.ks } := by
  by_cases hk : s.ks = .opened
  · rw [crWrite_modify c hp hk hf hm]
    simp only [hk, ne_eq, not_true_eq_false, false_and, if_false, true_and]
  · rw [crWrite_locked hp hk, crOfWord_modify c m hf]
    cases s.params.lockedCrWrite <;> simp [hk]

/-- INIT's write of CR: PSIZE becomes x32, unless a locked CR ignores the write (rules R150, R232). -/
theorem crWrite_setPsize {s : State} (hp : s.pend = .none) (hok : paramsOk s.params) (hf : s.cr.Fits s.params) :
    crWrite (regvalCr s &&& ~~~(fieldMask 8 s.params.psizeWidth) ||| 0x00000200) s = some { s with
      cr := if s.ks ≠ .opened ∧ s.params.lockedCrWrite = .ignored then s.cr else { s.cr with psize := 2 } } := by
  have hnolock : ¬(s.ks = .opened ∧ (0x00000200 : Word).getLsbD 31 = true) := fun h => absurd h.2 (by decide)
  rw [crWrite_modify_idle _ hp hf (by decide), CrFields.modify_psize hok hf.2, if_neg hnolock]

/-- LOCK's write of CR locks an open one and changes no field (rules R150, R234). -/
theorem crWrite_setLock_idle {s : State} (hp : s.pend = .none) (hf : s.cr.Fits s.params) :
    crWrite (regvalCr s &&& ~~~0 ||| 0x80000000) s = some { s with
      ks := if s.ks = .opened then .wait1 else s.ks } := by
  have h31 : (0x80000000 : Word).getLsbD 31 = true := rfl
  rw [crWrite_modify_idle 0 hp hf (by decide), CrFields.modify_lock, ite_self]
  simp only [h31, and_true]

/-! ## INIT -/

/-- `s` with a command standing at its transaction `k`, and `v` as the word it last read. -/
def standingAt (s : State) (i : Instr) (k : Nat) (v : Word) : State :=
  { s with rdata := v, run := some ⟨i, k, v, []⟩, held := false }

/-- INIT's first half, its read-modify-write of ACR (rule R232). -/
theorem execTimes_init_acr {s : State} (hs : Ready s) (hw : s.params.latencyWidth ≤ 8) (f : Word) (k : Nat) :
    execTimes (k + 2) (.init f) s =
      execTimes k (.init f) (standingAt (setLatency s (wsCalc s.params f.toNat)) (.init f) 2 (regvalAcr s)) := by
  have hread : exec (.init f) s = .next (standingAt s (.init f) 1 (regvalAcr s)) :=
    begins_with_read hs (t := s.withRdata (regvalAcr s)) rfl rfl rfl rfl
  have hacr := acrWrite_latencyWord (s := standingAt s (.init f) 1 (regvalAcr s)) hw (wsCalc_lt s.params f.toNat)
  have hwrite := exec_goes (us := initTxns s.params f)
    (u := .wrMod .acr (fieldMask 0 s.params.latencyWidth) (BitVec.ofNat 32 (wsCalc s.params f.toNat)))
    (exec_under_way (s := standingAt s (.init f) 1 (regvalAcr s)) rfl rfl rfl) hacr hs.unmarked rfl rfl rfl rfl
  rw [execTimes_succ hread, execTimes_succ hwrite]
  rfl

/-- Its second half, the one of CR. -/
theorem execTimes_init_cr {s : State} {v : Word} (hm : marked s = false) (hok : paramsOk s.params)
    (hp : s.pend = .none) (hf : s.cr.Fits s.params) (f : Word) :
    execTimes 2 (.init f) (standingAt s (.init f) 2 v) = .next { s with
      cr := if s.ks ≠ .opened ∧ s.params.lockedCrWrite = .ignored then s.cr else { s.cr with psize := 2 }
      rdata := regvalCr s
      run := none
      result := .nothing
      held := false } := by
  have hread : exec (.init f) (standingAt s (.init f) 2 v) = .next (standingAt s (.init f) 3 (regvalCr s)) :=
    exec_goes (us := initTxns s.params f) (u := .rd .cr) (t := (standingAt s (.init f) 2 v).withRdata (regvalCr s))
      (exec_under_way (s := standingAt s (.init f) 2 v) rfl rfl rfl) rfl hm rfl rfl rfl rfl
  have hcr := crWrite_setPsize (s := standingAt s (.init f) 3 (regvalCr s)) hp hok hf
  have hwrite := exec_ends (us := initTxns s.params f) (u := .wrMod .cr (fieldMask 8 s.params.psizeWidth) 0x00000200)
    (exec_under_way (s := standingAt s (.init f) 3 (regvalCr s)) rfl rfl rfl) hcr hm rfl rfl rfl rfl
  rw [execTimes_succ hread, execTimes_succ hwrite]
  rfl

/-- INIT's run (rule R232). -/
theorem execTimes_init {s : State} (hs : Ready s) (hinv : Invariant s) (hp : s.pend = .none) (f : Word) :
    execTimes 4 (.init f) s = .next { setLatency s (wsCalc s.params f.toNat) with
      cr := if s.ks ≠ .opened ∧ s.params.lockedCrWrite = .ignored then s.cr else { s.cr with psize := 2 }
      rdata := regvalCr s
      result := .nothing
      held := false } := by
  have ⟨_, _, hrun⟩ := hs
  rw [execTimes_init_acr hs hinv.params_ok.latency_room f 2,
    execTimes_init_cr (s := setLatency s (wsCalc s.params f.toNat)) hs.unmarked hinv.params_ok hp
      ⟨hinv.snb_fits, hinv.psize_fits⟩ f, ← hrun]
  rfl

/-! ## LOCK -/

/-- LOCK reads CR and writes it back with the lock (rule R234). -/
theorem execTimes_lock {s : State} (hs : Ready s) (hp : s.pend = .none) (hf : s.cr.Fits s.params) :
    execTimes 2 .lock s = .next { s with
      ks := if s.ks = .opened then .wait1 else s.ks
      rdata := regvalCr s
      result := .nothing
      held := false } := by
  have ⟨_, _, hrun⟩ := hs
  have hread : exec .lock s = .next (standingAt s .lock 1 (regvalCr s)) :=
    begins_with_read hs (t := s.withRdata (regvalCr s)) rfl rfl rfl rfl
  have hcr := crWrite_setLock_idle (s := standingAt s .lock 1 (regvalCr s)) hp hf
  have hlock := exec_ends (us := lockTxns) (u := .wrMod .cr 0 0x80000000)
    (exec_under_way (s := standingAt s .lock 1 (regvalCr s)) rfl rfl rfl) hcr hs.unmarked rfl rfl rfl rfl
  rw [execTimes_succ hread, execTimes_succ hlock, ← hrun]
  rfl

/-! ## READ out of range -/

theorem readOk_iff (p : Params) (a n : Word) :
    readOk p a n = true ↔
      p.arrayBase ≤ a.toNat ∧ a.toNat ≤ p.endAddr.toNat ∧ a.toNat + n.toNat ≤ p.endAddr.toNat := by
  simp only [readOk, Bool.and_eq_true, decide_eq_true_eq, and_assoc]

/-- A READ that fails `read_ok` completes at once, with no transaction (rules R237, R238). -/
theorem exec_read_outOfRange {a n : Word} {s : State} (hrun : s.run = none) (hok : readOk s.params a n = false) :
    exec (.read a n) s = .next { s with run := none, result := .outOfRange, held := false } := by
  have hdone : (readExpansion s.params a n).txnAt 0 = none := by simp [readExpansion, hok]
  have hresult : (readExpansion s.params a n).result ⟨.read a n, 0, 0, []⟩ = .outOfRange := by simp [readExpansion, hok]
  rw [exec_begins rfl hrun, continueAt, hdone, standAt, hdone, hresult]
  rfl

/-! ## Queries of one read -/

/-- IS_STATUS_BIT_SET completes after its one read, with the bit of the word read (rule R245). -/
theorem exec_isStatusBitSet {pos : Word} {s : State} (hs : Ready s) (hpos : pos.toNat ≤ 31) :
    exec (.isStatusBitSet pos) s = .next { s with
      rdata := regvalSr s, result := .flag ((regvalSr s).getLsbD pos.toNat), run := none, held := false } := by
  have ⟨_, _, hrun⟩ := hs
  have hok : statusBitOk pos = true := decide_eq_true hpos
  have hexec : exec (.isStatusBitSet pos) s =
      .next (runCommand (.isStatusBitSet pos) true (statusBitExpansion pos) s) := by
    rw [← hok]
    rfl
  rw [exec_begins hexec hrun, continueAt_ends (u := .rd .sr) (t := s.withRdata (regvalSr s)) rfl rfl hs.unmarked rfl]
  rfl

/-- The code of a level, from the fields that give it (rules R49, R119). -/
theorem levelCode_level (m : Bool) (b : BitVec 8) (i : Nat) :
    levelCode (level m b i) =
      if m = true ∧ b.getLsbD i = true then 2 else if m = false ∧ b.getLsbD i = false then 1 else 0 := by
  rw [level_eq]
  cases m <;> cases b.getLsbD i <;> rfl

end Sys2Proof.Machine

namespace Sys2Proof

open Machine

/-- Settles O47: INIT's run, its count written out. -/
theorem initWritesWaitStatesAndParallelism : Obligations.InitWritesWaitStatesAndParallelism := by
  unfold Obligations.InitWritesWaitStatesAndParallelism
  refine ⟨⟨rfl, rfl⟩, fun f s hs hinv hp => ⟨regvalCr s, ?_⟩⟩
  rw [execTimes_init hs hinv hp f, wsCalc_eq]
  rfl

/-- Settles O50: LOCK's run, after any state and after UNLOCK's. -/
theorem unlockThenLockLeavesTheControlRegister : Obligations.UnlockThenLockLeavesTheControlRegister := by
  unfold Obligations.UnlockThenLockLeavesTheControlRegister
  intro s hs hinv hp
  have hfits : s.cr.Fits s.params := ⟨hinv.snb_fits, hinv.psize_fits⟩
  refine ⟨⟨_, execTimes_lock hs hp hfits⟩, fun hks => ?_⟩
  obtain ⟨hopens, -, -⟩ := unlockOpensTheControlRegister s hs
  obtain ⟨v, hunlock⟩ := hopens hks hp
  have hlock := execTimes_lock (s := { s with ks := .opened, rdata := v, result := .nothing, held := false }) hs hp
    hfits
  rw [if_pos rfl, ← hks] at hlock
  exact ⟨_, _, hunlock, rfl, rfl, hlock⟩

/-- Settles O59: each query's one read, and its result. -/
theorem statusQueriesReadOnce : Obligations.StatusQueriesReadOnce := by
  unfold Obligations.StatusQueriesReadOnce
  intro s hs
  have ⟨_, _, hrun⟩ := hs
  refine ⟨⟨_, rfl, ?_⟩, _, rfl, fun pos hpos => ?_, fun hp => ?_, fun hp => ?_⟩
  · rw [exec_getProtection hs, levelsOf_regvalOptcr, ← hrun]
    simp only [levelCode_level]
    rfl
  · rw [exec_isStatusBitSet hs hpos, ← hrun]
    rfl
  · rw [exec_wait_ends (.inl hrun) hs.unmarked hp, ← hrun]
    rfl
  · exact exec_wait_polls (.inl hrun) hs.unmarked hp

/-- Settles O52: with no byte to read the command is complete before its first transaction. -/
theorem readOutOfRangeIssuesNothing : Obligations.ReadOutOfRangeIssuesNothing := by
  unfold Obligations.ReadOutOfRangeIssuesNothing
  refine ⟨⟨rfl, rfl⟩, ?_⟩
  rintro a n s e hrun rfl
  refine ⟨fun hout => ?_, fun hlo hhi hn => ?_⟩
  · have hok : readOk s.params a n = false := Bool.eq_false_iff.mpr (mt (readOk_iff s.params a n).mp hout)
    rw [exec_read_outOfRange hrun hok, ← hrun]
  · have hok : readOk s.params a n = true := (readOk_iff s.params a n).mpr ⟨hlo, hhi, by omega⟩
    rw [exec_read_empty hrun hok hn, ← hrun]

end Sys2Proof

/-! # The interrupt output (spec 60_exceptions.md) -/

namespace Sys2Proof.Machine

/-- The interrupt output over `regval(SR)` and `regval(CR)`: EOP, OPERR and RDERR stand at SR's bits 0, 1 and 8, EOPIE
and ERRIE at CR's bits 24 and 25 (rules R56, R284). -/
theorem irq_eq_regvals (s : State) :
    irq s = (((regvalSr s).getLsbD 0 && (regvalCr s).getLsbD 24) ||
      ((regvalCr s).getLsbD 25 && ((regvalSr s).getLsbD 1 || (regvalSr s).getLsbD 8))) := by
  have heop : (regvalSr s).getLsbD 0 = s.sr.eop := getLsbD_regvalSr s 0
  have hoperr : (regvalSr s).getLsbD 1 = s.sr.operr := getLsbD_regvalSr s 1
  have hrderr : (regvalSr s).getLsbD 8 = s.sr.rderr := getLsbD_regvalSr s 8
  have heopie : (regvalCr s).getLsbD 24 = s.cr.eopie := getLsbD_regvalCr s 24
  have herrie : (regvalCr s).getLsbD 25 = s.cr.errie := getLsbD_regvalCr s 25
  rw [heop, hoperr, hrderr, heopie, herrie, irq]

end Sys2Proof.Machine

namespace Sys2Proof

open Machine

/-- Settles O43: the two reads give `regval(SR)` and `regval(CR)`. -/
theorem interruptOutputIsItsEquationOverTheRegisters :
    Obligations.InterruptOutputIsItsEquationOverTheRegisters := by
  unfold Obligations.InterruptOutputIsItsEquationOverTheRegisters
  exact fun s => ⟨_, _, issue_of_some (t := srRead) rfl, issue_of_some (t := crRead) rfl, irq_eq_regvals s⟩

end Sys2Proof
